-- ==== Sys2Proof/Word.lean ====
section
/-! DEFINITION. Words of the block: fixed-width bit vectors with bit 0 least significant (00_scope.md R15). -/

namespace Sys2Proof

/-- A word of width `W` (00_scope.md R15, R16). -/
abbrev Word (W : Nat) := BitVec W

/-- A word of width `2W`: a product (30_encoding.md R79), the remainder of the long divider (10_state.md R32). -/
abbrev DWord (W : Nat) := BitVec (W + W)

/-- The `2W+1`-bit backing register: `W+1` high bits over `W` low bits (10_state.md R30, R35). -/
abbrev Backing (W : Nat) := BitVec (W + 1 + W)

/-- `MIN_W`, the word `{1, 0^(W-1)}` (00_scope.md R20). -/
def minWord (W : Nat) : Word W := BitVec.intMin W

/-- `ONES_W`, the word `1^W` (00_scope.md R20). -/
def onesWord (W : Nat) : Word W := BitVec.allOnes W

end Sys2Proof
end

