-- ==== Sys2Proof/Config.lean ====
section
/-! DEFINITION. Construction parameters of the block (00_scope.md R9), their checks at construction
(60_exceptions.md R258), and the free values: constants without a body, for what the spec leaves open. -/

namespace Sys2Proof

/-- The `impl` selector of `MulticycleDiv` (41_multicycle_div.md R115). -/
inductive Impl where
  | restoring
  | nonRestoring
deriving DecidableEq, Repr

/-- The `limit` selector of `BinaryToBCD` (45_bcd.md R230). -/
inductive Limit where
  | largestPower10
  | entireRange
deriving DecidableEq, Repr

/-- What a construction request gives as a width: an integer, or a value that is none (41_multicycle_div.md R115,
60_exceptions.md R258). -/
inductive WidthRequest where
  | integer (w : Int)
  | notInteger
deriving DecidableEq, Repr

/-- What a construction request gives as `limit`: nothing, one of the two selectors, or another value (45_bcd.md R230). -/
inductive LimitRequest where
  | notGiven
  | given (l : Limit)
  | otherValue
deriving DecidableEq, Repr

/-- `BCD_IMPL` (45_bcd.md R233). It changes no result. -/
inductive BcdImpl where
  | doubleDabble
  | base1000
deriving DecidableEq, Repr

/-- `BCD_MODE` (45_bcd.md R241, R242). -/
inductive BcdMode where
  | pipelined
  | sequential
deriving DecidableEq, Repr

/-- The seven components of the block (00_scope.md R1, R4). -/
inductive Component where
  | nrdiv
  | rdiv
  | ldiv
  | pmul
  | mcmul
  | bcd
  | mag
deriving DecidableEq, Repr

/-- Every component, in the order of `opcode_table.json`. -/
def Component.all : List Component := [.nrdiv, .rdiv, .ldiv, .pmul, .mcmul, .bcd, .mag]

/-- The reasons a construction fails, all of them (60_exceptions.md R258). -/
inductive ConfigError where
  /-- `bad_width`: `W` not an integer `>= 2` for a divider or a multiplier, not one `>= 4` for the converter. -/
  | badWidth
  /-- `bad_impl`: `impl` is neither `RESTORING` nor `NON_RESTORING`. -/
  | badImpl
  /-- `bad_limit`: `limit` is neither `LARGEST_POWER_10` nor `ENTIRE_RANGE`. -/
  | badLimit
  /-- `bad_stage_count`: `BASE1000` with an unsupported `BCD_STAGES`. -/
  | badStageCount
deriving DecidableEq, Repr

/-- Parameters of `BinaryToBCD` (00_scope.md R9). -/
structure BcdParams where
  W : Nat
  limit : Limit
  impl : BcdImpl
  stageCount : Nat
  mode : BcdMode
  latency : Nat
deriving DecidableEq, Repr

/-- Parameters of the block: one instance of each component (00_scope.md R9, R11; log 1). -/
structure Params where
  nrdivW : Nat
  rdivW : Nat
  ldivW : Nat
  pmulW : Nat
  mcmulW : Nat
  bcd : BcdParams
  magW : Nat
deriving DecidableEq, Repr

/-- What is asked for when a block is constructed (00_scope.md R9): one request for each instance (log 1). `impl` of the
two dividers is what makes them two components (R4). -/
structure BlockRequest where
  nrdivW : WidthRequest
  rdivW : WidthRequest
  ldivW : WidthRequest
  pmulW : WidthRequest
  mcmulW : WidthRequest
  bcdW : WidthRequest
  limit : LimitRequest
  bcdImpl : BcdImpl
  stageCount : Nat
  mode : BcdMode
  latency : Nat
  magW : Nat
deriving DecidableEq, Repr

/-- The width of the instance of a component (00_scope.md R9). -/
def Params.width (p : Params) : Component → Nat
  | .nrdiv => p.nrdivW
  | .rdiv => p.rdivW
  | .ldiv => p.ldivW
  | .pmul => p.pmulW
  | .mcmul => p.mcmulW
  | .bcd => p.bcd.W
  | .mag => p.magW

/-- The parameters `State.reset` is built with: DESIGN CHOICE (log 5, log 6); `limit` is the default of 45_bcd.md R230. -/
def Params.default : Params where
  nrdivW := 8
  rdivW := 8
  ldivW := 8
  pmulW := 8
  mcmulW := 8
  bcd := { W := 8, limit := .largestPower10, impl := .doubleDabble, stageCount := 3, mode := .pipelined, latency := 1 }
  magW := 8

/-- FREE VALUE (log 7): `BCD_OVERRANGE(W, D, n)`, the digits of an over-range input (45_bcd.md R243). -/
opaque Config.bcdOverrange (W D : Nat) (n : Word W) : BitVec (4 * D)

/-- FREE VALUE (log 8): whether an implementation supports a base-1000 stage count other than 3 (45_bcd.md R233). -/
opaque Config.supportsStageCount : Nat → Bool

/-- FREE VALUE (log 4): what the data register named `reg`, of `w` bits, holds after a `reset()` applied before cycle
`cycle` of a run (10_state.md R25, 70_reset_and_hazards.md R280). `index` is the stage, for a register of a stage. -/
opaque Config.afterReset (c : Component) (reg : String) (index cycle w : Nat) : BitVec w

/-- FREE VALUE (log 2): the payload wires of a cycle the script does not list, `- | ready` (30_encoding.md R89: any bits). -/
opaque Config.idlePayload (c : Component) (cycle w : Nat) : BitVec w

end Sys2Proof
end

