-- ==== Sys2Proof/Syntax.lean ====
section
/-! DEFINITION. The operation map (30_encoding.md R84): one constructor per row of `opcode_table.json`, and the sign tags
(R82, R83). Operands are the values of the payload fields. -/

namespace Sys2Proof

/-- Sign tag of a divider or of the converter, one bit (30_encoding.md R82). -/
inductive DivSign where
  | unsigned
  | signed
deriving DecidableEq, Repr

/-- Sign tag of a multiplier (30_encoding.md R83). The fourth code of its 2-bit field is reserved and is no tag. -/
inductive MulSign where
  | unsigned
  | signed
  | signedUnsigned
deriving DecidableEq, Repr

/-- The operations of the block (30_encoding.md R84), in the table's order. A field value `x` stands for the word
`trunc_W(x)` (R89); `WellFormed` asks that it fit. -/
inductive Instr where
  /-- `NRDIV.U n, d` (R140). -/
  | nrdivU (n d : Nat)
  /-- `NRDIV.S n, d` (R141). -/
  | nrdivS (n d : Nat)
  /-- `RDIV.U n, d` (R142). -/
  | rdivU (n d : Nat)
  /-- `RDIV.S n, d` (R143). -/
  | rdivS (n d : Nat)
  /-- `LDIV.U n, d` (R175). -/
  | ldivU (n d : Nat)
  /-- `LDIV.S n, d` (R176). -/
  | ldivS (n d : Nat)
  /-- `PMUL.U a, b` (R200). -/
  | pmulU (a b : Nat)
  /-- `PMUL.S a, b` (R201). -/
  | pmulS (a b : Nat)
  /-- `PMUL.SU a, b` (R202). -/
  | pmulSU (a b : Nat)
  /-- `MCMUL.U a, b` (R221). -/
  | mcmulU (a b : Nat)
  /-- `MCMUL.S a, b` (R222). -/
  | mcmulS (a b : Nat)
  /-- `MCMUL.SU a, b` (R223). -/
  | mcmulSU (a b : Nat)
  /-- `BCD.U n` (R246). -/
  | bcdU (n : Nat)
  /-- `MAGCMP a, b` (R177). -/
  | magcmp (a b : Nat)
deriving DecidableEq, Repr

/-- The component whose input port an operation is offered to (30_encoding.md R84). -/
def Instr.component : Instr → Component
  | .nrdivU _ _ => .nrdiv
  | .nrdivS _ _ => .nrdiv
  | .rdivU _ _ => .rdiv
  | .rdivS _ _ => .rdiv
  | .ldivU _ _ => .ldiv
  | .ldivS _ _ => .ldiv
  | .pmulU _ _ => .pmul
  | .pmulS _ _ => .pmul
  | .pmulSU _ _ => .pmul
  | .mcmulU _ _ => .mcmul
  | .mcmulS _ _ => .mcmul
  | .mcmulSU _ _ => .mcmul
  | .bcdU _ => .bcd
  | .magcmp _ _ => .mag

/-- The mnemonic of an operation (30_encoding.md R84). -/
def Instr.mnemonic : Instr → String
  | .nrdivU _ _ => "NRDIV.U"
  | .nrdivS _ _ => "NRDIV.S"
  | .rdivU _ _ => "RDIV.U"
  | .rdivS _ _ => "RDIV.S"
  | .ldivU _ _ => "LDIV.U"
  | .ldivS _ _ => "LDIV.S"
  | .pmulU _ _ => "PMUL.U"
  | .pmulS _ _ => "PMUL.S"
  | .pmulSU _ _ => "PMUL.SU"
  | .mcmulU _ _ => "MCMUL.U"
  | .mcmulS _ _ => "MCMUL.S"
  | .mcmulSU _ _ => "MCMUL.SU"
  | .bcdU _ => "BCD.U"
  | .magcmp _ _ => "MAGCMP"

end Sys2Proof
end

