-- ==== Sys2Proof/WellFormed.lean ====
section
/-! DEFINITION. Well-formed operations: every operand fits its field, which is a whole word of the receiving instance's
width (30_encoding.md R76, R78, R80, R86). -/

namespace Sys2Proof

/-- A field value fits a field of `W` bits. -/
def fitsField (W x : Nat) : Bool := decide (x < 2 ^ W)

/-- The operands of `i` fit the payload fields of an instance of width `W`. -/
def WellFormed (W : Nat) : Instr → Bool
  | .nrdivU n d => fitsField W n && fitsField W d
  | .nrdivS n d => fitsField W n && fitsField W d
  | .rdivU n d => fitsField W n && fitsField W d
  | .rdivS n d => fitsField W n && fitsField W d
  | .ldivU n d => fitsField W n && fitsField W d
  | .ldivS n d => fitsField W n && fitsField W d
  | .pmulU a b => fitsField W a && fitsField W b
  | .pmulS a b => fitsField W a && fitsField W b
  | .pmulSU a b => fitsField W a && fitsField W b
  | .mcmulU a b => fitsField W a && fitsField W b
  | .mcmulS a b => fitsField W a && fitsField W b
  | .mcmulSU a b => fitsField W a && fitsField W b
  | .bcdU n => fitsField W n
  | .magcmp a b => fitsField W a && fitsField W b

end Sys2Proof
end

