-- ==== Sys2Proof/Decode.lean ====
section
/-! DEFINITION. Payload formats (30_encoding.md R75 to R81), the decoder (R85, R87) and, after it, the encoder. -/

namespace Sys2Proof

/-! ### Sign-tag fields -/

/-- The 1-bit tag field: `UNSIGNED = 0`, `SIGNED = 1` (30_encoding.md R82). -/
def DivSign.bit : DivSign → BitVec 1
  | .unsigned => 0#1
  | .signed => 1#1

/-- Reading the 1-bit tag field; neither code is reserved (30_encoding.md R82). -/
def DivSign.ofBit (b : BitVec 1) : DivSign := if b = 0#1 then .unsigned else .signed

/-- The 2-bit tag field: `UNSIGNED = 0`, `SIGNED = 1`, `SIGNED_UNSIGNED = 2` (30_encoding.md R83). -/
def MulSign.code : MulSign → BitVec 2
  | .unsigned => 0#2
  | .signed => 1#2
  | .signedUnsigned => 2#2

/-- Reading the 2-bit tag field; the code 3 is reserved (30_encoding.md R83, R87). -/
def MulSign.ofCode (c : BitVec 2) : Option MulSign :=
  if c = 0#2 then some .unsigned
  else if c = 1#2 then some .signed
  else if c = 2#2 then some .signedUnsigned
  else none

/-! ### Payload formats: fields packed from bit 0 upward, in the source's order (30_encoding.md R75) -/

/-- `DIV_IN`: `sign` in `[0]`, `n` in `[W:1]`, `d` in `[2W:W+1]` (30_encoding.md R76). -/
def packDivIn (sign : BitVec 1) (n d : Word W) : BitVec (W + W + 1) := d ++ n ++ sign

/-- The `sign` field of `DIV_IN` and of `DIV_OUT` (30_encoding.md R76, R77). -/
def divSignField (p : BitVec (W + W + 1)) : BitVec 1 := p.extractLsb' 0 1

/-- The `n` field of `DIV_IN` and the `q` field of `DIV_OUT` (30_encoding.md R76, R77). -/
def divLowField (p : BitVec (W + W + 1)) : Word W := p.extractLsb' 1 W

/-- The `d` field of `DIV_IN` and the `r` field of `DIV_OUT` (30_encoding.md R76, R77). -/
def divHighField (p : BitVec (W + W + 1)) : Word W := p.extractLsb' (W + 1) W

/-- `DIV_OUT`: `sign` in `[0]`, `q` in `[W:1]`, `r` in `[2W:W+1]` (30_encoding.md R77). -/
def packDivOut (sign : BitVec 1) (q r : Word W) : BitVec (W + W + 1) := r ++ q ++ sign

/-- `MUL_IN`: `sign` in `[1:0]`, `a` in `[W+1:2]`, `b` in `[2W+1:W+2]` (30_encoding.md R78). -/
def packMulIn (sign : BitVec 2) (a b : Word W) : BitVec (W + W + 2) := b ++ a ++ sign

/-- The `sign` field of `MUL_IN` and of `MUL_OUT` (30_encoding.md R78, R79). -/
def mulSignField (p : BitVec (W + W + 2)) : BitVec 2 := p.extractLsb' 0 2

/-- The `a` field of `MUL_IN` (30_encoding.md R78). -/
def mulAField (p : BitVec (W + W + 2)) : Word W := p.extractLsb' 2 W

/-- The `b` field of `MUL_IN` (30_encoding.md R78). -/
def mulBField (p : BitVec (W + W + 2)) : Word W := p.extractLsb' (W + 2) W

/-- `MUL_OUT`: `sign` in `[1:0]`, `o` in `[2W+1:2]` (30_encoding.md R79). -/
def packMulOut (sign : BitVec 2) (o : DWord W) : BitVec (W + W + 2) := o ++ sign

/-- The `o` field of `MUL_OUT` (30_encoding.md R79). -/
def mulOutField (p : BitVec (W + W + 2)) : DWord W := p.extractLsb' 2 (W + W)

/-- `BCD_IN`: `sign` in `[0]`, `n` in `[W:1]` (30_encoding.md R80). -/
def packBcdIn (sign : BitVec 1) (n : Word W) : BitVec (W + 1) := n ++ sign

/-- The `sign` field of `BCD_IN` (30_encoding.md R80). -/
def bcdSignField (p : BitVec (W + 1)) : BitVec 1 := p.extractLsb' 0 1

/-- The `n` field of `BCD_IN` (30_encoding.md R80). -/
def bcdNField (p : BitVec (W + 1)) : Word W := p.extractLsb' 1 W

/-- `BCD_OUT` with `D` digits: `sign` in `[0]`, `digits` in `[4D:1]` (30_encoding.md R80). -/
def packBcdOut (sign : BitVec 1) (digits : BitVec (4 * D)) : BitVec (4 * D + 1) := digits ++ sign

/-- The `digits` field of `BCD_OUT` (30_encoding.md R80). -/
def bcdDigitsField (p : BitVec (4 * D + 1)) : BitVec (4 * D) := p.extractLsb' 1 (4 * D)

/-- The comparator's input words flattened as R75 flattens fields, `a` low: DESIGN CHOICE (log 11), the spec gives the
comparator no payload format (30_encoding.md R81). -/
def packMag (a b : Word w) : BitVec (w + w) := b ++ a

/-- The `a` word of the comparator's flattened inputs (log 11). -/
def magAField (p : BitVec (w + w)) : Word w := p.extractLsb' 0 w

/-- The `b` word of the comparator's flattened inputs (log 11). -/
def magBField (p : BitVec (w + w)) : Word w := p.extractLsb' w w

/-- Total width of a component's input payload (30_encoding.md R76, R78, R80; the comparator's: log 11). -/
def payloadBits (c : Component) (W : Nat) : Nat :=
  match c with
  | .nrdiv => W + W + 1
  | .rdiv => W + W + 1
  | .ldiv => W + W + 1
  | .pmul => W + W + 2
  | .mcmul => W + W + 2
  | .bcd => W + 1
  | .mag => W + W

/-! ### The decoder -/

/-- Why a payload is no operation of the component. -/
inductive DecodeError where
  /-- It has a 1 above the format's last bit: every payload has the fixed width of its format (30_encoding.md R88). -/
  | payloadTooWide
  /-- Multiplier tag 3 (30_encoding.md R87). -/
  | reservedMulSign
  /-- Converter tag `SIGNED` (30_encoding.md R87, 45_bcd.md R240). -/
  | bcdSignedUnspecified
deriving DecidableEq, Repr

/-- The operation of a `DIV_IN` payload, given the rows of tag 0 and of tag 1. -/
def decodeDiv (ofU ofS : Nat → Nat → Instr) (p : BitVec (W + W + 1)) : Instr :=
  match DivSign.ofBit (divSignField p) with
  | .unsigned => ofU (divLowField p).toNat (divHighField p).toNat
  | .signed => ofS (divLowField p).toNat (divHighField p).toNat

/-- The operation of a `MUL_IN` payload, given the rows of the tags 0, 1 and 2. -/
def decodeMul (ofU ofS ofSU : Nat → Nat → Instr) (p : BitVec (W + W + 2)) : Except DecodeError Instr :=
  match MulSign.ofCode (mulSignField p) with
  | some .unsigned => .ok (ofU (mulAField p).toNat (mulBField p).toNat)
  | some .signed => .ok (ofS (mulAField p).toNat (mulBField p).toNat)
  | some .signedUnsigned => .ok (ofSU (mulAField p).toNat (mulBField p).toNat)
  | none => .error .reservedMulSign

/-- The operation of a `BCD_IN` payload. -/
def decodeBcd (p : BitVec (W + 1)) : Except DecodeError Instr :=
  match DivSign.ofBit (bcdSignField p) with
  | .unsigned => .ok (.bcdU (bcdNField p).toNat)
  | .signed => .error .bcdSignedUnspecified

/-- The operation a component of width `W` reads from a flattened payload, selected by the tag field alone
(30_encoding.md R84, R85, R87). Total on every number. -/
def decode (c : Component) (W : Nat) (payload : Nat) : Except DecodeError Instr :=
  if 2 ^ payloadBits c W ≤ payload then .error .payloadTooWide
  else
    match c with
    | .nrdiv => .ok (decodeDiv .nrdivU .nrdivS (BitVec.ofNat (W + W + 1) payload))
    | .rdiv => .ok (decodeDiv .rdivU .rdivS (BitVec.ofNat (W + W + 1) payload))
    | .ldiv => .ok (decodeDiv .ldivU .ldivS (BitVec.ofNat (W + W + 1) payload))
    | .pmul => decodeMul .pmulU .pmulS .pmulSU (BitVec.ofNat (W + W + 2) payload)
    | .mcmul => decodeMul .mcmulU .mcmulS .mcmulSU (BitVec.ofNat (W + W + 2) payload)
    | .bcd => decodeBcd (BitVec.ofNat (W + 1) payload)
    | .mag =>
      .ok (.magcmp (magAField (BitVec.ofNat (W + W) payload)).toNat (magBField (BitVec.ofNat (W + W) payload)).toNat)

/-! ### The encoder -/

/-- `trunc_W(x)` of a field value (30_encoding.md R89). -/
def fieldWord (W x : Nat) : Word W := BitVec.ofNat W x

/-- `trunc_W(x)` of a script's decimal operand, which may be negative (30_encoding.md R89). -/
def fieldOfInt (W : Nat) (x : Int) : Nat := (BitVec.ofInt W x).toNat

/-- The flattened payload of an operation offered to an instance of width `W` (30_encoding.md R75 to R83, R90). -/
def encode (W : Nat) : Instr → Nat
  | .nrdivU n d => (packDivIn DivSign.unsigned.bit (fieldWord W n) (fieldWord W d)).toNat
  | .nrdivS n d => (packDivIn DivSign.signed.bit (fieldWord W n) (fieldWord W d)).toNat
  | .rdivU n d => (packDivIn DivSign.unsigned.bit (fieldWord W n) (fieldWord W d)).toNat
  | .rdivS n d => (packDivIn DivSign.signed.bit (fieldWord W n) (fieldWord W d)).toNat
  | .ldivU n d => (packDivIn DivSign.unsigned.bit (fieldWord W n) (fieldWord W d)).toNat
  | .ldivS n d => (packDivIn DivSign.signed.bit (fieldWord W n) (fieldWord W d)).toNat
  | .pmulU a b => (packMulIn MulSign.unsigned.code (fieldWord W a) (fieldWord W b)).toNat
  | .pmulS a b => (packMulIn MulSign.signed.code (fieldWord W a) (fieldWord W b)).toNat
  | .pmulSU a b => (packMulIn MulSign.signedUnsigned.code (fieldWord W a) (fieldWord W b)).toNat
  | .mcmulU a b => (packMulIn MulSign.unsigned.code (fieldWord W a) (fieldWord W b)).toNat
  | .mcmulS a b => (packMulIn MulSign.signed.code (fieldWord W a) (fieldWord W b)).toNat
  | .mcmulSU a b => (packMulIn MulSign.signedUnsigned.code (fieldWord W a) (fieldWord W b)).toNat
  | .bcdU n => (packBcdIn DivSign.unsigned.bit (fieldWord W n)).toNat
  | .magcmp a b => (packMag (fieldWord W a) (fieldWord W b)).toNat

/-! ### The table's words -/

/-- The component a selector code names: MODEL's own numbering, in the table's order, 0 the principal member (log 10). -/
def Component.ofSelector (k : Nat) : Option Component := Component.all[k]?

/-- The operation of an `nbits`-bit word of `opcode_table.json`, at the width State.reset is built with. The table's word
is the flattened payload, and the operation also depends on the receiving component (30_encoding.md R84), which the word
does not name: what stands above the `nbits` bits selects it, and zeros there select the non-restoring divider (log 10). -/
def decodeTableWord (nbits w : Nat) : Option Instr :=
  match Component.ofSelector (w / 2 ^ nbits) with
  | none => none
  | some c => (decode c (Params.default.width c) (w % 2 ^ nbits)).toOption

end Sys2Proof
end

