-- ==== Sys2Proof/Machine/Widths.lean ====
section
/-! DEFINITION. Widths that registers and payloads are sized by (10_state.md R30, R32, R35; 45_bcd.md R235). -/

namespace Sys2Proof.Machine

/-- `ceil(log2(n))`, the width of the counters (10_state.md R30, R32, R35). -/
def clog2 (n : Nat) : Nat := if n ≤ 1 then 0 else Nat.log2 (n - 1) + 1

/-- The largest `k` such that `10^k <= m`, searched upward from `k` for at most `fuel` steps. -/
def largestPow10From : (fuel k m : Nat) → Nat
  | 0, k, _ => k
  | fuel + 1, k, m => if 10 ^ (k + 1) ≤ m then largestPow10From fuel (k + 1) m else k

/-- The number of decimal digits of `m`, for at most `fuel + 1` digits. -/
def decimalDigits : (fuel m : Nat) → Nat
  | 0, _ => 1
  | fuel + 1, m => if m < 10 then 1 else decimalDigits fuel (m / 10) + 1

/-- The digit count `D` of `BinaryToBCD(W, limit)` (45_bcd.md R235). The configured limit alone selects (R247). -/
def bcdDigits (W : Nat) (limit : Limit) : Nat :=
  match limit with
  | .largestPower10 => largestPow10From W 0 (2 ^ W - 1)
  | .entireRange => decimalDigits W (2 ^ W - 1)

end Sys2Proof.Machine
end

