-- ==== Sys2Proof/Machine/State.lean ====
section
/-! DEFINITION. The state of the block: the registers of every component (10_state.md R23 to R36), the construction
parameters of every instance (00_scope.md R9), the scripts its environment drives and the transfers observed. -/

namespace Sys2Proof.Machine

/-! ### The environment of an instance -/

/-- The signals the environment gives a streaming instance in one cycle (10_state.md R26, 30_encoding.md R89): `reset`
says that `reset()` is applied just before the cycle (70_reset_and_hazards.md R280, R286), the others are `inp.valid`,
`inp.payload` and `outp.ready` during it. -/
structure Line (bits : Nat) where
  reset : Bool
  valid : Bool
  payload : BitVec bits
  ready : Bool
deriving DecidableEq, Repr

/-- The environment's side of a streaming instance: the lines of the coming cycles, the next first (log 2), and the output
transfers so far, each with its cycle, the oldest first (70_reset_and_hazards.md R297; log 16). -/
structure Port (inBits outBits : Nat) where
  script : List (Line inBits)
  log : List (Nat × BitVec outBits)
deriving DecidableEq, Repr

/-- What a streaming instance shows in a cycle (10_state.md R26, R27): `payload` is none while `outp.valid = 0`. -/
structure Signals (outBits : Nat) where
  inpReady : Bool
  outpValid : Bool
  payload : Option (BitVec outBits)
deriving DecidableEq, Repr

/-- A fixed array of `n` stage registers, stage 0 first (10_state.md R33, R36). -/
structure Stages (α : Type) (n : Nat) where
  items : List α
  length_eq : items.length = n
deriving DecidableEq, Repr

/-! ### MulticycleDiv (10_state.md R29, R30) -/

/-- The register `fsm` (10_state.md R29). -/
inductive Fsm where
  | idle
  | divideIn
  | divideLoop
  | restore
  | divideOut
deriving DecidableEq, Repr

/-- The registers of `MulticycleDiv` (10_state.md R29, R30). -/
structure MDivRegs (W : Nat) where
  fsm : Fsm
  signL : DivSign
  nNeg : Bool
  dNeg : Bool
  nIn : Word W
  dIn : Word W
  X : Backing W
  dc : Word W
  cnt : BitVec (clog2 (W + 1))
  outValid : Bool
  outSign : DivSign
  outQ : Word W
  outR : Word W
deriving DecidableEq, Repr

/-- An instance `MulticycleDiv(W, impl)`. -/
structure MDiv (impl : Impl) where
  W : Nat
  regs : MDivRegs W
  port : Port (W + W + 1) (W + W + 1)
deriving DecidableEq, Repr

/-! ### LongDivider (10_state.md R32) -/

/-- The registers of `LongDivider` (10_state.md R32). -/
structure LDivRegs (W : Nat) where
  busy : Bool
  i : BitVec (clog2 W)
  rem : DWord W
  dv : BitVec (W + 1)
  same : Bool
  q : Word W
  signL : DivSign
  outValid : Bool
deriving DecidableEq, Repr

/-- An instance `LongDivider(W)`. -/
structure LDiv where
  W : Nat
  regs : LDivRegs W
  port : Port (W + W + 1) (W + W + 1)
deriving DecidableEq, Repr

/-! ### PipelinedMul (10_state.md R33) -/

/-- One stage of `PipelinedMul` (10_state.md R33). -/
structure MulStage (W : Nat) where
  valid : Bool
  sign : BitVec 2
  a : BitVec (W + 1)
  b : Word W
  acc : DWord W
deriving DecidableEq, Repr

/-- An instance `PipelinedMul(W)`. -/
structure PMul where
  W : Nat
  stages : Stages (MulStage W) W
  port : Port (W + W + 2) (W + W + 2)
deriving DecidableEq, Repr

/-! ### MulticycleMul (10_state.md R35) -/

/-- The registers of `MulticycleMul` (10_state.md R35). -/
structure MCMulRegs (W : Nat) where
  busy : Bool
  cnt : BitVec (clog2 (W + 1))
  X : Backing W
  a1 : BitVec (W + 1)
  signL : BitVec 2
  outValid : Bool
deriving DecidableEq, Repr

/-- An instance `MulticycleMul(W)`. -/
structure MCMul where
  W : Nat
  regs : MCMulRegs W
  port : Port (W + W + 2) (W + W + 2)
deriving DecidableEq, Repr

/-! ### BinaryToBCD (10_state.md R36) -/

/-- One stage `bstage[j]` of the pipelined converter (10_state.md R36). -/
structure BcdStage (W : Nat) where
  valid : Bool
  sign : DivSign
  n : Word W
deriving DecidableEq, Repr

/-- The registers of the sequential converter (10_state.md R36). The spec gives `cnt` no width (log 15). -/
structure BcdSeqRegs (W L : Nat) where
  busy : Bool
  cnt : BitVec (clog2 (L + 1))
  signL : DivSign
  nL : Word W
  outValid : Bool
deriving DecidableEq, Repr

/-- The registers of `BinaryToBCD`: `BCD_MODE` decides which it has (10_state.md R36). -/
inductive BcdRegs (W L : Nat) where
  | pipelined (bstage : Stages (BcdStage W) L)
  | sequential (r : BcdSeqRegs W L)
deriving DecidableEq, Repr

/-- An instance `BinaryToBCD(W, limit)` with its open parameters (45_bcd.md R230). -/
structure Bcd where
  W : Nat
  limit : Limit
  impl : BcdImpl
  stageCount : Nat
  latency : Nat
  regs : BcdRegs W latency
  port : Port (W + 1) (4 * bcdDigits W limit + 1)
deriving DecidableEq, Repr

/-! ### The magnitude comparator (10_state.md R28) -/

/-- The outputs of the comparator (42_long_divider.md R168). -/
structure CmpOut where
  lt : Bool
  eq : Bool
  gt : Bool
deriving DecidableEq, Repr

/-- The comparator's input words in one cycle (42_long_divider.md R168). -/
structure MagLine (w : Nat) where
  a : Word w
  b : Word w
deriving DecidableEq, Repr

/-- The comparator and its environment. It has no state (10_state.md R28): `script` holds the input words of the coming
cycles and `sampled` its outputs in the cycle just ended, both the MODEL's (log 11). -/
structure Mag where
  w : Nat
  script : List (MagLine w)
  sampled : Option CmpOut
deriving DecidableEq, Repr

/-! ### The block -/

/-- The block: one instance of each component on one clock (00_scope.md R1, R12; log 1). `cycle` is the number of the
coming cycle (00_scope.md R12; log 16). -/
structure State where
  cycle : Nat
  nrdiv : MDiv .nonRestoring
  rdiv : MDiv .restoring
  ldiv : LDiv
  pmul : PMul
  mcmul : MCMul
  bcd : Bcd
  mag : Mag
deriving DecidableEq, Repr

/-- Why the machine stops with a fault. The hardware has none (60_exceptions.md R255): both say that a `State` stands for
no block at all. -/
inductive Fault where
  /-- Raised by every step of a block one of whose instances cannot be constructed (60_exceptions.md R258); there is
  nothing to step. Safe. -/
  | configError (reason : ConfigError)
  /-- Raised by every step of a block with `w = 0` or `BCD_LATENCY = 0`, which 00_scope.md R9 does not admit and R258
  gives no reason for (log 13). Safe. -/
  | parameterNotAdmitted
deriving DecidableEq, Repr

/-- Why the model gives a cycle no meaning. -/
inductive Refusal where
  /-- The instruction has no meaning yet; raised by no arm of `exec` now. Safe. -/
  | notModelled (mnemonic : String)
  /-- Raised at the edge of an input transfer of a multiplier with tag 3 (60_exceptions.md R262). Safe. -/
  | reservedMulSign
  /-- Raised at the edge of an input transfer of the converter with tag `SIGNED` (60_exceptions.md R262). Safe. -/
  | bcdSignedUnspecified
deriving DecidableEq, Repr

/-! ### Reset (10_state.md R39; data registers 0: DESIGN CHOICE, log 3) -/

/-- `MulticycleDiv` after the first `reset()`. -/
def MDivRegs.reset (W : Nat) : MDivRegs W where
  fsm := .idle
  signL := .unsigned
  nNeg := false
  dNeg := false
  nIn := 0#W
  dIn := 0#W
  X := 0#(W + 1 + W)
  dc := 0#W
  cnt := 0#(clog2 (W + 1))
  outValid := false
  outSign := .unsigned
  outQ := 0#W
  outR := 0#W

/-- `LongDivider` after the first `reset()`. -/
def LDivRegs.reset (W : Nat) : LDivRegs W where
  busy := false
  i := 0#(clog2 W)
  rem := 0#(W + W)
  dv := 0#(W + 1)
  same := false
  q := 0#W
  signL := .unsigned
  outValid := false

/-- A stage of `PipelinedMul` after the first `reset()`. -/
def MulStage.reset (W : Nat) : MulStage W where
  valid := false
  sign := 0#2
  a := 0#(W + 1)
  b := 0#W
  acc := 0#(W + W)

/-- `MulticycleMul` after the first `reset()`. -/
def MCMulRegs.reset (W : Nat) : MCMulRegs W where
  busy := false
  cnt := 0#(clog2 (W + 1))
  X := 0#(W + 1 + W)
  a1 := 0#(W + 1)
  signL := 0#2
  outValid := false

/-- A stage of the pipelined converter after the first `reset()`. -/
def BcdStage.reset (W : Nat) : BcdStage W where
  valid := false
  sign := .unsigned
  n := 0#W

/-- The sequential converter after the first `reset()`. -/
def BcdSeqRegs.reset (W L : Nat) : BcdSeqRegs W L where
  busy := false
  cnt := 0#(clog2 (L + 1))
  signL := .unsigned
  nL := 0#W
  outValid := false

/-- An array of `n` equal stages. -/
def Stages.replicate (n : Nat) (x : α) : Stages α n := ⟨List.replicate n x, List.length_replicate⟩

/-- The converter after the first `reset()`, in the mode it is built in. -/
def BcdRegs.reset (mode : BcdMode) (W L : Nat) : BcdRegs W L :=
  match mode with
  | .pipelined => .pipelined (Stages.replicate L (BcdStage.reset W))
  | .sequential => .sequential (BcdSeqRegs.reset W L)

/-- An environment that lists no cycle, with nothing observed. -/
def Port.empty (inBits outBits : Nat) : Port inBits outBits := ⟨[], []⟩

/-- The block with the given parameters right after `reset()`: construct, apply `reset()`, then step
(70_reset_and_hazards.md R285). -/
def State.ofParams (p : Params) : State where
  cycle := 0
  nrdiv := ⟨p.nrdivW, MDivRegs.reset p.nrdivW, Port.empty _ _⟩
  rdiv := ⟨p.rdivW, MDivRegs.reset p.rdivW, Port.empty _ _⟩
  ldiv := ⟨p.ldivW, LDivRegs.reset p.ldivW, Port.empty _ _⟩
  pmul := ⟨p.pmulW, Stages.replicate p.pmulW (MulStage.reset p.pmulW), Port.empty _ _⟩
  mcmul := ⟨p.mcmulW, MCMulRegs.reset p.mcmulW, Port.empty _ _⟩
  bcd := ⟨p.bcd.W, p.bcd.limit, p.bcd.impl, p.bcd.stageCount, p.bcd.latency,
    BcdRegs.reset p.bcd.mode p.bcd.W p.bcd.latency, Port.empty _ _⟩
  mag := ⟨p.magW, [], none⟩

/-- The machine right after reset, with the parameters of `Params.default` (log 5, log 6). -/
def State.reset : State := State.ofParams Params.default

end Sys2Proof.Machine
end

