-- ==== Sys2Proof/Machine/Operands.lean ====
section
/-! DEFINITION. How operands are read per sign tag (30_encoding.md R86), how the units prepare them, and the exact result of
every transaction: DIVRESULT (41_multicycle_div.md R117), MULRESULT (43_pipelined_mul.md R189), BCDRESULT (45_bcd.md R236). -/

namespace Sys2Proof.Machine

/-! ### Dividers -/

/-- A divider operand read with its tag (30_encoding.md R86). -/
def divOperand (s : DivSign) (v : Word W) : Int :=
  match s with
  | .unsigned => (v.toNat : Int)
  | .signed => v.toInt

/-- `DIVRESULT_W(sign, n, d)`, the quotient and the remainder (41_multicycle_div.md R117). -/
def divResult (s : DivSign) (n d : Word W) : Word W × Word W :=
  if d = 0#W then (onesWord W, n)
  else if s = .signed ∧ n = minWord W ∧ d = onesWord W then (minWord W, 0#W)
  else
    (BitVec.ofInt W ((divOperand s n).tdiv (divOperand s d)),
      BitVec.ofInt W ((divOperand s n).tmod (divOperand s d)))

/-- A word negated when asked: the negation of the sign shell (41_multicycle_div.md R121, R130). -/
def negWhen (b : Bool) (v : Word W) : Word W := if b then -v else v

/-! ### Multipliers -/

/-- The multiplicand read with the tag (30_encoding.md R86). -/
def mulOperandA (s : MulSign) (a : Word W) : Int :=
  match s with
  | .unsigned => (a.toNat : Int)
  | .signed => a.toInt
  | .signedUnsigned => a.toInt

/-- The multiplier read with the tag (30_encoding.md R86). -/
def mulOperandB (s : MulSign) (b : Word W) : Int :=
  match s with
  | .unsigned => (b.toNat : Int)
  | .signed => b.toInt
  | .signedUnsigned => (b.toNat : Int)

/-- `MULRESULT_W(sign, a, b)` (43_pipelined_mul.md R189). -/
def mulResult (s : MulSign) (a b : Word W) : DWord W :=
  BitVec.ofInt (W + W) (mulOperandA s a * mulOperandB s b)

/-- `NORM` negates both operands: tag `SIGNED` and a negative multiplier (43_pipelined_mul.md R187). -/
def normNegates (sign : BitVec 2) (b : Word W) : Bool := decide (sign = MulSign.signed.code) && b.msb

/-- The multiplicand that `NORM` gives, widened by one bit (43_pipelined_mul.md R187). -/
def normA (sign : BitVec 2) (a b : Word W) : BitVec (W + 1) :=
  if normNegates sign b then -(a.signExtend (W + 1))
  else if sign = MulSign.signed.code ∨ sign = MulSign.signedUnsigned.code then a.signExtend (W + 1)
  else a.setWidth (W + 1)

/-- The multiplier that `NORM` gives (43_pipelined_mul.md R187). -/
def normB (sign : BitVec 2) (b : Word W) : Word W := if normNegates sign b then -b else b

/-! ### The converter -/

/-- The decimal digits of `n`, `D` of them, four bits each, the least significant lowest (45_bcd.md R238). -/
def packDigits : (D n : Nat) → Nat
  | 0, _ => 0
  | D + 1, n => n % 10 + 16 * packDigits D (n / 10)

/-- `BCDRESULT(n)` (45_bcd.md R236). -/
def bcdResult (D n : Nat) : BitVec (4 * D) := BitVec.ofNat (4 * D) (packDigits D n)

/-- The digits the converter presents: BCDRESULT in range, the free BCD_OVERRANGE beyond it (45_bcd.md R236, R243; log 7). -/
def bcdOutput (D : Nat) (n : Word W) : BitVec (4 * D) :=
  if n.toNat < 10 ^ D then bcdResult D n.toNat else Config.bcdOverrange W D n

/-- The add-3 of one digit column (45_bcd.md R237). -/
def addThree (dig : Nat) : Nat := if 5 ≤ dig then dig + 3 else dig

/-- The digit chain shifted left by one bit, `c` shifted in (45_bcd.md R237). -/
def shiftDigits : (c : Nat) → List Nat → List Nat
  | _, [] => []
  | c, dig :: rest => (2 * dig + c) % 16 :: shiftDigits ((2 * dig + c) / 16) rest

/-- The columns after the input bits `j-1` down to `0` (45_bcd.md R237). -/
def dabbleFrom (n : Word W) : (j : Nat) → List Nat → List Nat
  | 0, digs => digs
  | j + 1, digs => dabbleFrom n j (shiftDigits (n.getLsbD j).toNat (digs.map addThree))

/-- `DOUBLE_DABBLE(n)` in `D` digit columns, column 0 first (45_bcd.md R237). -/
def doubleDabble (D : Nat) (n : Word W) : List Nat := dabbleFrom n W (List.replicate D 0)

end Sys2Proof.Machine
end

