-- ==== Sys2Proof/Machine/Flags.lean ====
section
/-! DEFINITION. Flag-like values: the quadrant flags of the sign shell (41_multicycle_div.md R121), the sign case of the long
divider (42_long_divider.md R170) and the comparator's outputs (R168). No architectural flags exist (10_state.md R24). -/

namespace Sys2Proof.Machine

/-- A quadrant flag: the operand `v` is negative and is negated, which a zero divisor suppresses (41_multicycle_div.md R121). -/
def quadrant (s : DivSign) (v d : Word W) : Bool := decide (s = .signed) && v.msb && !decide (d = 0#W)

/-- The case flag `same` of the long divider (42_long_divider.md R162, R170). -/
def sameSign (s : DivSign) (n d : Word W) : Bool :=
  match s with
  | .unsigned => true
  | .signed => decide (d = 0#W) || decide (n.msb = d.msb)

/-- `MAGCMP_w(a, b)`: exact magnitudes compared (42_long_divider.md R168). -/
def magCompare (a b : Word w) : CmpOut where
  lt := decide (a.toInt.natAbs < b.toInt.natAbs)
  eq := decide (a.toInt.natAbs = b.toInt.natAbs)
  gt := decide (b.toInt.natAbs < a.toInt.natAbs)

end Sys2Proof.Machine
end

