-- ==== Sys2Proof/Machine/Ops.lean ====
section
/-! DEFINITION. The shared operations: reading and offering at a port (40_handshake.md R100), observing transfers
(70_reset_and_hazards.md R297), stage arrays, `reset()` applied in a run (R280), and construction (60_exceptions.md R258).
There is no exception to take and none to return from (60_exceptions.md R255, R264). -/

namespace Sys2Proof.Machine

/-! ### Ports -/

/-- The line of a cycle the script does not list: `- | ready`, with free payload wires (30_encoding.md R89; log 2). -/
def idleLine (c : Component) (cycle : Nat) : Line bits where
  reset := false
  valid := false
  payload := Config.idlePayload c cycle bits
  ready := true

/-- The signals the environment gives in the coming cycle. -/
def Port.line (p : Port inBits outBits) (c : Component) (cycle : Nat) : Line inBits := p.script.headD (idleLine c cycle)

/-- The coming cycle with `payload` offered in it; the rest of its line stays (30_encoding.md R90). -/
def Port.offer (p : Port inBits outBits) (c : Component) (cycle : Nat) (payload : BitVec inBits) : Port inBits outBits :=
  { p with script := { p.line c cycle with valid := true, payload := payload } :: p.script.tail }

/-- The port after an edge: the line is used up, and the output transfer, if one took place, is observed
(70_reset_and_hazards.md R297). -/
def Port.clocked (p : Port inBits outBits) (cycle : Nat) (sent : Option (BitVec outBits)) : Port inBits outBits where
  script := p.script.tail
  log := p.log ++ (sent.map fun payload => (cycle, payload)).toList

/-- The signals of a cycle: the payload is defined only with `outp.valid` (10_state.md R27). -/
def showSignals (inpReady outpValid : Bool) (payload : BitVec outBits) : Signals outBits where
  inpReady := inpReady
  outpValid := outpValid
  payload := if outpValid then some payload else none

/-- What an output transfer hands over: the payload presented, if `outp.ready` is given (40_handshake.md R100). -/
def Signals.sent (g : Signals outBits) (ready : Bool) : Option (BitVec outBits) := if ready then g.payload else none

/-- The input readiness of the single-transaction components (41_multicycle_div.md R119, 42_long_divider.md R161,
44_multicycle_mul.md R211, 45_bcd.md R245): idle, and no result waits or the one waiting is leaving. -/
def singleReady (idle outValid ready : Bool) : Bool := idle && (!outValid || ready)

/-- The input readiness of the pipelines (43_pipelined_mul.md R190, 45_bcd.md R245). -/
def pipeReady (topValid ready : Bool) : Bool := !topValid || ready

/-- An input transfer with a payload the spec gives no meaning: `refuse(reason)` (60_exceptions.md R262). -/
def refusesWhen (valid ready reserved : Bool) (reason : Refusal) : Option Refusal :=
  if valid && ready && reserved then some reason else none

/-! ### Stage arrays -/

/-- The last stage, from which a pipeline's output is driven (10_state.md R33, R36); `d` where there is no stage. -/
def Stages.top (s : Stages α n) (d : α) : α := s.items.getLastD d

/-- A list shifted by one place, `new` entering at place `i` and `f j` applied to what enters place `j` from the one before. -/
def shiftFrom (f : Nat → α → α) : (i : Nat) → (new : α) → List α → List α
  | _, _, [] => []
  | i, new, x :: rest => new :: shiftFrom f (i + 1) (f (i + 1) x) rest

theorem shiftFrom_length (f : Nat → α → α) (i : Nat) (new : α) (l : List α) : (shiftFrom f i new l).length = l.length := by
  induction l generalizing i new with
  | nil => rfl
  | cons x rest ih => simp [shiftFrom, ih]

/-- Every stage takes the previous-cycle value of the stage before it, `f i` applied on entering stage `i`
(20_memory.md R47, 43_pipelined_mul.md R191). -/
def Stages.shift (s : Stages α n) (f : Nat → α → α) (new : α) : Stages α n :=
  ⟨shiftFrom f 0 new s.items, (shiftFrom_length f 0 new s.items).trans s.length_eq⟩

/-- The array whose stage `i` is `f i`. -/
def Stages.generate (n : Nat) (f : Nat → α) : Stages α n :=
  ⟨(List.range n).map f, (List.length_map f).trans List.length_range⟩

/-! ### `reset()` applied before a cycle of a run (70_reset_and_hazards.md R280, R286): control registers take their reset
values, data registers are unspecified (10_state.md R25, R39), so each is a free value (log 4) -/

/-- A 1-bit data register after `reset()`. -/
def freeFlag (c : Component) (reg : String) (cycle : Nat) : Bool := (Config.afterReset c reg 0 cycle 1).getLsbD 0

/-- A 1-bit tag register after `reset()`. -/
def freeTag (c : Component) (reg : String) (index cycle : Nat) : DivSign :=
  DivSign.ofBit (Config.afterReset c reg index cycle 1)

/-- `MulticycleDiv` after `reset()` before `cycle` (10_state.md R39). -/
def MDivRegs.afterReset (W : Nat) (c : Component) (cycle : Nat) : MDivRegs W where
  fsm := .idle
  signL := freeTag c "sign_l" 0 cycle
  nNeg := freeFlag c "n_neg" cycle
  dNeg := freeFlag c "d_neg" cycle
  nIn := Config.afterReset c "n_in" 0 cycle W
  dIn := Config.afterReset c "d_in" 0 cycle W
  X := Config.afterReset c "X" 0 cycle (W + 1 + W)
  dc := Config.afterReset c "dc" 0 cycle W
  cnt := 0#(clog2 (W + 1))
  outValid := false
  outSign := freeTag c "out_sign" 0 cycle
  outQ := Config.afterReset c "out_q" 0 cycle W
  outR := Config.afterReset c "out_r" 0 cycle W

/-- `LongDivider` after `reset()` before `cycle` (10_state.md R32, R39). -/
def LDivRegs.afterReset (W : Nat) (cycle : Nat) : LDivRegs W where
  busy := false
  i := Config.afterReset .ldiv "i" 0 cycle (clog2 W)
  rem := Config.afterReset .ldiv "rem" 0 cycle (W + W)
  dv := Config.afterReset .ldiv "dv" 0 cycle (W + 1)
  same := freeFlag .ldiv "same" cycle
  q := Config.afterReset .ldiv "q" 0 cycle W
  signL := freeTag .ldiv "sign_l" 0 cycle
  outValid := false

/-- Stage `index` of `PipelinedMul` after `reset()` before `cycle` (10_state.md R33, R39). -/
def MulStage.afterReset (W : Nat) (cycle index : Nat) : MulStage W where
  valid := false
  sign := Config.afterReset .pmul "sign" index cycle 2
  a := Config.afterReset .pmul "a" index cycle (W + 1)
  b := Config.afterReset .pmul "b" index cycle W
  acc := Config.afterReset .pmul "acc" index cycle (W + W)

/-- `MulticycleMul` after `reset()` before `cycle` (10_state.md R35, R39). -/
def MCMulRegs.afterReset (W : Nat) (cycle : Nat) : MCMulRegs W where
  busy := false
  cnt := Config.afterReset .mcmul "cnt" 0 cycle (clog2 (W + 1))
  X := Config.afterReset .mcmul "X" 0 cycle (W + 1 + W)
  a1 := Config.afterReset .mcmul "a1" 0 cycle (W + 1)
  signL := Config.afterReset .mcmul "sign_l" 0 cycle 2
  outValid := false

/-- Stage `index` of the pipelined converter after `reset()` before `cycle` (10_state.md R36, R39). -/
def BcdStage.afterReset (W : Nat) (cycle index : Nat) : BcdStage W where
  valid := false
  sign := freeTag .bcd "sign" index cycle
  n := Config.afterReset .bcd "n" index cycle W

/-- The converter after `reset()` before `cycle`; its mode is a parameter and stays (70_reset_and_hazards.md R280). -/
def BcdRegs.afterReset (r : BcdRegs W L) (cycle : Nat) : BcdRegs W L :=
  match r with
  | .pipelined _ => .pipelined (Stages.generate L (BcdStage.afterReset W cycle))
  | .sequential _ =>
    .sequential
      { busy := false
        cnt := Config.afterReset .bcd "cnt" 0 cycle (clog2 (L + 1))
        signL := freeTag .bcd "sign_l" 0 cycle
        nL := Config.afterReset .bcd "n_l" 0 cycle W
        outValid := false }

/-! ### Construction (60_exceptions.md R258) -/

/-- A width check: an integer of at least `least` (60_exceptions.md R258; 92_eei_decisions.md D5: anything else is
`bad_width`). -/
def checkWidthFrom (least : Int) : WidthRequest → Except ConfigError Nat
  | .integer w => if least ≤ w then .ok w.toNat else .error .badWidth
  | .notInteger => .error .badWidth

/-- The width check of the dividers and multipliers (R115, R160, R185, R210): an integer `W >= 2`. -/
def checkWidth (W : WidthRequest) : Except ConfigError Nat := checkWidthFrom 2 W

/-- The parameters of `MulticycleDiv(W, impl)`; none stands for an `impl` that is neither of the two
(41_multicycle_div.md R115). The order of the two checks is the model's (log 12). -/
def buildMulticycleDiv (W : WidthRequest) (impl : Option Impl) : Except ConfigError (Nat × Impl) :=
  match checkWidth W with
  | .error e => .error e
  | .ok w =>
    match impl with
    | none => .error .badImpl
    | some i => .ok (w, i)

/-- The width of `LongDivider(W)` (42_long_divider.md R160). -/
def buildLongDivider (W : WidthRequest) : Except ConfigError Nat := checkWidth W

/-- The width of `PipelinedMul(W)` (43_pipelined_mul.md R185). -/
def buildPipelinedMul (W : WidthRequest) : Except ConfigError Nat := checkWidth W

/-- The width of `MulticycleMul(W)` (44_multicycle_mul.md R210). -/
def buildMulticycleMul (W : WidthRequest) : Except ConfigError Nat := checkWidth W

/-- Whether the implementation supports a base-1000 stage count: the set is open and contains 3 (45_bcd.md R233; log 8). -/
def stageCountSupported (k : Nat) : Bool := decide (k = 3) || Config.supportsStageCount k

/-- The stage-count check, for `BASE1000` only (45_bcd.md R233). -/
def badStageCount (impl : BcdImpl) (stages : Nat) : Bool :=
  match impl with
  | .doubleDabble => false
  | .base1000 => !stageCountSupported stages

/-- The limit a request configures, with its default (45_bcd.md R230). -/
def requestedLimit : LimitRequest → Except ConfigError Limit
  | .notGiven => .ok .largestPower10
  | .given l => .ok l
  | .otherValue => .error .badLimit

/-- The parameters of `BinaryToBCD(W, limit)` with its open parameters (45_bcd.md R230, R231, R233; order: log 12). -/
def buildBinaryToBcd (W : WidthRequest) (limit : LimitRequest) (impl : BcdImpl) (stages : Nat) (mode : BcdMode)
    (latency : Nat) : Except ConfigError BcdParams :=
  match checkWidthFrom 4 W with
  | .error e => .error e
  | .ok w =>
    match requestedLimit limit with
    | .error e => .error e
    | .ok l =>
      if badStageCount impl stages then .error .badStageCount
      else .ok { W := w, limit := l, impl := impl, stageCount := stages, mode := mode, latency := latency }

/-- The parameters of a block whose every instance can be constructed, or the first construction error in the table's order
of components (60_exceptions.md R258; order: log 12). -/
def buildParams (q : BlockRequest) : Except ConfigError Params := do
  let nrdiv ← buildMulticycleDiv q.nrdivW (some .nonRestoring)
  let rdiv ← buildMulticycleDiv q.rdivW (some .restoring)
  let ldiv ← buildLongDivider q.ldivW
  let pmul ← buildPipelinedMul q.pmulW
  let mcmul ← buildMulticycleMul q.mcmulW
  let bcd ← buildBinaryToBcd q.bcdW q.limit q.bcdImpl q.stageCount q.mode q.latency
  return { nrdivW := nrdiv.1, rdivW := rdiv.1, ldivW := ldiv, pmulW := pmul, mcmulW := mcmul, bcd := bcd, magW := q.magW }

/-- The `BCD_MODE` an instance was built with is the shape of its registers (10_state.md R36). -/
def BcdRegs.mode : BcdRegs W L → BcdMode
  | .pipelined _ => .pipelined
  | .sequential _ => .sequential

/-- The parameters of a block (00_scope.md R9). -/
def State.params (s : State) : Params where
  nrdivW := s.nrdiv.W
  rdivW := s.rdiv.W
  ldivW := s.ldiv.W
  pmulW := s.pmul.W
  mcmulW := s.mcmul.W
  bcd := { W := s.bcd.W, limit := s.bcd.limit, impl := s.bcd.impl, stageCount := s.bcd.stageCount,
           mode := s.bcd.regs.mode, latency := s.bcd.latency }
  magW := s.mag.w

/-- Why a block with these parameters cannot be: a construction error of one of its instances (60_exceptions.md R258), or a
value R9 does not admit and R258 has no reason for (log 13). None: the block can be constructed. -/
def blockFault (p : Params) : Option Fault :=
  if p.nrdivW < 2 ∨ p.rdivW < 2 ∨ p.ldivW < 2 ∨ p.pmulW < 2 ∨ p.mcmulW < 2 ∨ p.bcd.W ≤ 3 then some (.configError .badWidth)
  else if badStageCount p.bcd.impl p.bcd.stageCount then some (.configError .badStageCount)
  else if p.bcd.latency = 0 ∨ p.magW = 0 then some .parameterNotAdmitted
  else none

/-- Construct the block and apply `reset()` (70_reset_and_hazards.md R285). -/
def State.build (p : Params) : Except Fault State :=
  match blockFault p with
  | some f => .error f
  | none => .ok (State.ofParams p)

/-- Construct the block that is asked for and apply `reset()`; a construction that fails creates no state machine
(60_exceptions.md R258, 70_reset_and_hazards.md R285). -/
def State.construct (q : BlockRequest) : Except Fault State :=
  match buildParams q with
  | .error e => .error (.configError e)
  | .ok p => State.build p

end Sys2Proof.Machine
end

