-- ==== Sys2Proof/Machine/BcdCore.lean ====
section
/-! DEFINITION. `BinaryToBCD`: readiness and the edge rules of both modes (45_bcd.md R241, R242, R245). -/

namespace Sys2Proof.Machine

/-- `bstage[L-1]`, from which `outp` is driven (45_bcd.md R241). -/
def bcdTop (st : Stages (BcdStage W) L) : BcdStage W := st.top (BcdStage.reset W)

/-- The sequential converter accepting a transaction (45_bcd.md R242). -/
def BcdSeqRegs.accept (r : BcdSeqRegs W L) (sign : DivSign) (n : Word W) : BcdSeqRegs W L :=
  { r with
    signL := sign
    nL := n
    cnt := 1#(clog2 (L + 1))
    outValid := if L = 1 then true else r.outValid
    busy := if L = 1 then r.busy else true }

/-- The sequential converter counting (45_bcd.md R242). -/
def BcdSeqRegs.iterate (r : BcdSeqRegs W L) : BcdSeqRegs W L :=
  { r with
    cnt := r.cnt + 1
    busy := if r.cnt.toNat + 1 = L then false else r.busy
    outValid := if r.cnt.toNat + 1 = L then true else r.outValid }

/-- The output transfer of an edge (45_bcd.md R242). -/
def BcdSeqRegs.release (r : BcdSeqRegs W L) (ready : Bool) : BcdSeqRegs W L :=
  if r.outValid && ready then { r with outValid := false } else r

/-- `inp.ready` (45_bcd.md R245). -/
def BcdRegs.inpReady (r : BcdRegs W L) (ready : Bool) : Bool :=
  match r with
  | .pipelined st => pipeReady (bcdTop st).valid ready
  | .sequential r => singleReady (!r.busy) r.outValid ready

/-- `outp.valid` (45_bcd.md R241, R242). -/
def BcdRegs.outValid (r : BcdRegs W L) : Bool :=
  match r with
  | .pipelined st => (bcdTop st).valid
  | .sequential r => r.outValid

/-- The tag of the transaction presented (45_bcd.md R244). -/
def BcdRegs.outSign (r : BcdRegs W L) : DivSign :=
  match r with
  | .pipelined st => (bcdTop st).sign
  | .sequential r => r.signL

/-- The input of the transaction presented (45_bcd.md R241, R242). -/
def BcdRegs.outN (r : BcdRegs W L) : Word W :=
  match r with
  | .pipelined st => (bcdTop st).n
  | .sequential r => r.nL

/-- `outp.payload` with `D` digits (45_bcd.md R241, R242). -/
def BcdRegs.outPayload (r : BcdRegs W L) (D : Nat) : BitVec (4 * D + 1) :=
  packBcdOut r.outSign.bit (bcdOutput D r.outN)

/-- One clock edge of the sequential converter (45_bcd.md R242). -/
def BcdSeqRegs.edge (r : BcdSeqRegs W L) (l : Line (W + 1)) : BcdSeqRegs W L :=
  if r.busy then (r.release l.ready).iterate
  else if l.valid && singleReady (!r.busy) r.outValid l.ready then
    (r.release l.ready).accept (DivSign.ofBit (bcdSignField l.payload)) (bcdNField l.payload)
  else r.release l.ready

/-- What `bstage[0]` captures (45_bcd.md R241). -/
def BcdStage.capture (l : Line (W + 1)) : BcdStage W where
  valid := l.valid
  sign := DivSign.ofBit (bcdSignField l.payload)
  n := bcdNField l.payload

/-- One clock edge with the signals `l` (45_bcd.md R241, R242). -/
def BcdRegs.edge (r : BcdRegs W L) (l : Line (W + 1)) : BcdRegs W L :=
  match r with
  | .pipelined st =>
    .pipelined (if pipeReady (bcdTop st).valid l.ready then st.shift (fun _ p => p) (BcdStage.capture l) else st)
  | .sequential r => .sequential (r.edge l)

/-- The digit count of the instance (45_bcd.md R235). -/
def Bcd.digits (u : Bcd) : Nat := bcdDigits u.W u.limit

/-- The line of the coming cycle. -/
def Bcd.line (u : Bcd) (cycle : Nat) : Line (u.W + 1) := u.port.line .bcd cycle

/-- The registers during the coming cycle: `reset()` is applied first where the line asks for it. -/
def Bcd.now (u : Bcd) (cycle : Nat) : BcdRegs u.W u.latency :=
  if (u.line cycle).reset then u.regs.afterReset cycle else u.regs

/-- The signals of the coming cycle (45_bcd.md R241, R242, R245). -/
def Bcd.signals (u : Bcd) (cycle : Nat) : Signals (4 * u.digits + 1) :=
  showSignals ((u.now cycle).inpReady (u.line cycle).ready) (u.now cycle).outValid ((u.now cycle).outPayload u.digits)

/-- The instance with an operation's payload offered in the coming cycle. -/
def Bcd.offer (u : Bcd) (cycle : Nat) (payload : BitVec (u.W + 1)) : Bcd :=
  { u with port := u.port.offer .bcd cycle payload }

/-- The refusal of the coming edge: an input transfer with tag `SIGNED` (45_bcd.md R240, 60_exceptions.md R262). -/
def Bcd.refusal (u : Bcd) (cycle : Nat) : Option Refusal :=
  refusesWhen (u.line cycle).valid (u.signals cycle).inpReady
    (decide (DivSign.ofBit (bcdSignField (u.line cycle).payload) = .signed)) .bcdSignedUnspecified

/-- The instance after the edge of the coming cycle. -/
def Bcd.edge (u : Bcd) (cycle : Nat) : Bcd :=
  { u with
    regs := (u.now cycle).edge (u.line cycle)
    port := u.port.clocked cycle ((u.signals cycle).sent (u.line cycle).ready) }

end Sys2Proof.Machine
end

