-- ==== Sys2Proof/Machine/DividerCore.lean ====
section
/-! DEFINITION. `MulticycleDiv`: the sign shell, the two loop bodies, the restore step and the edge rules
(41_multicycle_div.md R119 to R131). -/

namespace Sys2Proof.Machine

/-- The component that `MulticycleDiv` with this `impl` is (00_scope.md R4). -/
def dividerOf : Impl → Component
  | .restoring => .rdiv
  | .nonRestoring => .nrdiv

/-! ### The backing register: `X[2W:W]` and `X[W-1:0]` (10_state.md R30) -/

/-- `X[2W:W]`, the running remainder. -/
def Backing.high (x : Backing W) : BitVec (W + 1) := x.extractLsb' W (W + 1)

/-- `X[W-1:0]`, dividend bits then quotient bits. -/
def Backing.low (x : Backing W) : Word W := x.extractLsb' 0 W

/-- `{S[W-1:1], b}`: the low half of the shifted register with the new quotient bit in its free place (R124, R125). -/
def withQuotientBit (low : Word W) (b : Bool) : Word W := low ||| (BitVec.ofBool b).setWidth W

/-- `RSTEP(X, dc)`, the restoring loop body (41_multicycle_div.md R124). -/
def rstep (x : Backing W) (dc : Word W) : Backing W :=
  let s := x <<< 1
  let t := Backing.high s - dc.setWidth (W + 1)
  if t.msb then s else t ++ withQuotientBit (Backing.low s) true

/-- `NRSTEP(X, dc)`, the non-restoring loop body (41_multicycle_div.md R125). -/
def nrstep (x : Backing W) (dc : Word W) : Backing W :=
  let s := x <<< 1
  let h := if x.msb then Backing.high s + dc.setWidth (W + 1) else Backing.high s - dc.setWidth (W + 1)
  h ++ withQuotientBit (Backing.low s) (!x.msb)

/-- `NRFIX(X, dc)`, the restore step (41_multicycle_div.md R127). -/
def nrfix (x : Backing W) (dc : Word W) : Backing W :=
  let q0 := Backing.low x - ~~~(Backing.low x)
  if (Backing.high x).msb then (Backing.high x + dc.setWidth (W + 1)) ++ (q0 - 1#W) else Backing.high x ++ q0

/-- The loop body `impl` selects (41_multicycle_div.md R126). -/
def loopBody (impl : Impl) (x : Backing W) (dc : Word W) : Backing W :=
  match impl with
  | .restoring => rstep x dc
  | .nonRestoring => nrstep x dc

/-! ### The edge of each FSM state -/

/-- The accepting edge of the sign shell (41_multicycle_div.md R121). -/
def MDivRegs.accept (r : MDivRegs W) (sign : DivSign) (n d : Word W) : MDivRegs W :=
  { r with
    nNeg := quadrant sign n d
    dNeg := quadrant sign d d
    nIn := negWhen (quadrant sign n d) n
    dIn := negWhen (quadrant sign d d) d
    signL := sign
    fsm := .divideIn }

/-- The `DIVIDE_IN` edge (41_multicycle_div.md R123). -/
def MDivRegs.load (r : MDivRegs W) : MDivRegs W :=
  { r with X := r.nIn.setWidth (W + 1 + W), dc := r.dIn, cnt := 0#(clog2 (W + 1)), fsm := .divideLoop }

/-- Where the loop goes after its last iteration (41_multicycle_div.md R126). -/
def afterLoop (impl : Impl) : Fsm :=
  match impl with
  | .restoring => .divideOut
  | .nonRestoring => .restore

/-- The `DIVIDE_LOOP` edge (41_multicycle_div.md R126). -/
def MDivRegs.iterate (impl : Impl) (r : MDivRegs W) : MDivRegs W :=
  { r with
    X := loopBody impl r.X r.dc
    cnt := r.cnt + 1
    fsm := if r.cnt.toNat = W - 1 then afterLoop impl else r.fsm }

/-- The `RESTORE` edge (41_multicycle_div.md R127). -/
def MDivRegs.restoreEdge (r : MDivRegs W) : MDivRegs W := { r with X := nrfix r.X r.dc, fsm := .divideOut }

/-- The `DIVIDE_OUT` edge (41_multicycle_div.md R130). -/
def MDivRegs.present (r : MDivRegs W) : MDivRegs W :=
  { r with
    outQ := negWhen (r.nNeg ^^ r.dNeg) (Backing.low r.X)
    outR := negWhen r.nNeg (r.X.extractLsb' W W)
    outSign := r.signL
    outValid := true
    fsm := .idle }

/-- The output transfer of an edge: `out_valid` falls (41_multicycle_div.md R131). -/
def MDivRegs.release (r : MDivRegs W) (ready : Bool) : MDivRegs W :=
  if r.outValid && ready then { r with outValid := false } else r

/-- `inp.ready` (41_multicycle_div.md R119). -/
def MDivRegs.inpReady (r : MDivRegs W) (ready : Bool) : Bool := singleReady (decide (r.fsm = .idle)) r.outValid ready

/-- One clock edge with the signals `l`: R131, and the rule that `fsm` selects (41_multicycle_div.md R121 to R131). -/
def MDivRegs.edge (impl : Impl) (r : MDivRegs W) (l : Line (W + W + 1)) : MDivRegs W :=
  match r.fsm with
  | .idle =>
    if l.valid && r.inpReady l.ready then
      (r.release l.ready).accept (DivSign.ofBit (divSignField l.payload)) (divLowField l.payload) (divHighField l.payload)
    else r.release l.ready
  | .divideIn => (r.release l.ready).load
  | .divideLoop => (r.release l.ready).iterate impl
  | .restore => (r.release l.ready).restoreEdge
  | .divideOut => (r.release l.ready).present

/-- `outp.payload` (41_multicycle_div.md R120). -/
def MDivRegs.outPayload (r : MDivRegs W) : BitVec (W + W + 1) := packDivOut r.outSign.bit r.outQ r.outR

/-! ### The instance -/

/-- The line of the coming cycle. -/
def MDiv.line (u : MDiv impl) (cycle : Nat) : Line (u.W + u.W + 1) := u.port.line (dividerOf impl) cycle

/-- The registers during the coming cycle: `reset()` is applied first where the line asks for it. -/
def MDiv.now (u : MDiv impl) (cycle : Nat) : MDivRegs u.W :=
  if (u.line cycle).reset then MDivRegs.afterReset u.W (dividerOf impl) cycle else u.regs

/-- The signals of the coming cycle (41_multicycle_div.md R119, R120). -/
def MDiv.signals (u : MDiv impl) (cycle : Nat) : Signals (u.W + u.W + 1) :=
  showSignals ((u.now cycle).inpReady (u.line cycle).ready) (u.now cycle).outValid (u.now cycle).outPayload

/-- The instance with an operation's payload offered in the coming cycle. -/
def MDiv.offer (u : MDiv impl) (cycle : Nat) (payload : BitVec (u.W + u.W + 1)) : MDiv impl :=
  { u with port := u.port.offer (dividerOf impl) cycle payload }

/-- The instance after the edge of the coming cycle. -/
def MDiv.edge (u : MDiv impl) (cycle : Nat) : MDiv impl :=
  { u with
    regs := (u.now cycle).edge impl (u.line cycle)
    port := u.port.clocked cycle ((u.signals cycle).sent (u.line cycle).ready) }

end Sys2Proof.Machine
end

