-- ==== Sys2Proof/Machine/LongCore.lean ====
section
/-! DEFINITION. `LongDivider`: the quotient-bit step and the edge rules (42_long_divider.md R161 to R170), and the comparator's
cycle (R168). -/

namespace Sys2Proof.Machine

/-- The divisor extended per tag to `W+1` bits (42_long_divider.md R162). -/
def longDivisor (s : DivSign) (d : Word W) : BitVec (W + 1) :=
  match s with
  | .unsigned => d.setWidth (W + 1)
  | .signed => d.signExtend (W + 1)

/-- The dividend extended per tag to `2W` bits (42_long_divider.md R162). -/
def longDividend (s : DivSign) (n : Word W) : DWord W :=
  match s with
  | .unsigned => n.setWidth (W + W)
  | .signed => n.signExtend (W + W)

/-- The shifted divisor `cand` (42_long_divider.md R163). -/
def longCandidate (i : Nat) (dv : BitVec (W + 1)) : DWord W := dv.signExtend (W + W) <<< i

/-- The quotient bit of weight `2^i` is set: `|cand| <= |rem|` (42_long_divider.md R163). -/
def longTakes (i : Nat) (rem : DWord W) (dv : BitVec (W + 1)) : Bool := !(magCompare rem (longCandidate i dv)).lt

/-- `LSTEP`, the remainder (42_long_divider.md R163). -/
def lstepRem (i : Nat) (rem : DWord W) (dv : BitVec (W + 1)) (same : Bool) : DWord W :=
  if longTakes i rem dv then (if same then rem - longCandidate i dv else rem + longCandidate i dv) else rem

/-- `LSTEP`, the quotient (42_long_divider.md R163). -/
def lstepQuo (i : Nat) (rem : DWord W) (dv : BitVec (W + 1)) (same : Bool) (q : Word W) : Word W :=
  if longTakes i rem dv then (if same then q + BitVec.twoPow W i else q - BitVec.twoPow W i) else q

/-- The accepting edge: the first step is taken on the payload (42_long_divider.md R162). -/
def LDivRegs.accept (r : LDivRegs W) (sign : DivSign) (n d : Word W) : LDivRegs W :=
  { r with
    rem := lstepRem (W - 1) (longDividend sign n) (longDivisor sign d) (sameSign sign n d)
    q := lstepQuo (W - 1) (longDividend sign n) (longDivisor sign d) (sameSign sign n d) 0#W
    dv := longDivisor sign d
    same := sameSign sign n d
    signL := sign
    i := BitVec.ofNat (clog2 W) (W - 2)
    busy := true }

/-- The busy edge (42_long_divider.md R164). -/
def LDivRegs.iterate (r : LDivRegs W) : LDivRegs W :=
  { r with
    rem := lstepRem r.i.toNat r.rem r.dv r.same
    q := lstepQuo r.i.toNat r.rem r.dv r.same r.q
    busy := if r.i.toNat = 0 then false else r.busy
    outValid := if r.i.toNat = 0 then true else r.outValid
    i := if r.i.toNat = 0 then r.i else r.i - 1 }

/-- The output transfer of an edge (42_long_divider.md R167). -/
def LDivRegs.release (r : LDivRegs W) (ready : Bool) : LDivRegs W :=
  if r.outValid && ready then { r with outValid := false } else r

/-- `inp.ready` (42_long_divider.md R161). -/
def LDivRegs.inpReady (r : LDivRegs W) (ready : Bool) : Bool := singleReady (!r.busy) r.outValid ready

/-- One clock edge with the signals `l` (42_long_divider.md R162, R164, R167). -/
def LDivRegs.edge (r : LDivRegs W) (l : Line (W + W + 1)) : LDivRegs W :=
  if r.busy then (r.release l.ready).iterate
  else if l.valid && r.inpReady l.ready then
    (r.release l.ready).accept (DivSign.ofBit (divSignField l.payload)) (divLowField l.payload) (divHighField l.payload)
  else r.release l.ready

/-- `outp.payload`, read from the working registers (42_long_divider.md R166). -/
def LDivRegs.outPayload (r : LDivRegs W) : BitVec (W + W + 1) := packDivOut r.signL.bit r.q (r.rem.setWidth W)

/-- The line of the coming cycle. -/
def LDiv.line (u : LDiv) (cycle : Nat) : Line (u.W + u.W + 1) := u.port.line .ldiv cycle

/-- The registers during the coming cycle: `reset()` is applied first where the line asks for it. -/
def LDiv.now (u : LDiv) (cycle : Nat) : LDivRegs u.W :=
  if (u.line cycle).reset then LDivRegs.afterReset u.W cycle else u.regs

/-- The signals of the coming cycle (42_long_divider.md R161, R166). -/
def LDiv.signals (u : LDiv) (cycle : Nat) : Signals (u.W + u.W + 1) :=
  showSignals ((u.now cycle).inpReady (u.line cycle).ready) (u.now cycle).outValid (u.now cycle).outPayload

/-- The instance with an operation's payload offered in the coming cycle. -/
def LDiv.offer (u : LDiv) (cycle : Nat) (payload : BitVec (u.W + u.W + 1)) : LDiv :=
  { u with port := u.port.offer .ldiv cycle payload }

/-- The instance after the edge of the coming cycle. -/
def LDiv.edge (u : LDiv) (cycle : Nat) : LDiv :=
  { u with
    regs := (u.now cycle).edge (u.line cycle)
    port := u.port.clocked cycle ((u.signals cycle).sent (u.line cycle).ready) }

/-! ### The comparator -/

/-- The comparator's outputs in the coming cycle; none where its inputs are not driven (42_long_divider.md R168; log 11). -/
def Mag.signals (u : Mag) : Option CmpOut := u.script.head?.map fun l => magCompare l.a l.b

/-- The comparator with input words driven in the coming cycle. -/
def Mag.offer (u : Mag) (a b : Word u.w) : Mag := { u with script := ⟨a, b⟩ :: u.script.tail }

/-- The comparator after the edge: its outputs during the cycle are sampled (log 11). -/
def Mag.edge (u : Mag) : Mag := { u with script := u.script.tail, sampled := u.signals }

end Sys2Proof.Machine
end

