-- ==== Sys2Proof/Machine/PipelineCore.lean ====
section
/-! DEFINITION. `PipelinedMul`: the stages and the edge rules (43_pipelined_mul.md R186 to R193). -/

namespace Sys2Proof.Machine

/-- The partial product of multiplier bit `i` (43_pipelined_mul.md R191). -/
def partialProduct (i : Nat) (a : BitVec (W + 1)) (b : Word W) : DWord W :=
  if b.getLsbD i then a.signExtend (W + W) <<< i else 0#(W + W)

/-- What stage 0 captures: the normalised payload and the partial product of bit 0 (43_pipelined_mul.md R188, R191). -/
def MulStage.capture (valid : Bool) (sign : BitVec 2) (a b : Word W) : MulStage W where
  valid := valid
  sign := sign
  a := normA sign a b
  b := normB sign b
  acc := partialProduct 0 (normA sign a b) (normB sign b)

/-- What stage `i` takes from the stage before it (43_pipelined_mul.md R191). -/
def MulStage.advance (i : Nat) (p : MulStage W) : MulStage W := { p with acc := p.acc + partialProduct i p.a p.b }

/-- `stage[W-1]`, from which `outp` is driven (43_pipelined_mul.md R186, R193). -/
def mulTop (st : Stages (MulStage W) W) : MulStage W := st.top (MulStage.reset W)

/-- `inp.ready`, which is also `adv` (43_pipelined_mul.md R190). -/
def mulReady (st : Stages (MulStage W) W) (ready : Bool) : Bool := pipeReady (mulTop st).valid ready

/-- One clock edge with the signals `l`: the advancing edge or the frozen edge (43_pipelined_mul.md R191, R192). -/
def mulEdge (st : Stages (MulStage W) W) (l : Line (W + W + 2)) : Stages (MulStage W) W :=
  if mulReady st l.ready then
    st.shift MulStage.advance
      (MulStage.capture l.valid (mulSignField l.payload) (mulAField l.payload) (mulBField l.payload))
  else st

/-- The line of the coming cycle. -/
def PMul.line (u : PMul) (cycle : Nat) : Line (u.W + u.W + 2) := u.port.line .pmul cycle

/-- The stages during the coming cycle: `reset()` is applied first where the line asks for it. -/
def PMul.now (u : PMul) (cycle : Nat) : Stages (MulStage u.W) u.W :=
  if (u.line cycle).reset then Stages.generate u.W (MulStage.afterReset u.W cycle) else u.stages

/-- The signals of the coming cycle (43_pipelined_mul.md R190, R193). -/
def PMul.signals (u : PMul) (cycle : Nat) : Signals (u.W + u.W + 2) :=
  showSignals (mulReady (u.now cycle) (u.line cycle).ready) (mulTop (u.now cycle)).valid
    (packMulOut (mulTop (u.now cycle)).sign (mulTop (u.now cycle)).acc)

/-- The instance with an operation's payload offered in the coming cycle. -/
def PMul.offer (u : PMul) (cycle : Nat) (payload : BitVec (u.W + u.W + 2)) : PMul :=
  { u with port := u.port.offer .pmul cycle payload }

/-- The refusal of the coming edge: an input transfer with tag 3 (43_pipelined_mul.md R191, 60_exceptions.md R262). -/
def PMul.refusal (u : PMul) (cycle : Nat) : Option Refusal :=
  refusesWhen (u.line cycle).valid (u.signals cycle).inpReady
    (MulSign.ofCode (mulSignField (u.line cycle).payload)).isNone .reservedMulSign

/-- The instance after the edge of the coming cycle. -/
def PMul.edge (u : PMul) (cycle : Nat) : PMul :=
  { u with
    stages := mulEdge (u.now cycle) (u.line cycle)
    port := u.port.clocked cycle ((u.signals cycle).sent (u.line cycle).ready) }

end Sys2Proof.Machine
end

