-- ==== Sys2Proof/Machine/ShiftAddCore.lean ====
section
/-! DEFINITION. `MulticycleMul`: the shift-add step and the edge rules (44_multicycle_mul.md R211 to R217). -/

namespace Sys2Proof.Machine

/-- The register after the conditional add: `X + a1 * 2^W` (44_multicycle_mul.md R213). -/
def mstepAdd (x : Backing W) (a1 : BitVec (W + 1)) : Backing W := if x.getLsbD 0 then x + (a1 ++ 0#W) else x

/-- `MSTEP(X, a1, sign)`: add, then shift right by one, arithmetically unless the tag is `UNSIGNED`
(44_multicycle_mul.md R213). -/
def mstep (x : Backing W) (a1 : BitVec (W + 1)) (sign : BitVec 2) : Backing W :=
  if sign = MulSign.unsigned.code then mstepAdd x a1 >>> 1 else (mstepAdd x a1).sshiftRight 1

/-- The accepting edge: normalise and take the first step (44_multicycle_mul.md R212). -/
def MCMulRegs.accept (r : MCMulRegs W) (sign : BitVec 2) (a b : Word W) : MCMulRegs W :=
  { r with
    a1 := normA sign a b
    signL := sign
    X := mstep ((normB sign b).setWidth (W + 1 + W)) (normA sign a b) sign
    cnt := 1#(clog2 (W + 1))
    busy := true }

/-- The busy edge (44_multicycle_mul.md R215, R216). -/
def MCMulRegs.iterate (r : MCMulRegs W) : MCMulRegs W :=
  { r with
    X := mstep r.X r.a1 r.signL
    cnt := r.cnt + 1
    busy := if r.cnt.toNat + 1 = W then false else r.busy
    outValid := if r.cnt.toNat + 1 = W then true else r.outValid }

/-- The output transfer of an edge (44_multicycle_mul.md R217). -/
def MCMulRegs.release (r : MCMulRegs W) (ready : Bool) : MCMulRegs W :=
  if r.outValid && ready then { r with outValid := false } else r

/-- `inp.ready` (44_multicycle_mul.md R211). -/
def MCMulRegs.inpReady (r : MCMulRegs W) (ready : Bool) : Bool := singleReady (!r.busy) r.outValid ready

/-- One clock edge with the signals `l` (44_multicycle_mul.md R212, R215, R217). -/
def MCMulRegs.edge (r : MCMulRegs W) (l : Line (W + W + 2)) : MCMulRegs W :=
  if r.busy then (r.release l.ready).iterate
  else if l.valid && r.inpReady l.ready then
    (r.release l.ready).accept (mulSignField l.payload) (mulAField l.payload) (mulBField l.payload)
  else r.release l.ready

/-- `outp.payload`: the product is `X[2W-1:0]` (44_multicycle_mul.md R214). -/
def MCMulRegs.outPayload (r : MCMulRegs W) : BitVec (W + W + 2) := packMulOut r.signL (r.X.setWidth (W + W))

/-- The line of the coming cycle. -/
def MCMul.line (u : MCMul) (cycle : Nat) : Line (u.W + u.W + 2) := u.port.line .mcmul cycle

/-- The registers during the coming cycle: `reset()` is applied first where the line asks for it. -/
def MCMul.now (u : MCMul) (cycle : Nat) : MCMulRegs u.W :=
  if (u.line cycle).reset then MCMulRegs.afterReset u.W cycle else u.regs

/-- The signals of the coming cycle (44_multicycle_mul.md R211, R214). -/
def MCMul.signals (u : MCMul) (cycle : Nat) : Signals (u.W + u.W + 2) :=
  showSignals ((u.now cycle).inpReady (u.line cycle).ready) (u.now cycle).outValid (u.now cycle).outPayload

/-- The instance with an operation's payload offered in the coming cycle. -/
def MCMul.offer (u : MCMul) (cycle : Nat) (payload : BitVec (u.W + u.W + 2)) : MCMul :=
  { u with port := u.port.offer .mcmul cycle payload }

/-- The refusal of the coming edge: an input transfer with tag 3 (44_multicycle_mul.md R212, 60_exceptions.md R262). -/
def MCMul.refusal (u : MCMul) (cycle : Nat) : Option Refusal :=
  refusesWhen (u.line cycle).valid (u.signals cycle).inpReady
    (MulSign.ofCode (mulSignField (u.line cycle).payload)).isNone .reservedMulSign

/-- The instance after the edge of the coming cycle. -/
def MCMul.edge (u : MCMul) (cycle : Nat) : MCMul :=
  { u with
    regs := (u.now cycle).edge (u.line cycle)
    port := u.port.clocked cycle ((u.signals cycle).sent (u.line cycle).ready) }

end Sys2Proof.Machine
end

