-- ==== Sys2Proof/Machine/Clock.lean ====
section
/-! DEFINITION. The clock edge of the whole block (00_scope.md R12, 60_exceptions.md R261), offering an operation at its
component's port, and reading which operation a port is offered. -/

namespace Sys2Proof.Machine

/-- The block after the edge of the coming cycle: every instance advances, each from its own registers and lines only
(00_scope.md R12, 10_state.md R38, 60_exceptions.md R269). -/
def State.edge (s : State) : State where
  cycle := s.cycle + 1
  nrdiv := s.nrdiv.edge s.cycle
  rdiv := s.rdiv.edge s.cycle
  ldiv := s.ldiv.edge s.cycle
  pmul := s.pmul.edge s.cycle
  mcmul := s.mcmul.edge s.cycle
  bcd := s.bcd.edge s.cycle
  mag := s.mag.edge

/-- The refusal that the coming edge reaches (60_exceptions.md R261, R262). Where two instances refuse at one edge, which is
named is the model's choice (log 14). -/
def State.refusal (s : State) : Option Refusal :=
  ((s.pmul.refusal s.cycle).or (s.mcmul.refusal s.cycle)).or (s.bcd.refusal s.cycle)

/-- The block cannot exist with these parameters (60_exceptions.md R258; log 12, log 13). -/
def State.fault (s : State) : Option Fault := blockFault s.params

/-- One clock edge of the block (00_scope.md R12, R13; a refusal applies to the whole edge, 60_exceptions.md R261). -/
def clock (s : State) : Host.Outcome State Fault Refusal :=
  match s.fault with
  | some f => .fault f
  | none =>
    match s.refusal with
    | some r => .refused r
    | none => .next s.edge

/-! ### Offering an operation in the coming cycle (log 9) -/

/-- A `DIV_IN` payload offered to the non-restoring divider. -/
def State.offerNrdiv (s : State) (sign : DivSign) (n d : Nat) : State :=
  { s with nrdiv := s.nrdiv.offer s.cycle (packDivIn sign.bit (fieldWord s.nrdiv.W n) (fieldWord s.nrdiv.W d)) }

/-- A `DIV_IN` payload offered to the restoring divider. -/
def State.offerRdiv (s : State) (sign : DivSign) (n d : Nat) : State :=
  { s with rdiv := s.rdiv.offer s.cycle (packDivIn sign.bit (fieldWord s.rdiv.W n) (fieldWord s.rdiv.W d)) }

/-- A `DIV_IN` payload offered to the long divider. -/
def State.offerLdiv (s : State) (sign : DivSign) (n d : Nat) : State :=
  { s with ldiv := s.ldiv.offer s.cycle (packDivIn sign.bit (fieldWord s.ldiv.W n) (fieldWord s.ldiv.W d)) }

/-- A `MUL_IN` payload offered to the pipelined multiplier. -/
def State.offerPmul (s : State) (sign : MulSign) (a b : Nat) : State :=
  { s with pmul := s.pmul.offer s.cycle (packMulIn sign.code (fieldWord s.pmul.W a) (fieldWord s.pmul.W b)) }

/-- A `MUL_IN` payload offered to the multi-cycle multiplier. -/
def State.offerMcmul (s : State) (sign : MulSign) (a b : Nat) : State :=
  { s with mcmul := s.mcmul.offer s.cycle (packMulIn sign.code (fieldWord s.mcmul.W a) (fieldWord s.mcmul.W b)) }

/-- A `BCD_IN` payload with tag `UNSIGNED` offered to the converter. -/
def State.offerBcd (s : State) (n : Nat) : State :=
  { s with bcd := s.bcd.offer s.cycle (packBcdIn DivSign.unsigned.bit (fieldWord s.bcd.W n)) }

/-- Input words driven at the comparator. -/
def State.offerMag (s : State) (a b : Nat) : State :=
  { s with mag := s.mag.offer (fieldWord s.mag.w a) (fieldWord s.mag.w b) }

/-- The width of the instance of a component. -/
def State.width (s : State) (c : Component) : Nat := s.params.width c

/-! ### Which operation a port is offered -/

/-- The operation of a line: what its payload decodes to, if it is offered (30_encoding.md R85, R87). -/
def Line.operation (l : Line bits) (c : Component) (W : Nat) : Option Instr :=
  if l.valid then (decode c W l.payload.toNat).toOption else none

/-- The operation offered to a component in the coming cycle. -/
def State.fetchAt (s : State) (c : Component) : Option Instr :=
  match c with
  | .nrdiv => (s.nrdiv.line s.cycle).operation .nrdiv s.nrdiv.W
  | .rdiv => (s.rdiv.line s.cycle).operation .rdiv s.rdiv.W
  | .ldiv => (s.ldiv.line s.cycle).operation .ldiv s.ldiv.W
  | .pmul => (s.pmul.line s.cycle).operation .pmul s.pmul.W
  | .mcmul => (s.mcmul.line s.cycle).operation .mcmul s.mcmul.W
  | .bcd => (s.bcd.line s.cycle).operation .bcd s.bcd.W
  | .mag => s.mag.script.head?.map fun l => .magcmp l.a.toNat l.b.toNat

/-- The first operation offered in the coming cycle, in the table's order of components. Which port is asked first does not
matter: the edge is the same for each (log 9). -/
def State.fetch (s : State) : Option Instr := Component.all.findSome? s.fetchAt

/-! ### Driving a word (log 10) -/

/-- A line that offers a payload to a consumer that is ready. -/
def offeringLine (payload : Nat) : Line bits where
  reset := false
  valid := true
  payload := BitVec.ofNat bits payload
  ready := true

/-- The port with its coming line replaced by one that offers `payload`. -/
def Port.drive (p : Port inBits outBits) (payload : Nat) : Port inBits outBits :=
  { p with script := offeringLine payload :: p.script.tail }

/-- The comparator with a flattened pair of input words driven in the coming cycle. -/
def Mag.drive (u : Mag) (payload : BitVec (u.w + u.w)) : Mag := u.offer (magAField payload) (magBField payload)

/-- The payload word driven on a component's input port in the coming cycle. -/
def State.drive (s : State) (c : Component) (payload : Nat) : State :=
  match c with
  | .nrdiv => { s with nrdiv := { s.nrdiv with port := s.nrdiv.port.drive payload } }
  | .rdiv => { s with rdiv := { s.rdiv with port := s.rdiv.port.drive payload } }
  | .ldiv => { s with ldiv := { s.ldiv with port := s.ldiv.port.drive payload } }
  | .pmul => { s with pmul := { s.pmul with port := s.pmul.port.drive payload } }
  | .mcmul => { s with mcmul := { s.mcmul with port := s.mcmul.port.drive payload } }
  | .bcd => { s with bcd := { s.bcd with port := s.bcd.port.drive payload } }
  | .mag => { s with mag := s.mag.drive (BitVec.ofNat (s.mag.w + s.mag.w) payload) }

/-- A table word driven in the coming cycle: `nbits` bits of payload, and above them the selector of the component
(log 10). -/
def State.driveTableWord (s : State) (nbits w : Nat) : State :=
  match Component.ofSelector (w / 2 ^ nbits) with
  | none => s
  | some c => s.drive c (w % 2 ^ nbits)

end Sys2Proof.Machine
end

