-- ==== Sys2Proof/Machine/BinaryToBcd.lean ====
section
/-! DEFINITION. `BinaryToBCD`: BCD.U (45_bcd.md R246).
A transaction's meaning is the clock edge of the cycle it is offered in: the component takes it if `inp.ready = 1`, and
later edges carry it on (00_scope.md R2, 30_encoding.md R84; log 9). -/

namespace Sys2Proof.Machine

/-- `BCD.U`: binary to packed BCD (45_bcd.md R246). -/
def execBcdU (n : Nat) (s : State) : Host.Outcome State Fault Refusal :=
  clock (s.offerBcd n)

end Sys2Proof.Machine
end

