-- ==== Sys2Proof/Machine/LongDivider.lean ====
section
/-! DEFINITION. `LongDivider` and the magnitude comparator: LDIV.U, LDIV.S, MAGCMP (42_long_divider.md R175 to R177).
A transaction's meaning is the clock edge of the cycle it is offered in: the component takes it if `inp.ready = 1`, and
later edges carry it on (00_scope.md R2, 30_encoding.md R84; log 9). -/

namespace Sys2Proof.Machine

/-- `LDIV.U`: unsigned long division (42_long_divider.md R175). -/
def execLdivU (n d : Nat) (s : State) : Host.Outcome State Fault Refusal :=
  clock (s.offerLdiv .unsigned n d)

/-- `LDIV.S`: signed long division (42_long_divider.md R176). -/
def execLdivS (n d : Nat) (s : State) : Host.Outcome State Fault Refusal :=
  clock (s.offerLdiv .signed n d)

/-- `MAGCMP`: comparison of magnitudes; combinational, so its outputs are those of this cycle (42_long_divider.md R177). -/
def execMagcmp (a b : Nat) (s : State) : Host.Outcome State Fault Refusal :=
  clock (s.offerMag a b)

end Sys2Proof.Machine
end

