-- ==== Sys2Proof/Machine/MulticycleDiv.lean ====
section
/-! DEFINITION. `MulticycleDiv`: NRDIV.U, NRDIV.S, RDIV.U, RDIV.S (41_multicycle_div.md R140 to R143).
A transaction's meaning is the clock edge of the cycle it is offered in: the component takes it if `inp.ready = 1`, and
later edges carry it on (00_scope.md R2, 30_encoding.md R84; log 9). -/

namespace Sys2Proof.Machine

/-- `NRDIV.U`: unsigned division on the non-restoring core (41_multicycle_div.md R140). -/
def execNrdivU (n d : Nat) (s : State) : Host.Outcome State Fault Refusal :=
  clock (s.offerNrdiv .unsigned n d)

/-- `NRDIV.S`: signed division on the non-restoring core (41_multicycle_div.md R141). -/
def execNrdivS (n d : Nat) (s : State) : Host.Outcome State Fault Refusal :=
  clock (s.offerNrdiv .signed n d)

/-- `RDIV.U`: unsigned division on the restoring core (41_multicycle_div.md R142). -/
def execRdivU (n d : Nat) (s : State) : Host.Outcome State Fault Refusal :=
  clock (s.offerRdiv .unsigned n d)

/-- `RDIV.S`: signed division on the restoring core (41_multicycle_div.md R143). -/
def execRdivS (n d : Nat) (s : State) : Host.Outcome State Fault Refusal :=
  clock (s.offerRdiv .signed n d)

end Sys2Proof.Machine
end

