-- ==== Sys2Proof/Machine/MulticycleMul.lean ====
section
/-! DEFINITION. `MulticycleMul`: MCMUL.U, MCMUL.S, MCMUL.SU (44_multicycle_mul.md R221 to R223).
A transaction's meaning is the clock edge of the cycle it is offered in: the component takes it if `inp.ready = 1`, and
later edges carry it on (00_scope.md R2, 30_encoding.md R84; log 9). -/

namespace Sys2Proof.Machine

/-- `MCMUL.U`: unsigned multiply (44_multicycle_mul.md R221). -/
def execMcmulU (a b : Nat) (s : State) : Host.Outcome State Fault Refusal :=
  clock (s.offerMcmul .unsigned a b)

/-- `MCMUL.S`: signed multiply (44_multicycle_mul.md R222). -/
def execMcmulS (a b : Nat) (s : State) : Host.Outcome State Fault Refusal :=
  clock (s.offerMcmul .signed a b)

/-- `MCMUL.SU`: signed multiplicand, unsigned multiplier (44_multicycle_mul.md R223). -/
def execMcmulSU (a b : Nat) (s : State) : Host.Outcome State Fault Refusal :=
  clock (s.offerMcmul .signedUnsigned a b)

end Sys2Proof.Machine
end

