-- ==== Sys2Proof/Machine/PipelinedMul.lean ====
section
/-! DEFINITION. `PipelinedMul`: PMUL.U, PMUL.S, PMUL.SU (43_pipelined_mul.md R200 to R202).
A transaction's meaning is the clock edge of the cycle it is offered in: the component takes it if `inp.ready = 1`, and
later edges carry it on (00_scope.md R2, 30_encoding.md R84; log 9). -/

namespace Sys2Proof.Machine

/-- `PMUL.U`: unsigned multiply (43_pipelined_mul.md R200). -/
def execPmulU (a b : Nat) (s : State) : Host.Outcome State Fault Refusal :=
  clock (s.offerPmul .unsigned a b)

/-- `PMUL.S`: signed multiply (43_pipelined_mul.md R201). -/
def execPmulS (a b : Nat) (s : State) : Host.Outcome State Fault Refusal :=
  clock (s.offerPmul .signed a b)

/-- `PMUL.SU`: signed multiplicand, unsigned multiplier (43_pipelined_mul.md R202). -/
def execPmulSU (a b : Nat) (s : State) : Host.Outcome State Fault Refusal :=
  clock (s.offerPmul .signedUnsigned a b)

end Sys2Proof.Machine
end

