-- ==== Sys2Proof/Machine/Dispatch.lean ====
section
/-! DEFINITION. The meaning of every operation (30_encoding.md R84), one arm each. -/

namespace Sys2Proof.Machine

def exec (i : Instr) (s : State) : Host.Outcome State Fault Refusal :=
  match i with
  | .nrdivU n d => Sys2Proof.Machine.execNrdivU n d s
  | .nrdivS n d => Sys2Proof.Machine.execNrdivS n d s
  | .rdivU n d => Sys2Proof.Machine.execRdivU n d s
  | .rdivS n d => Sys2Proof.Machine.execRdivS n d s
  | .ldivU n d => Sys2Proof.Machine.execLdivU n d s
  | .ldivS n d => Sys2Proof.Machine.execLdivS n d s
  | .pmulU a b => Sys2Proof.Machine.execPmulU a b s
  | .pmulS a b => Sys2Proof.Machine.execPmulS a b s
  | .pmulSU a b => Sys2Proof.Machine.execPmulSU a b s
  | .mcmulU a b => Sys2Proof.Machine.execMcmulU a b s
  | .mcmulS a b => Sys2Proof.Machine.execMcmulS a b s
  | .mcmulSU a b => Sys2Proof.Machine.execMcmulSU a b s
  | .bcdU n => Sys2Proof.Machine.execBcdU n s
  | .magcmp a b => Sys2Proof.Machine.execMagcmp a b s

end Sys2Proof.Machine
end

