-- ==== Sys2Proof/Machine/Step.lean ====
section
/-! DEFINITION. One step of the machine is one clock cycle (00_scope.md R12, R13). -/

namespace Sys2Proof.Machine

/-- One clock cycle: the operation offered in it, if any, is run; a cycle that offers none is the clock edge alone. -/
def step (s : State) : Host.Outcome State Fault Refusal :=
  match s.fetch with
  | some i => exec i s
  | none => clock s

/-- `s` with a word of `opcode_table.json` driven on an input port in the coming cycle (log 10). -/
def State.withFetchWord (s : State) (nbits w : Nat) : State := s.driveTableWord nbits w

end Sys2Proof.Machine
end

