-- ==== Sys2Proof/Machine/Script.lean ====
section
/-! DEFINITION. Driver scripts (30_encoding.md R89, R90): the spec's assembly language, as data, and what it makes an
environment drive. -/

namespace Sys2Proof.Machine

/-- One line of a script: the cycles `first` to `last`, what is offered in them (none is `-`), and `ready` or `stall`. -/
structure ScriptLine where
  first : Nat
  last : Nat
  drive : Option Instr
  ready : Bool
deriving DecidableEq, Repr

/-- Why a script is none of the header's component. -/
inductive ScriptError where
  /-- A mnemonic is a row of another component (30_encoding.md R89). -/
  | otherComponent (mnemonic : String)
  /-- The comparator has no handshake and no script (30_encoding.md R89; log 11). -/
  | notStreaming
deriving DecidableEq, Repr

/-- The script line that lists a cycle, the first if several do. -/
def lineFor (ls : List ScriptLine) (k : Nat) : Option ScriptLine := ls.find? fun l => decide (l.first ≤ k) && decide (k ≤ l.last)

/-- The signals of a cycle that lists `l` (30_encoding.md R90); `-` leaves the payload wires free (log 2). -/
def ScriptLine.signals (l : ScriptLine) (c : Component) (W bits k : Nat) : Line bits :=
  match l.drive with
  | none => { reset := false, valid := false, payload := Config.idlePayload c k bits, ready := l.ready }
  | some i => { reset := false, valid := true, payload := BitVec.ofNat bits (encode W i), ready := l.ready }

/-- The number of cycles a script lists: up to the last cycle of its lines (70_reset_and_hazards.md R297). -/
def scriptCycles (ls : List ScriptLine) : Nat := ls.foldl (fun m l => max m (l.last + 1)) 0

/-- The lines a script makes the environment of a component drive (30_encoding.md R89: a cycle not listed is `- | ready`). -/
def scriptLines (c : Component) (W bits : Nat) (ls : List ScriptLine) : List (Line bits) :=
  (List.range (scriptCycles ls)).map fun k =>
    match lineFor ls k with
    | none => idleLine c k
    | some l => l.signals c W bits k

/-- The first mnemonic of a script that does not belong to the header's component (30_encoding.md R89). -/
def foreignMnemonic (c : Component) (ls : List ScriptLine) : Option String :=
  ls.findSome? fun l =>
    match l.drive with
    | none => none
    | some i => if i.component = c then none else some i.mnemonic

/-- The block with the environment of one streaming component driving a script, from cycle 0 (30_encoding.md R89). -/
def State.loadScript (s : State) (c : Component) (ls : List ScriptLine) : Except ScriptError State :=
  match foreignMnemonic c ls with
  | some m => .error (.otherComponent m)
  | none =>
    match c with
    | .nrdiv => .ok { s with nrdiv := { s.nrdiv with port := { s.nrdiv.port with script := scriptLines c s.nrdiv.W _ ls } } }
    | .rdiv => .ok { s with rdiv := { s.rdiv with port := { s.rdiv.port with script := scriptLines c s.rdiv.W _ ls } } }
    | .ldiv => .ok { s with ldiv := { s.ldiv with port := { s.ldiv.port with script := scriptLines c s.ldiv.W _ ls } } }
    | .pmul => .ok { s with pmul := { s.pmul with port := { s.pmul.port with script := scriptLines c s.pmul.W _ ls } } }
    | .mcmul => .ok { s with mcmul := { s.mcmul with port := { s.mcmul.port with script := scriptLines c s.mcmul.W _ ls } } }
    | .bcd => .ok { s with bcd := { s.bcd with port := { s.bcd.port with script := scriptLines c s.bcd.W _ ls } } }
    | .mag => .error .notStreaming

end Sys2Proof.Machine
end

