-- ==== Sys2Proof/Safety.lean ====
section
/-! DEFINITION. What a good state and a good run are, in the terms the claims use: the invariants the spec states for
proofs, what is held and observed, the environment's obligations and the view that timing may depend on. -/

namespace Sys2Proof.Machine

/-! ### Runs (70_reset_and_hazards.md R297) -/

/-- `k` cycles from `s` end in `t`: no cycle is refused (60_exceptions.md R262). -/
abbrev RunsTo (k : Nat) (s t : State) : Prop := Host.Core.run Sys2Proof.core k s = .next t

/-- No `reset()` is asked for in the first `k` lines of a script; a line that is not listed asks for none. -/
abbrev NoResetIn (k : Nat) (script : List (Line bits)) : Prop := ∀ l ∈ script.take k, l.reset = false

/-- The block can be constructed with its parameters (60_exceptions.md R258). -/
abbrev State.Constructible (s : State) : Prop := s.fault = none

/-! ### Control invariants -/

/-- `MulticycleDiv`: a transaction in the FSM excludes a held result (41_multicycle_div.md R131), `RESTORE` is a state of the
non-restoring divider only (10_state.md R29), and `cnt` counts the iterations done, `0..W` (R30). -/
abbrev MDivRegs.Control (impl : Impl) (r : MDivRegs W) : Prop :=
  (r.fsm ≠ .idle → r.outValid = false) ∧ r.cnt.toNat ≤ W ∧ (r.fsm = .divideLoop → r.cnt.toNat < W) ∧
    (r.fsm = .restore → impl = .nonRestoring ∧ r.cnt.toNat = W) ∧ (r.fsm = .divideOut → r.cnt.toNat = W)

/-- `LongDivider`: `busy = 1` implies `out_valid = 0` (42_long_divider.md R167) and `i` is `W-2` down to `0` (10_state.md R32). -/
abbrev LDivRegs.Control (r : LDivRegs W) : Prop := r.busy = true → r.outValid = false ∧ r.i.toNat ≤ W - 2

/-- `MulticycleMul`: while busy no result is held (44_multicycle_mul.md R217) and iterations remain (10_state.md R35). -/
abbrev MCMulRegs.Control (r : MCMulRegs W) : Prop :=
  r.busy = true → r.outValid = false ∧ 1 ≤ r.cnt.toNat ∧ r.cnt.toNat < W

/-- The sequential converter: the same, counting to `BCD_LATENCY` (45_bcd.md R242). The pipelined one has no such pair. -/
abbrev BcdRegs.Control : BcdRegs W L → Prop
  | .pipelined _ => True
  | .sequential r => r.busy = true → r.outValid = false ∧ 1 ≤ r.cnt.toNat ∧ r.cnt.toNat < L

/-- The control invariant of the block. -/
abbrev State.Control (s : State) : Prop :=
  s.nrdiv.regs.Control .nonRestoring ∧ s.rdiv.regs.Control .restoring ∧ s.ldiv.regs.Control ∧ s.mcmul.regs.Control ∧
    s.bcd.regs.Control

/-! ### The divider core (41_multicycle_div.md R128, R129, R133) -/

/-- `N_j`: the top `j` bits of the dividend (41_multicycle_div.md R129). -/
def topBits (j : Nat) (n : Word W) : Nat := n.toNat / 2 ^ (W - j)

/-- The restoring loop after `j` iterations: `X = {R_j, n_in[W-1-j:0], Q_j}` (41_multicycle_div.md R129). -/
abbrev RestoringLoop (j : Nat) (n d : Word W) (x : Backing W) : Prop :=
  (Backing.low x).toNat / 2 ^ j = n.toNat % 2 ^ (W - j) ∧
    (if d = 0#W then (Backing.high x).toNat = topBits j n ∧ (Backing.low x).toNat % 2 ^ j = 2 ^ j - 1
    else (Backing.high x).toNat = topBits j n % d.toNat ∧ (Backing.low x).toNat % 2 ^ j = topBits j n / d.toNat)

/-- The non-restoring loop after `j` iterations: `X = {A_j, n_in[W-1-j:0], P_j}` (41_multicycle_div.md R133). -/
abbrev NonRestoringLoop (j : Nat) (n d : Word W) (x : Backing W) : Prop :=
  (Backing.low x).toNat / 2 ^ j = n.toNat % 2 ^ (W - j) ∧
    (Backing.high x).toInt =
      (topBits j n : Int) - (d.toNat : Int) * (2 * (((Backing.low x).toNat % 2 ^ j : Nat) : Int) - (2 ^ j - 1)) ∧
    (if d = 0#W then (Backing.high x).toInt = (topBits j n : Int) ∧ (Backing.low x).toNat % 2 ^ j = 2 ^ j - 1
    else -(d.toNat : Int) ≤ (Backing.high x).toInt ∧ (Backing.high x).toInt < (d.toNat : Int))

/-- The loop invariant of the loop body `impl` selects. -/
abbrev LoopInvariant (impl : Impl) (j : Nat) (n d : Word W) (x : Backing W) : Prop :=
  (impl = .restoring → RestoringLoop j n d x) ∧ (impl = .nonRestoring → NonRestoringLoop j n d x)

/-- The core result when `fsm = DIVIDE_OUT` (41_multicycle_div.md R128). -/
abbrev CoreResult (n d : Word W) (x : Backing W) : Prop :=
  if d = 0#W then Backing.low x = onesWord W ∧ Backing.high x = n.setWidth (W + 1)
  else (Backing.low x).toNat = n.toNat / d.toNat ∧ (Backing.high x).toNat = n.toNat % d.toNat

/-- What the core register holds in each FSM state, for the magnitudes latched in `n_in` and `d_in`. -/
abbrev MDivRegs.Core (impl : Impl) (r : MDivRegs W) : Prop :=
  (r.fsm = .divideLoop → r.dc = r.dIn ∧ LoopInvariant impl r.cnt.toNat r.nIn r.dc r.X) ∧
    (r.fsm = .restore → r.dc = r.dIn ∧ NonRestoringLoop W r.nIn r.dc r.X) ∧
    (r.fsm = .divideOut → r.dc = r.dIn ∧ CoreResult r.nIn r.dc r.X)

/-- The invariant of both dividers: control and core. -/
abbrev State.DividersGood (s : State) : Prop :=
  s.nrdiv.regs.Control .nonRestoring ∧ s.nrdiv.regs.Core .nonRestoring ∧ s.rdiv.regs.Control .restoring ∧
    s.rdiv.regs.Core .restoring

/-! ### The multiplier pipeline (43_pipelined_mul.md R199) -/

/-- A stage holding a transaction at place `i`: its `acc` is the product by the low `i+1` bits (43_pipelined_mul.md R199),
and its tag is not the reserved one (R191). -/
abbrev MulStage.Good (i : Nat) (p : MulStage W) : Prop :=
  p.valid = true →
    p.acc = BitVec.ofInt (W + W) (p.a.toInt * ((p.b.toNat % 2 ^ (i + 1) : Nat) : Int)) ∧ p.sign ≠ 3#2

/-- Every stage of the array is good at its place. -/
abbrev PipelineGood (st : Stages (MulStage W) W) : Prop := ∀ i, (h : i < st.items.length) → (st.items[i]).Good i

/-- The result a transaction in a stage will be presented with: the product of its normalised operands
(43_pipelined_mul.md R187, R189). -/
def MulStage.outcome (p : MulStage W) : BitVec (W + W + 2) :=
  packMulOut p.sign (BitVec.ofInt (W + W) (p.a.toInt * (p.b.toNat : Int)))

/-- The results of the transactions in flight, the next to leave first (20_memory.md R47). -/
def pipelinePending (st : Stages (MulStage W) W) : List (BitVec (W + W + 2)) :=
  (st.items.reverse.filter (·.valid)).map MulStage.outcome

/-- The results of the transactions the converter holds, the next to leave first (20_memory.md R47). -/
def BcdRegs.pending (r : BcdRegs W L) (D : Nat) : List (BitVec (4 * D + 1)) :=
  match r with
  | .pipelined st => (st.items.reverse.filter (·.valid)).map fun p => packBcdOut p.sign.bit (bcdOutput D p.n)
  | .sequential r => if r.busy || r.outValid then [packBcdOut r.signL.bit (bcdOutput D r.nL)] else []

/-! ### What is held (20_memory.md R47) -/

/-- Transactions a divider holds: in the FSM or as a result. -/
def MDivRegs.held (r : MDivRegs W) : Nat := (decide (r.fsm ≠ .idle)).toNat + r.outValid.toNat

/-- Transactions the long divider holds. -/
def LDivRegs.held (r : LDivRegs W) : Nat := r.busy.toNat + r.outValid.toNat

/-- Transactions in the multiplier pipeline. -/
def pipelineHeld (st : Stages (MulStage W) W) : Nat := st.items.countP (·.valid)

/-- Transactions the multi-cycle multiplier holds. -/
def MCMulRegs.held (r : MCMulRegs W) : Nat := r.busy.toNat + r.outValid.toNat

/-- Transactions the converter holds. -/
def BcdRegs.held : BcdRegs W L → Nat
  | .pipelined st => st.items.countP (·.valid)
  | .sequential r => r.busy.toNat + r.outValid.toNat

/-- A run is drained at `s`: no transaction is in flight and no result is held (70_reset_and_hazards.md R297). -/
abbrev State.Drained (s : State) : Prop :=
  s.nrdiv.regs.held = 0 ∧ s.rdiv.regs.held = 0 ∧ s.ldiv.regs.held = 0 ∧ pipelineHeld s.pmul.stages = 0 ∧
    s.mcmul.regs.held = 0 ∧ s.bcd.regs.held = 0

/-- The control registers are at their reset values, data registers at any value (70_reset_and_hazards.md R299, 10_state.md R39). -/
abbrev State.AtReset (s : State) : Prop :=
  (s.nrdiv.regs.fsm = .idle ∧ s.nrdiv.regs.cnt = 0 ∧ s.nrdiv.regs.outValid = false) ∧
    (s.rdiv.regs.fsm = .idle ∧ s.rdiv.regs.cnt = 0 ∧ s.rdiv.regs.outValid = false) ∧
    (s.ldiv.regs.busy = false ∧ s.ldiv.regs.outValid = false) ∧ (∀ p ∈ s.pmul.stages.items, p.valid = false) ∧
    (s.mcmul.regs.busy = false ∧ s.mcmul.regs.outValid = false) ∧
    (match s.bcd.regs with
    | .pipelined st => ∀ p ∈ st.items, p.valid = false
    | .sequential r => r.busy = false ∧ r.outValid = false)

/-! ### The environment's premises (70_reset_and_hazards.md R298) -/

/-- None of the next `k` lines offers a multiplier tag 3 or the converter the tag `SIGNED` (60_exceptions.md R262). -/
abbrev State.NoReservedOffer (k : Nat) (s : State) : Prop :=
  (∀ l ∈ s.pmul.port.script.take k, l.valid = true → mulSignField l.payload ≠ 3#2) ∧
    (∀ l ∈ s.mcmul.port.script.take k, l.valid = true → mulSignField l.payload ≠ 3#2) ∧
    (∀ l ∈ s.bcd.port.script.take k, l.valid = true → bcdSignField l.payload ≠ 1#1)

/-- `inp.ready` of a streaming component in the coming cycle; the comparator has no handshake. -/
abbrev portReady (s : State) : Component → Bool
  | .nrdiv => (s.nrdiv.signals s.cycle).inpReady
  | .rdiv => (s.rdiv.signals s.cycle).inpReady
  | .ldiv => (s.ldiv.signals s.cycle).inpReady
  | .pmul => (s.pmul.signals s.cycle).inpReady
  | .mcmul => (s.mcmul.signals s.cycle).inpReady
  | .bcd => (s.bcd.signals s.cycle).inpReady
  | .mag => true

/-- What the driver of a port offers in a cycle: the bits of the payload, none while `inp.valid = 0`. -/
def Line.offered (l : Line bits) : Option Nat := if l.valid then some l.payload.toNat else none

/-- What is offered to a component in the coming cycle; the comparator has no handshake (10_state.md R28). -/
def State.offered (s : State) : Component → Option Nat
  | .nrdiv => (s.nrdiv.line s.cycle).offered
  | .rdiv => (s.rdiv.line s.cycle).offered
  | .ldiv => (s.ldiv.line s.cycle).offered
  | .pmul => (s.pmul.line s.cycle).offered
  | .mcmul => (s.mcmul.line s.cycle).offered
  | .bcd => (s.bcd.line s.cycle).offered
  | .mag => none

/-- `outp.ready` of a component in the coming cycle; the comparator has no handshake. -/
def State.consumerReady (s : State) : Component → Bool
  | .nrdiv => (s.nrdiv.line s.cycle).ready
  | .rdiv => (s.rdiv.line s.cycle).ready
  | .ldiv => (s.ldiv.line s.cycle).ready
  | .pmul => (s.pmul.line s.cycle).ready
  | .mcmul => (s.mcmul.line s.cycle).ready
  | .bcd => (s.bcd.line s.cycle).ready
  | .mag => true

/-- The driver of a port meets its obligation from one cycle to the next: an offer that is not accepted is made again with the
same payload (40_handshake.md R101, R103). -/
abbrev KeepsOffer (c : Component) (s t : State) : Prop :=
  portReady s c = false → s.offered c ≠ none → t.offered c = s.offered c

/-- `driver_holds_offer` for the next `k` cycles: the driver of the component's `inp` keeps each offer until it is accepted
(40_handshake.md R103, 70_reset_and_hazards.md R291, R298). The edge rules do not assume it (60_exceptions.md R260). -/
def State.DriverHoldsOffer (c : Component) : Nat → State → Prop
  | 0, _ => True
  | k + 1, s => ∀ t, step s = .next t → KeepsOffer c s t ∧ State.DriverHoldsOffer c k t

/-- `consumer_fair` for a finite run: the consumer of the component's `outp` gives `outp.ready` in one of the cycles `start` to
`k - 1` from here (40_handshake.md R107, 70_reset_and_hazards.md R298). -/
abbrev State.ConsumerFair (c : Component) (start k : Nat) (s : State) : Prop :=
  ∃ j u, start ≤ j ∧ j < k ∧ RunsTo j s u ∧ u.consumerReady c = true

/-- `consumer_fair` as a property of a script: `outp.ready` is given in one of the first `k` lines listed (40_handshake.md
R107). -/
abbrev ReadyWithin (k : Nat) (script : List (Line bits)) : Prop := ∃ l ∈ script.take k, l.ready = true

/-! ### What timing may depend on (70_reset_and_hazards.md R294) -/

/-- The handshake part of a line: `reset()` or not, `inp.valid`, `outp.ready`. -/
def Line.handshake (l : Line bits) : Bool × Bool × Bool := (l.reset, l.valid, l.ready)

/-- The control registers of the converter in either mode: `valid` bits, or `busy`, `out_valid` and, while busy, `cnt`. -/
def BcdRegs.controlView : BcdRegs W L → List Bool × Nat
  | .pipelined st => (st.items.map (·.valid), 0)
  | .sequential r => ([r.busy, r.outValid], if r.busy then r.cnt.toNat else 0)

/-- Control registers, construction parameters and handshake inputs of the whole block, and nothing of its data. A counter that
reset leaves unspecified counts only while its unit is busy (10_state.md R32, R35, R36). -/
structure ControlView where
  cycle : Nat
  params : Params
  nrdiv : Fsm × Nat × Bool
  rdiv : Fsm × Nat × Bool
  ldiv : Bool × Nat × Bool
  pmul : List Bool
  mcmul : Bool × Nat × Bool
  bcd : List Bool × Nat
  scripts : List (List (Bool × Bool × Bool))
deriving DecidableEq, Repr

/-- The control view of a state. -/
def State.controlView (s : State) : ControlView where
  cycle := s.cycle
  params := s.params
  nrdiv := (s.nrdiv.regs.fsm, s.nrdiv.regs.cnt.toNat, s.nrdiv.regs.outValid)
  rdiv := (s.rdiv.regs.fsm, s.rdiv.regs.cnt.toNat, s.rdiv.regs.outValid)
  ldiv := (s.ldiv.regs.busy, if s.ldiv.regs.busy then s.ldiv.regs.i.toNat else 0, s.ldiv.regs.outValid)
  pmul := s.pmul.stages.items.map (·.valid)
  mcmul := (s.mcmul.regs.busy, if s.mcmul.regs.busy then s.mcmul.regs.cnt.toNat else 0, s.mcmul.regs.outValid)
  bcd := s.bcd.regs.controlView
  scripts := [s.nrdiv.port.script.map Line.handshake, s.rdiv.port.script.map Line.handshake,
    s.ldiv.port.script.map Line.handshake, s.pmul.port.script.map Line.handshake,
    s.mcmul.port.script.map Line.handshake, s.bcd.port.script.map Line.handshake]

/-- `inp.ready` and `outp.valid` of every streaming instance in the coming cycle. -/
def State.handshakes (s : State) : List (Bool × Bool) :=
  [((s.nrdiv.signals s.cycle).inpReady, (s.nrdiv.signals s.cycle).outpValid),
    ((s.rdiv.signals s.cycle).inpReady, (s.rdiv.signals s.cycle).outpValid),
    ((s.ldiv.signals s.cycle).inpReady, (s.ldiv.signals s.cycle).outpValid),
    ((s.pmul.signals s.cycle).inpReady, (s.pmul.signals s.cycle).outpValid),
    ((s.mcmul.signals s.cycle).inpReady, (s.mcmul.signals s.cycle).outpValid),
    ((s.bcd.signals s.cycle).inpReady, (s.bcd.signals s.cycle).outpValid)]

end Sys2Proof.Machine
end

