-- ==== Sys2Proof/Certificates/Slice0/Obligations.lean ====
section
/-! DEFINITION. The statements for the provers. Each names the rules of spec/ it rests on; "log n" is notes/assumptions/n.md. -/

namespace Sys2Proof.Claims

open Sys2Proof.Machine

/-! ### Operations by component and tag (30_encoding.md R84) -/

/-- The division of the non-restoring divider with a tag. -/
abbrev nrdivOp (g : DivSign) (n d : Nat) : Instr := match g with | .unsigned => .nrdivU n d | .signed => .nrdivS n d

/-- The division of the restoring divider with a tag. -/
abbrev rdivOp (g : DivSign) (n d : Nat) : Instr := match g with | .unsigned => .rdivU n d | .signed => .rdivS n d

/-- The division of the long divider with a tag. -/
abbrev ldivOp (g : DivSign) (n d : Nat) : Instr := match g with | .unsigned => .ldivU n d | .signed => .ldivS n d

/-- The multiplication of the pipelined multiplier with a tag. -/
abbrev pmulOp (g : MulSign) (a b : Nat) : Instr :=
  match g with | .unsigned => .pmulU a b | .signed => .pmulS a b | .signedUnsigned => .pmulSU a b

/-- The multiplication of the multi-cycle multiplier with a tag. -/
abbrev mcmulOp (g : MulSign) (a b : Nat) : Instr :=
  match g with | .unsigned => .mcmulU a b | .signed => .mcmulS a b | .signedUnsigned => .mcmulSU a b

/-! ### The frame of one clock edge -/

/-- Every instance but `c` takes the edge that its own registers and its own line give, and the cycle is over. -/
abbrev OthersAdvance (c : Component) (s t : State) : Prop :=
  t.cycle = s.cycle + 1 ∧ (c ≠ .nrdiv → t.nrdiv = s.nrdiv.edge s.cycle) ∧ (c ≠ .rdiv → t.rdiv = s.rdiv.edge s.cycle) ∧
    (c ≠ .ldiv → t.ldiv = s.ldiv.edge s.cycle) ∧ (c ≠ .pmul → t.pmul = s.pmul.edge s.cycle) ∧
    (c ≠ .mcmul → t.mcmul = s.mcmul.edge s.cycle) ∧ (c ≠ .bcd → t.bcd = s.bcd.edge s.cycle) ∧
    (c ≠ .mag → t.mag = s.mag.edge)

/-- A port after an edge: its line is used up and the output transfer, exactly if `outp.valid` and `outp.ready`, is
observed with the payload presented (40_handshake.md R100). -/
abbrev PortAfter (p p' : Port inBits outBits) (cycle : Nat) (valid ready : Bool) (payload : BitVec outBits) : Prop :=
  p'.script = p.script.tail ∧ p'.log = p.log ++ (if valid && ready then [(cycle, payload)] else [])

/-! ### Dividers -/

/-- `MulticycleDiv` before and after an accepting edge (41_multicycle_div.md R121): what is latched, and that nothing else
changes but a result that leaves. -/
abbrev DivAccepted (r r' : MDivRegs W) (g : DivSign) (n d : Word W) : Prop :=
  (r'.nNeg = true ↔ g = .signed ∧ n.msb = true ∧ d ≠ 0#W) ∧ (r'.dNeg = true ↔ g = .signed ∧ d.msb = true ∧ d ≠ 0#W) ∧
    r'.nIn = (if g = .signed ∧ n.msb = true ∧ d ≠ 0#W then -n else n) ∧
    r'.dIn = (if g = .signed ∧ d.msb = true ∧ d ≠ 0#W then -d else d) ∧ r'.signL = g ∧ r'.fsm = .divideIn ∧
    r'.X = r.X ∧ r'.dc = r.dc ∧ r'.cnt = r.cnt ∧ r'.outSign = r.outSign ∧ r'.outQ = r.outQ ∧ r'.outR = r.outR ∧
    r'.outValid = false

/-- The clause "otherwise no register named here changes" of R121, for the coming cycle of an idle divider. -/
abbrev IdleDividerKeeps (impl : Impl) (u u' : MDiv impl) (cycle : Nat) : Prop :=
  (u.now cycle).fsm = .idle → ((u.line cycle).valid && (u.signals cycle).inpReady) = false →
    ∃ r' p', u' = ⟨u.W, r', p'⟩ ∧
      r' = { u.now cycle with outValid := (u.now cycle).outValid && !(u.line cycle).ready } ∧
      PortAfter u.port p' cycle (u.now cycle).outValid (u.line cycle).ready (u.now cycle).outPayload

/-- `u'` holds registers that satisfy `P`, at the width `W`. -/
abbrev DivHolds (u' : MDiv impl) (W : Nat) (P : MDivRegs W → Prop) : Prop := ∃ r p, u' = ⟨W, r, p⟩ ∧ P r

/-- `u'` holds registers that satisfy `P`, at the width `W`. -/
abbrev LongHolds (u' : LDiv) (W : Nat) (P : LDivRegs W → Prop) : Prop := ∃ r p, u' = ⟨W, r, p⟩ ∧ P r

/-- `u'` holds registers that satisfy `P`, at the width `W`. -/
abbrev MulHolds (u' : MCMul) (W : Nat) (P : MCMulRegs W → Prop) : Prop := ∃ r p, u' = ⟨W, r, p⟩ ∧ P r

/-- The edge that the FSM state selects, for a transaction being computed: DIVIDE_IN, DIVIDE_LOOP, RESTORE, DIVIDE_OUT
(41_multicycle_div.md R123, R126, R127, R130). RESTORE is a state of the non-restoring divider only (10_state.md R29). `held` is `out_valid` after the edge's output transfer. -/
abbrev DividerWorks (impl : Impl) (r r' : MDivRegs W) (held : Bool) : Prop :=
  (r.fsm = .divideIn →
      r' = { r with X := r.nIn.setWidth (W + 1 + W), dc := r.dIn, cnt := 0, fsm := .divideLoop, outValid := held }) ∧
    (r.fsm = .divideLoop →
      r' = { r with
        X := (if impl = .restoring then rstep r.X r.dc else nrstep r.X r.dc)
        cnt := r.cnt + 1
        fsm := (if r.cnt.toNat = W - 1 then (if impl = .nonRestoring then .restore else .divideOut) else .divideLoop)
        outValid := held }) ∧
    (r.fsm = .restore → impl = .nonRestoring →
      r' = { r with
        X :=
          (let a := r.X.extractLsb' W (W + 1)
           let p := r.X.extractLsb' 0 W
           let q0 := p - ~~~p
           if a.msb = true then (a + r.dc.setWidth (W + 1)) ++ (q0 - 1#W) else a ++ q0)
        fsm := .divideOut
        outValid := held }) ∧
    (r.fsm = .divideOut →
      r' = { r with
        outQ := (if r.nNeg ≠ r.dNeg then -(Backing.low r.X) else Backing.low r.X)
        outR := (if r.nNeg = true then -(r.X.extractLsb' W W) else r.X.extractLsb' W W)
        outSign := r.signL
        outValid := true
        fsm := .idle })

/-- The long divider before and after an accepting edge (42_long_divider.md R162, with R170): every register is written. -/
abbrev LongAccepted (r' : LDivRegs W) (g : DivSign) (n d : Word W) : Prop :=
  let x0 : DWord W := if g = .signed then n.signExtend (W + W) else n.setWidth (W + W)
  let y : BitVec (W + 1) := if g = .signed then d.signExtend (W + 1) else d.setWidth (W + 1)
  let same : Bool := decide (g = .unsigned ∨ d = 0#W ∨ n.msb = d.msb)
  r'.rem = lstepRem (W - 1) x0 y same ∧ r'.q = lstepQuo (W - 1) x0 y same 0#W ∧ r'.dv = y ∧ r'.same = same ∧
    r'.signL = g ∧ r'.i.toNat = W - 2 ∧ r'.busy = true ∧ r'.outValid = false

/-- The long divider's registers after `k` quotient-bit steps from weight `2^(W-1)` down, with the exact integer sum of the
quotient's updates beside them (42_long_divider.md R174). -/
def longRun (g : DivSign) (n d : Word W) : Nat → DWord W × Word W × Int
  | 0 => (longDividend g n, 0#W, 0)
  | k + 1 =>
    (lstepRem (W - 1 - k) (longRun g n d k).1 (longDivisor g d) (sameSign g n d),
      lstepQuo (W - 1 - k) (longRun g n d k).1 (longDivisor g d) (sameSign g n d) (longRun g n d k).2.1,
      if longTakes (W - 1 - k) (longRun g n d k).1 (longDivisor g d) then
        (longRun g n d k).2.2 + (if sameSign g n d then 2 ^ (W - 1 - k) else -2 ^ (W - 1 - k))
      else (longRun g n d k).2.2)

/-! ### Multipliers -/

/-- The pipeline before and after an advancing edge (43_pipelined_mul.md R191): stage 0 takes the payload wires, normalised,
with the partial product of bit 0; stage `i` the stage before it, with the partial product of bit `i` added. -/
abbrev PipelineAdvanced (st st' : Stages (MulStage W) W) (valid : Bool) (sign : BitVec 2) (a b : Word W) : Prop :=
  st'.items[0]? = some
      { valid := valid, sign := sign, a := normA sign a b, b := normB sign b
        acc := if (normB sign b).getLsbD 0 = true then (normA sign a b).signExtend (W + W) else 0#(W + W) } ∧
    ∀ i, 1 ≤ i → i < W →
      st'.items[i]? = (st.items[i - 1]?).map fun p =>
        { p with acc := p.acc + (if p.b.getLsbD i = true then p.a.signExtend (W + W) * BitVec.twoPow (W + W) i
          else 0#(W + W)) }

/-- The backing register of the multi-cycle multiplier after `k` steps (44_multicycle_mul.md R212, R215). -/
def shiftAddRun (g : MulSign) (a b : Word W) (k : Nat) : Backing W :=
  (fun x => mstep x (normA g.code a b) g.code)^[k] ((normB g.code b).setWidth (W + 1 + W))

/-- How many of the next `k` edges advance the multiplier pipeline (43_pipelined_mul.md R190). -/
def pmulAdvances : Nat → State → Nat
  | 0, _ => 0
  | k + 1, s =>
    (s.pmul.signals s.cycle).inpReady.toNat +
      (match step s with
      | .next t => pmulAdvances k t
      | _ => 0)

/-- How many of the next `k` edges advance the pipelined converter (45_bcd.md R241). -/
def bcdAdvances : Nat → State → Nat
  | 0, _ => 0
  | k + 1, s =>
    (s.bcd.signals s.cycle).inpReady.toNat +
      (match step s with
      | .next t => bcdAdvances k t
      | _ => 0)

/-! ### Ports by component -/

/-- The payload bits of the output transfers observed at a port, the oldest first. -/
abbrev loggedBits (p : Port inBits outBits) : List Nat := p.log.map fun e => e.2.toNat

/-- The payload `x`, if presented, leaves next: where the coming `k` lines ask for no `reset()` and one of them is `ready`,
it is the next output transfer observed. -/
abbrev Delivers (k : Nat) (p : Port inBits outBits) (p' : Port inBits' outBits') (valid : Bool) (x : BitVec outBits) : Prop :=
  valid = true → NoResetIn k p.script → ReadyWithin k p.script →
    ∃ rest, loggedBits p' = loggedBits p ++ x.toNat :: rest

/-- `outp.payload` of `MulticycleDiv`: `sign := out_sign`, `q := out_q`, `r := out_r` (41_multicycle_div.md R120). -/
abbrev dividerPayload (r : MDivRegs W) : BitVec (W + W + 1) := packDivOut r.outSign.bit r.outQ r.outR

/-- `outp.payload` of `LongDivider`: `sign := sign_l`, `q := q`, `r := rem[W-1:0]` (42_long_divider.md R166). -/
abbrev longPayload (r : LDivRegs W) : BitVec (W + W + 1) := packDivOut r.signL.bit r.q (r.rem.extractLsb' 0 W)

/-- `outp.payload` of `PipelinedMul`: `sign` and `acc` of `stage[W-1]` (43_pipelined_mul.md R193). -/
abbrev pipelinePayload (st : Stages (MulStage W) W) : BitVec (W + W + 2) := packMulOut (mulTop st).sign (mulTop st).acc

/-- `outp.payload` of `MulticycleMul`: `sign := sign_l`, `o := X[2W-1:0]` (44_multicycle_mul.md R214). -/
abbrev shiftAddPayload (r : MCMulRegs W) : BitVec (W + W + 2) := packMulOut r.signL (r.X.extractLsb' 0 (W + W))

/-- `outp.valid` of `BinaryToBCD`: `bstage[L-1].valid`, or `out_valid` (45_bcd.md R241, R242). -/
def converterValid : BcdRegs W L → Bool
  | .pipelined st => (bcdTop st).valid
  | .sequential r => r.outValid

/-- `outp.payload` of `BinaryToBCD`: the tag of the transaction and the digits of its `n`, which stand in `bstage[L-1]`, or in
`sign_l` and `n_l` (45_bcd.md R241, R242). -/
def converterPayload (D : Nat) : BcdRegs W L → BitVec (4 * D + 1)
  | .pipelined st => packBcdOut (bcdTop st).sign.bit (bcdOutput D (bcdTop st).n)
  | .sequential r => packBcdOut r.signL.bit (bcdOutput D r.nL)

/-- A port shows `outp.valid` and, while that is 1, the payload. That it shows none otherwise is the model's choice (log 22):
10_state.md R27 leaves the payload unspecified there. -/
abbrev Shows (g : Signals outBits) (valid : Bool) (payload : BitVec outBits) : Prop :=
  g.outpValid = valid ∧ g.payload = if valid then some payload else none

/-- For how many cycles at most a unit under its control invariant is busy with the transaction before: its latency from the
edge after the accepting one (41_multicycle_div.md R134, R135, 42_long_divider.md R171, 44_multicycle_mul.md R218, 45_bcd.md
R242). A pipeline is never busy in that sense. -/
def busyAtMost (s : State) : Component → Nat
  | .nrdiv => s.nrdiv.W + 3
  | .rdiv => s.rdiv.W + 2
  | .ldiv => s.ldiv.W - 1
  | .pmul => 0
  | .mcmul => s.mcmul.W - 1
  | .bcd =>
    match s.bcd.regs with
    | .pipelined _ => 0
    | .sequential _ => s.bcd.latency - 1
  | .mag => 0

/-- A port whose coming line offers nothing, the rest of the line as it is. -/
abbrev silent (p : Port inBits outBits) (c : Component) (cycle : Nat) : Port inBits outBits :=
  { p with script := { p.line c cycle with valid := false } :: p.script.tail }

/-- The block with nothing offered to component `c` in the coming cycle. -/
abbrev withoutOffer (s : State) : Component → State
  | .nrdiv => { s with nrdiv := { s.nrdiv with port := silent s.nrdiv.port .nrdiv s.cycle } }
  | .rdiv => { s with rdiv := { s.rdiv with port := silent s.rdiv.port .rdiv s.cycle } }
  | .ldiv => { s with ldiv := { s.ldiv with port := silent s.ldiv.port .ldiv s.cycle } }
  | .pmul => { s with pmul := { s.pmul with port := silent s.pmul.port .pmul s.cycle } }
  | .mcmul => { s with mcmul := { s.mcmul with port := silent s.mcmul.port .mcmul s.cycle } }
  | .bcd => { s with bcd := { s.bcd with port := silent s.bcd.port .bcd s.cycle } }
  | .mag => s

/-- What a port shows next is what it shows now: `outp.valid` stays and the payload keeps its bits. -/
abbrev SameResult (g : Signals o) (g' : Signals o') : Prop :=
  g'.outpValid = true ∧ g'.payload.map BitVec.toNat = g.payload.map BitVec.toNat

/-- The input transfers that a multiplier's tag field or the converter's makes the spec refuse (60_exceptions.md R262). -/
abbrev ReservedPmul (s : State) : Prop :=
  (s.pmul.line s.cycle).valid = true ∧ (s.pmul.signals s.cycle).inpReady = true ∧
    mulSignField (s.pmul.line s.cycle).payload = 3#2

/-- The same for the multi-cycle multiplier. -/
abbrev ReservedMcmul (s : State) : Prop :=
  (s.mcmul.line s.cycle).valid = true ∧ (s.mcmul.signals s.cycle).inpReady = true ∧
    mulSignField (s.mcmul.line s.cycle).payload = 3#2

/-- The same for the converter. -/
abbrev SignedBcd (s : State) : Prop :=
  (s.bcd.line s.cycle).valid = true ∧ (s.bcd.signals s.cycle).inpReady = true ∧
    bcdSignField (s.bcd.line s.cycle).payload = 1#1

/-- No port but that of component `c` makes an input transfer with a payload the spec refuses (60_exceptions.md R261). -/
abbrev NoOtherRefused (c : Component) (s : State) : Prop :=
  (c ≠ .pmul → ¬ReservedPmul s) ∧ (c ≠ .mcmul → ¬ReservedMcmul s) ∧ (c ≠ .bcd → ¬SignedBcd s)

/-- The width asked for is no integer of at least `least`. -/
abbrev Narrow (least : Int) (W : WidthRequest) : Prop := ∀ w, W = .integer w → w < least

/-- What is wrong with a request for `MulticycleDiv(W, impl)` (41_multicycle_div.md R115). -/
def divBroken (W : WidthRequest) (impl : Option Impl) : ConfigError → Prop
  | .badWidth => Narrow 2 W
  | .badImpl => impl = none
  | .badLimit => False
  | .badStageCount => False

/-- What is wrong with a request for `BinaryToBCD(W, limit)` (45_bcd.md R230, R231, R233). -/
def bcdBroken (W : WidthRequest) (limit : LimitRequest) (impl : BcdImpl) (stages : Nat) : ConfigError → Prop
  | .badWidth => Narrow 4 W
  | .badImpl => False
  | .badLimit => limit = .otherValue
  | .badStageCount => impl = .base1000 ∧ stages ≠ 3 ∧ Config.supportsStageCount stages = false

/-- The converter parameters `p` are admitted ones and those of the request, the limit's default filled in
(45_bcd.md R230, R231). -/
abbrev ConverterAsRequested (W : WidthRequest) (limit : LimitRequest) (impl : BcdImpl) (stages : Nat) (mode : BcdMode)
    (latency : Nat) (p : BcdParams) : Prop :=
  W = .integer p.W ∧ 4 ≤ p.W ∧ limit ≠ .otherValue ∧ (limit = .notGiven → p.limit = .largestPower10) ∧
    (∀ l, limit = .given l → p.limit = l) ∧ p.impl = impl ∧ p.stageCount = stages ∧ p.mode = mode ∧ p.latency = latency

/-- A construction fails exactly if something is wrong with the request, and with a reason that holds of it. -/
abbrev ReportsBroken (broken : ConfigError → Prop) (r : Except ConfigError α) : Prop :=
  (∀ e, r = .error e → broken e) ∧ ((∃ e, broken e) → ∃ e, r = .error e)

/-- No line of the coming cycle asks for `reset()`. -/
abbrev NoResetNow (s : State) : Prop :=
  (s.nrdiv.line s.cycle).reset = false ∧ (s.rdiv.line s.cycle).reset = false ∧ (s.ldiv.line s.cycle).reset = false ∧
    (s.pmul.line s.cycle).reset = false ∧ (s.mcmul.line s.cycle).reset = false ∧ (s.bcd.line s.cycle).reset = false

/-- No port is offered anything in the coming cycle. -/
abbrev NothingOffered (s : State) : Prop :=
  (s.nrdiv.line s.cycle).valid = false ∧ (s.rdiv.line s.cycle).valid = false ∧ (s.ldiv.line s.cycle).valid = false ∧
    (s.pmul.line s.cycle).valid = false ∧ (s.mcmul.line s.cycle).valid = false ∧ (s.bcd.line s.cycle).valid = false

end Sys2Proof.Claims

open Sys2Proof Sys2Proof.Machine Sys2Proof.Claims

/-! ## Encoding -/

/-- Decode and encode agree: the payload that encodes a well-formed operation decodes, at its component, to the operation
(30_encoding.md R75 to R85). For MAGCMP the flattened inputs are the model's (log 11). -/
def Obligations.DecodeOfEncode : Prop :=
  ∀ (W : Nat) (i : Instr), WellFormed W i = true → decode i.component W (encode W i) = .ok i

/-- The other direction: a payload that decodes is the encoding of what it decodes to, which is well formed and an operation
of the component (30_encoding.md R84, R85, R88). For MAGCMP the flattened inputs are the model's (log 11): R81 gives the
comparator no payload format. -/
def Obligations.EncodeOfDecode : Prop :=
  ∀ (c : Component) (W p : Nat) (i : Instr), decode c W p = .ok i →
    i.component = c ∧ WellFormed W i = true ∧ encode W i = p

/-- The tag field alone selects the operation: mask `0x1` for the dividers and the converter, `0x3` for the multipliers, and
the other bits are operand bits (30_encoding.md R85). -/
def Obligations.TagFieldSelectsOperation : Prop :=
  ∀ (W p : Nat),
    (p < 2 ^ (W + W + 1) →
      (∃ n d, decode .nrdiv W p = .ok (if p % 2 = 0 then .nrdivU n d else .nrdivS n d)) ∧
      (∃ n d, decode .rdiv W p = .ok (if p % 2 = 0 then .rdivU n d else .rdivS n d)) ∧
      (∃ n d, decode .ldiv W p = .ok (if p % 2 = 0 then .ldivU n d else .ldivS n d))) ∧
    (p < 2 ^ (W + W + 2) → p % 4 ≠ 3 →
      (∃ a b, decode .pmul W p = .ok (if p % 4 = 0 then .pmulU a b else if p % 4 = 1 then .pmulS a b else .pmulSU a b)) ∧
      (∃ a b, decode .mcmul W p =
        .ok (if p % 4 = 0 then .mcmulU a b else if p % 4 = 1 then .mcmulS a b else .mcmulSU a b))) ∧
    (p < 2 ^ (W + 1) → p % 2 = 0 → ∃ n, decode .bcd W p = .ok (.bcdU n))

/-- The reserved tags are no operation: multiplier tag 3 and the converter's tag `SIGNED` (30_encoding.md R87). -/
def Obligations.ReservedTagsDecodeToNothing : Prop :=
  ∀ (W p : Nat),
    (p < 2 ^ (W + W + 2) → p % 4 = 3 →
      decode .pmul W p = .error .reservedMulSign ∧ decode .mcmul W p = .error .reservedMulSign) ∧
    (p < 2 ^ (W + 1) → p % 2 = 1 → decode .bcd W p = .error .bcdSignedUnspecified)

/-- Every field of every payload format lies where the format puts it, lowest bit first: DIV_IN, DIV_OUT, MUL_IN, MUL_OUT,
BCD_IN, BCD_OUT (30_encoding.md R75 to R80). -/
def Obligations.PayloadFieldsLieInOrder : Prop :=
  ∀ (W D : Nat) (s1 : BitVec 1) (s2 : BitVec 2) (x y : Word W) (o : DWord W) (digits : BitVec (4 * D)) (j : Nat),
    ((packDivIn s1 x y).getLsbD 0 = s1.getLsbD 0 ∧ (j < W → (packDivIn s1 x y).getLsbD (1 + j) = x.getLsbD j) ∧
        (j < W → (packDivIn s1 x y).getLsbD (W + 1 + j) = y.getLsbD j)) ∧
      ((packDivOut s1 x y).getLsbD 0 = s1.getLsbD 0 ∧ (j < W → (packDivOut s1 x y).getLsbD (1 + j) = x.getLsbD j) ∧
        (j < W → (packDivOut s1 x y).getLsbD (W + 1 + j) = y.getLsbD j)) ∧
      ((j < 2 → (packMulIn s2 x y).getLsbD j = s2.getLsbD j) ∧
        (j < W → (packMulIn s2 x y).getLsbD (2 + j) = x.getLsbD j) ∧
        (j < W → (packMulIn s2 x y).getLsbD (W + 2 + j) = y.getLsbD j)) ∧
      ((j < 2 → (packMulOut s2 o).getLsbD j = s2.getLsbD j) ∧
        (j < W + W → (packMulOut s2 o).getLsbD (2 + j) = o.getLsbD j)) ∧
      ((packBcdIn s1 x).getLsbD 0 = s1.getLsbD 0 ∧ (j < W → (packBcdIn s1 x).getLsbD (1 + j) = x.getLsbD j)) ∧
      ((packBcdOut s1 digits).getLsbD 0 = s1.getLsbD 0 ∧
        (j < 4 * D → (packBcdOut s1 digits).getLsbD (1 + j) = digits.getLsbD j))

/-- Words written out from the spec's encodings decode to the operations they stand for (95_test_vectors.md V10). -/
def Obligations.SpecWordsDecode : Prop :=
  decode .nrdiv 8 0x0F39 = .ok (.nrdivS 0x9C 0x07) ∧ decode .rdiv 8 0x00190 = .ok (.rdivU 200 0) ∧
    decode .rdiv 8 0x1FF01 = .ok (.rdivS 0x80 0xFF) ∧ decode .ldiv 4 0x053 = .ok (.ldivS 0x9 0x2) ∧
    decode .pmul 4 0x221 = .ok (.pmulS 0x8 0x8) ∧ decode .pmul 4 0x3FC = .ok (.pmulU 0xF 0xF) ∧
    decode .pmul 4 0x0FE = .ok (.pmulSU 0xF 0x3) ∧ decode .mcmul 4 0x1B5 = .ok (.mcmulS 0xD 0x6) ∧
    decode .bcd 20 0x1093D4 = .ok (.bcdU 543210) ∧ packDivOut (W := 8) 1#1 0xF2#8 0xFE#8 = 0x1FDE5#17 ∧
    packMulOut (W := 4) 2#2 0xFD#8 = 0x3F6#10 ∧ packBcdOut (D := 6) 0#1 0x543210#24 = 0x0A86420#25

/-! ## A step runs the operation offered -/

/-- When a port is offered a payload that decodes to `i`, the step is `exec i`, whichever port it is: all operations offered
in one cycle are run by the one edge (00_scope.md R2, R12; log 9). -/
def Obligations.StepRunsTheOfferedOperation : Prop :=
  ∀ (s : State) (c : Component) (i : Instr), s.fetchAt c = some i → step s = exec i s

/-- A word of the opcode table, driven as the first instruction after reset, is run by the next step as the operation it
decodes to (30_encoding.md R84, R90). How the word selects its component is the model's own choice (log 10). -/
def Obligations.TableWordRunsFirstAfterReset : Prop :=
  ∀ (nbits w : Nat) (i : Instr), decodeTableWord nbits w = some i →
    step (State.reset.withFetchWord nbits w) = exec i (State.reset.withFetchWord nbits w)

/-! ## The accepting edges: every operation completes its input transfer -/

/-- NRDIV.U, NRDIV.S, RDIV.U, RDIV.S: where the block can be constructed, nothing else offered is refused and `inp.ready = 1`,
the operation is accepted, its operands latched as R121 says, all else as it was; and an idle divider with no input transfer
keeps its registers (41_multicycle_div.md R121). -/
def Obligations.DividerAcceptingEdge : Prop :=
  (∀ (s : State) (g : DivSign) (n d : Nat), s.Constructible → NoOtherRefused .nrdiv s →
    (s.nrdiv.signals s.cycle).inpReady = true →
    ∃ t, exec (nrdivOp g n d) s = .next t ∧ OthersAdvance .nrdiv s t ∧
      ∃ r' p', t.nrdiv = ⟨s.nrdiv.W, r', p'⟩ ∧
        DivAccepted (s.nrdiv.now s.cycle) r' g (fieldWord s.nrdiv.W n) (fieldWord s.nrdiv.W d) ∧
        PortAfter s.nrdiv.port p' s.cycle (s.nrdiv.now s.cycle).outValid (s.nrdiv.line s.cycle).ready
          (s.nrdiv.now s.cycle).outPayload) ∧
  (∀ (s : State) (g : DivSign) (n d : Nat), s.Constructible → NoOtherRefused .rdiv s →
    (s.rdiv.signals s.cycle).inpReady = true →
    ∃ t, exec (rdivOp g n d) s = .next t ∧ OthersAdvance .rdiv s t ∧
      ∃ r' p', t.rdiv = ⟨s.rdiv.W, r', p'⟩ ∧
        DivAccepted (s.rdiv.now s.cycle) r' g (fieldWord s.rdiv.W n) (fieldWord s.rdiv.W d) ∧
        PortAfter s.rdiv.port p' s.cycle (s.rdiv.now s.cycle).outValid (s.rdiv.line s.cycle).ready
          (s.rdiv.now s.cycle).outPayload) ∧
  (∀ s t : State, step s = .next t →
    IdleDividerKeeps .nonRestoring s.nrdiv t.nrdiv s.cycle ∧ IdleDividerKeeps .restoring s.rdiv t.rdiv s.cycle)

/-- LDIV.U, LDIV.S: the same for the long divider, which takes its first step at the accepting edge; not busy and with no
input transfer it keeps its registers (42_long_divider.md R162). -/
def Obligations.LongDividerAcceptingEdge : Prop :=
  (∀ (s : State) (g : DivSign) (n d : Nat), s.Constructible → NoOtherRefused .ldiv s →
    (s.ldiv.signals s.cycle).inpReady = true →
    ∃ t, exec (ldivOp g n d) s = .next t ∧ OthersAdvance .ldiv s t ∧
      ∃ r' p', t.ldiv = ⟨s.ldiv.W, r', p'⟩ ∧ LongAccepted r' g (fieldWord s.ldiv.W n) (fieldWord s.ldiv.W d) ∧
        PortAfter s.ldiv.port p' s.cycle (s.ldiv.now s.cycle).outValid (s.ldiv.line s.cycle).ready
          (s.ldiv.now s.cycle).outPayload) ∧
  (∀ s t : State, step s = .next t → (s.ldiv.now s.cycle).busy = false →
    ((s.ldiv.line s.cycle).valid && (s.ldiv.signals s.cycle).inpReady) = false →
    ∃ r' p', t.ldiv = ⟨s.ldiv.W, r', p'⟩ ∧
      r' = { s.ldiv.now s.cycle with outValid := (s.ldiv.now s.cycle).outValid && !(s.ldiv.line s.cycle).ready } ∧
      PortAfter s.ldiv.port p' s.cycle (s.ldiv.now s.cycle).outValid (s.ldiv.line s.cycle).ready
        (s.ldiv.now s.cycle).outPayload)

/-- PMUL.U, PMUL.S, PMUL.SU, and the advancing edge: stage 0 takes the normalised payload with the partial product of bit 0,
stage `i` takes the stage before it and adds the partial product of bit `i`, and a transfer with tag 3 is refused, with the
reason `reserved_mul_sign` where the converter does not refuse at the same edge too (43_pipelined_mul.md R191). -/
def Obligations.PipelineAdvancingEdge : Prop :=
  (∀ (s : State) (g : MulSign) (a b : Nat), s.Constructible → NoOtherRefused .pmul s →
    (s.pmul.signals s.cycle).inpReady = true →
    ∃ t, exec (pmulOp g a b) s = .next t ∧ OthersAdvance .pmul s t ∧
      ∃ st' p', t.pmul = ⟨s.pmul.W, st', p'⟩ ∧
        PortAfter s.pmul.port p' s.cycle (mulTop (s.pmul.now s.cycle)).valid (s.pmul.line s.cycle).ready
          (packMulOut (mulTop (s.pmul.now s.cycle)).sign (mulTop (s.pmul.now s.cycle)).acc) ∧
        PipelineAdvanced (s.pmul.now s.cycle) st' true g.code (fieldWord s.pmul.W a) (fieldWord s.pmul.W b)) ∧
  (∀ s t : State, step s = .next t → (s.pmul.signals s.cycle).inpReady = true →
    ∃ st' p', t.pmul = ⟨s.pmul.W, st', p'⟩ ∧
      PortAfter s.pmul.port p' s.cycle (mulTop (s.pmul.now s.cycle)).valid (s.pmul.line s.cycle).ready
        (packMulOut (mulTop (s.pmul.now s.cycle)).sign (mulTop (s.pmul.now s.cycle)).acc) ∧
      PipelineAdvanced (s.pmul.now s.cycle) st' (s.pmul.line s.cycle).valid (mulSignField (s.pmul.line s.cycle).payload)
        (mulAField (s.pmul.line s.cycle).payload) (mulBField (s.pmul.line s.cycle).payload)) ∧
  (∀ s : State, s.Constructible → ReservedPmul s →
    (∃ r, step s = .refused r) ∧ (¬SignedBcd s → step s = .refused .reservedMulSign))

/-- The frozen edge: while a result waits and the consumer is not ready, every field of every stage keeps its value and no
input transfer takes place (43_pipelined_mul.md R192). -/
def Obligations.PipelineFrozenEdge : Prop :=
  ∀ s t : State, step s = .next t → (mulTop (s.pmul.now s.cycle)).valid = true → (s.pmul.line s.cycle).ready = false →
    (s.pmul.signals s.cycle).inpReady = false ∧ t.pmul.port.log.length = s.pmul.port.log.length ∧
      ∃ p', t.pmul = ⟨s.pmul.W, s.pmul.now s.cycle, p'⟩

/-- MCMUL.U, MCMUL.S, MCMUL.SU: the operands are normalised and the first step is taken at the accepting edge; tag 3 is
refused, with the reason `reserved_mul_sign` where the converter does not refuse at the same edge too; not busy and with no
input transfer the unit keeps its registers (44_multicycle_mul.md R212). -/
def Obligations.ShiftAddAcceptingEdge : Prop :=
  (∀ (s : State) (g : MulSign) (a b : Nat), s.Constructible → NoOtherRefused .mcmul s →
    (s.mcmul.signals s.cycle).inpReady = true →
    ∃ t, exec (mcmulOp g a b) s = .next t ∧ OthersAdvance .mcmul s t ∧
      ∃ r' p', t.mcmul = ⟨s.mcmul.W, r', p'⟩ ∧
        (r'.a1 = normA g.code (fieldWord s.mcmul.W a) (fieldWord s.mcmul.W b) ∧ r'.signL = g.code ∧
          r'.X = mstep ((normB g.code (fieldWord s.mcmul.W b)).setWidth (s.mcmul.W + 1 + s.mcmul.W)) r'.a1 g.code ∧
          r'.cnt.toNat = 1 ∧ r'.busy = true ∧ r'.outValid = false) ∧
        PortAfter s.mcmul.port p' s.cycle (s.mcmul.now s.cycle).outValid (s.mcmul.line s.cycle).ready
          (s.mcmul.now s.cycle).outPayload) ∧
  (∀ s t : State, step s = .next t → (s.mcmul.now s.cycle).busy = false →
    ((s.mcmul.line s.cycle).valid && (s.mcmul.signals s.cycle).inpReady) = false →
    ∃ r' p', t.mcmul = ⟨s.mcmul.W, r', p'⟩ ∧
      r' = { s.mcmul.now s.cycle with outValid := (s.mcmul.now s.cycle).outValid && !(s.mcmul.line s.cycle).ready }) ∧
  (∀ s : State, s.Constructible → ReservedMcmul s →
    (∃ r, step s = .refused r) ∧ (¬SignedBcd s → step s = .refused .reservedMulSign))

/-- BCD.U: pipelined, stage 0 takes the transaction and every stage moves on; sequential, the input is latched and the count
begins, the result standing at once where `BCD_LATENCY = 1` (45_bcd.md R241, R242, R246). -/
def Obligations.ConverterAcceptingEdge : Prop :=
  ∀ (s : State) (n : Nat), s.Constructible → NoOtherRefused .bcd s → (s.bcd.signals s.cycle).inpReady = true →
    ∃ t, exec (.bcdU n) s = .next t ∧ OthersAdvance .bcd s t ∧
      ∃ r' p', t.bcd = { s.bcd with regs := r', port := p' } ∧
        PortAfter s.bcd.port p' s.cycle (s.bcd.now s.cycle).outValid (s.bcd.line s.cycle).ready
          ((s.bcd.now s.cycle).outPayload s.bcd.digits) ∧
        (∀ st, s.bcd.now s.cycle = .pipelined st →
          ∃ st', r' = .pipelined st' ∧ st'.items[0]? = some ⟨true, .unsigned, fieldWord s.bcd.W n⟩ ∧
            ∀ j, 1 ≤ j → j < s.bcd.latency → st'.items[j]? = st.items[j - 1]?) ∧
        (∀ q, s.bcd.now s.cycle = .sequential q →
          ∃ q', r' = .sequential q' ∧ q'.signL = .unsigned ∧ q'.nL = fieldWord s.bcd.W n ∧ q'.cnt.toNat = 1 ∧
            q'.outValid = decide (s.bcd.latency = 1) ∧ q'.busy = decide (s.bcd.latency ≠ 1))

/-- MAGCMP: the outputs of the cycle compare the exact magnitudes, exactly one of them is 1, and the comparator keeps no
state: what is sampled depends on its inputs of this cycle alone. The comparison is that of 42_long_divider.md R168; that its
inputs stand in a script and its outputs of the cycle just ended in `sampled` is the model's choice (log 11). -/
def Obligations.ComparatorComparesMagnitudes : Prop :=
  ∀ (s : State) (a b : Nat), s.Constructible → NoOtherRefused .mag s →
    ∃ t lt eq gt, exec (.magcmp a b) s = .next t ∧ OthersAdvance .mag s t ∧
      t.mag = ⟨s.mag.w, s.mag.script.tail, some ⟨lt, eq, gt⟩⟩ ∧
      (lt = true ↔ |(fieldWord s.mag.w a).toInt| < |(fieldWord s.mag.w b).toInt|) ∧
      (eq = true ↔ |(fieldWord s.mag.w a).toInt| = |(fieldWord s.mag.w b).toInt|) ∧
      (gt = true ↔ |(fieldWord s.mag.w a).toInt| > |(fieldWord s.mag.w b).toInt|) ∧
      lt.toNat + eq.toNat + gt.toNat = 1

/-- Where an operation waits: offered in a cycle with `inp.ready = 0` it has no effect, the edge is that of the same cycle
with nothing offered (20_memory.md R46). -/
def Obligations.UntakenOfferHasNoEffect : Prop :=
  ∀ (i : Instr) (s : State), portReady s i.component = false → exec i s = clock (withoutOffer s i.component)

/-! ## The edges of a transaction being computed -/

/-- DIVIDE_IN loads the core, DIVIDE_LOOP takes one iteration, RESTORE (of the non-restoring divider) corrects, DIVIDE_OUT
restores the signs and presents: each of the dividers, at every step (41_multicycle_div.md R123, R126, R127, R130; R131 for `out_valid`). -/
def Obligations.DividerWorkingEdges : Prop :=
  ∀ s t : State, step s = .next t →
    (∃ r' p', t.nrdiv = ⟨s.nrdiv.W, r', p'⟩ ∧ DividerWorks .nonRestoring (s.nrdiv.now s.cycle) r'
      ((s.nrdiv.now s.cycle).outValid && !(s.nrdiv.line s.cycle).ready)) ∧
    (∃ r' p', t.rdiv = ⟨s.rdiv.W, r', p'⟩ ∧ DividerWorks .restoring (s.rdiv.now s.cycle) r'
      ((s.rdiv.now s.cycle).outValid && !(s.rdiv.line s.cycle).ready))

/-- The busy edges of the long divider, the multi-cycle multiplier and the sequential converter (42_long_divider.md R164,
44_multicycle_mul.md R215; the busy clause of 45_bcd.md R242): one step, and the last one presents. -/
def Obligations.BusyEdges : Prop :=
  ∀ s t : State, step s = .next t →
    ((s.ldiv.now s.cycle).busy = true → LongHolds t.ldiv s.ldiv.W fun r' =>
      let r := s.ldiv.now s.cycle
      r'.rem = lstepRem r.i.toNat r.rem r.dv r.same ∧ r'.q = lstepQuo r.i.toNat r.rem r.dv r.same r.q ∧
        r'.dv = r.dv ∧ r'.same = r.same ∧ r'.signL = r.signL ∧
        (if r.i.toNat = 0 then r'.busy = false ∧ r'.outValid = true ∧ r'.i = r.i
        else r'.busy = true ∧ r'.i.toNat = r.i.toNat - 1 ∧ r'.outValid = (r.outValid && !(s.ldiv.line s.cycle).ready))) ∧
    ((s.mcmul.now s.cycle).busy = true → MulHolds t.mcmul s.mcmul.W fun r' =>
      let r := s.mcmul.now s.cycle
      r'.X = mstep r.X r.a1 r.signL ∧ r'.cnt = r.cnt + 1 ∧ r'.a1 = r.a1 ∧ r'.signL = r.signL ∧
        (if r.cnt.toNat + 1 = s.mcmul.W then r'.busy = false ∧ r'.outValid = true
        else r'.busy = true ∧ r'.outValid = (r.outValid && !(s.mcmul.line s.cycle).ready))) ∧
    (∀ r, s.bcd.now s.cycle = .sequential r → r.busy = true →
      ∃ r' p', t.bcd = { s.bcd with regs := .sequential r', port := p' } ∧ r'.nL = r.nL ∧ r'.signL = r.signL ∧
        r'.cnt = r.cnt + 1 ∧
        (if r.cnt.toNat + 1 = s.bcd.latency then r'.busy = false ∧ r'.outValid = true
        else r'.busy = true ∧ r'.outValid = (r.outValid && !(s.bcd.line s.cycle).ready)))

/-- One quotient-bit step of the long divider, read as exact integers, in the ranges its run stays in: it subtracts or adds
`y * 2^i` exactly when that is no larger in magnitude than the remainder (42_long_divider.md R163, R169). -/
def Obligations.LongDivisionStepIsExact : Prop :=
  ∀ (W i : Nat) (rem : DWord W) (dv : BitVec (W + 1)) (same : Bool) (q : Word W), 2 ≤ W → i < W →
    |rem.toInt| < 2 ^ W → |dv.toInt| < 2 ^ W →
    (|dv.toInt * 2 ^ i| ≤ |rem.toInt| →
      (lstepRem i rem dv same).toInt = (if same then rem.toInt - dv.toInt * 2 ^ i else rem.toInt + dv.toInt * 2 ^ i) ∧
      lstepQuo i rem dv same q = (if same then q + BitVec.twoPow W i else q - BitVec.twoPow W i)) ∧
    (|rem.toInt| < |dv.toInt * 2 ^ i| → lstepRem i rem dv same = rem ∧ lstepQuo i rem dv same q = q)

/-! ## Results and latencies -/

/-- NRDIV.U, NRDIV.S, RDIV.U, RDIV.S: an accepted division presents DIVRESULT with its own tag, `W+4` (non-restoring) or
`W+3` (restoring) cycles after the accepting cycle and not before, the input closed until then; in that cycle the divider is
idle, so it accepts again as the result leaves (41_multicycle_div.md R117; the cycle counts are R134 and R135, inferences the
spec marks as its own). -/
def Obligations.DividersPresentDivresult : Prop :=
  (∀ (s s1 t : State) (g : DivSign) (n d : Nat), (s.nrdiv.signals s.cycle).inpReady = true →
    exec (nrdivOp g n d) s = .next s1 → NoResetIn (s.nrdiv.W + 3) s1.nrdiv.port.script → RunsTo (s.nrdiv.W + 3) s1 t →
    DivHolds t.nrdiv s.nrdiv.W (fun r => r.outValid = true ∧ r.outSign = g ∧ r.fsm = .idle ∧
      (r.outQ, r.outR) = divResult g (fieldWord s.nrdiv.W n) (fieldWord s.nrdiv.W d)) ∧
    ∀ k u, k < s.nrdiv.W + 3 → RunsTo k s1 u →
      (u.nrdiv.signals u.cycle).outpValid = false ∧ (u.nrdiv.signals u.cycle).inpReady = false) ∧
  (∀ (s s1 t : State) (g : DivSign) (n d : Nat), (s.rdiv.signals s.cycle).inpReady = true →
    exec (rdivOp g n d) s = .next s1 → NoResetIn (s.rdiv.W + 2) s1.rdiv.port.script → RunsTo (s.rdiv.W + 2) s1 t →
    DivHolds t.rdiv s.rdiv.W (fun r => r.outValid = true ∧ r.outSign = g ∧ r.fsm = .idle ∧
      (r.outQ, r.outR) = divResult g (fieldWord s.rdiv.W n) (fieldWord s.rdiv.W d)) ∧
    ∀ k u, k < s.rdiv.W + 2 → RunsTo k s1 u →
      (u.rdiv.signals u.cycle).outpValid = false ∧ (u.rdiv.signals u.cycle).inpReady = false)

/-- LDIV.U, LDIV.S: the long divider presents the same DIVRESULT, `W` cycles after the accepting cycle and not before
(42_long_divider.md sections 3 and 4: R171 to R173, inferences the spec marks as its own). -/
def Obligations.LongDividerPresentsDivresult : Prop :=
  ∀ (s s1 t : State) (g : DivSign) (n d : Nat), (s.ldiv.signals s.cycle).inpReady = true →
    exec (ldivOp g n d) s = .next s1 → NoResetIn (s.ldiv.W - 1) s1.ldiv.port.script → RunsTo (s.ldiv.W - 1) s1 t →
    LongHolds t.ldiv s.ldiv.W (fun r => r.outValid = true ∧ r.signL = g ∧ r.busy = false ∧
      (r.q, r.rem.setWidth s.ldiv.W) = divResult g (fieldWord s.ldiv.W n) (fieldWord s.ldiv.W d)) ∧
    ∀ k u, k < s.ldiv.W - 1 → RunsTo k s1 u →
      (u.ldiv.signals u.cycle).outpValid = false ∧ (u.ldiv.signals u.cycle).inpReady = false

/-- PMUL.U, PMUL.S, PMUL.SU: after `W-1` further advancing edges, however many frozen ones lie between them, the pipeline
presents MULRESULT with the transaction's own tag (43_pipelined_mul.md R189, R194, R196). -/
def Obligations.PipelinePresentsMulresult : Prop :=
  ∀ (s s1 t : State) (g : MulSign) (a b k : Nat), (s.pmul.signals s.cycle).inpReady = true →
    exec (pmulOp g a b) s = .next s1 → NoResetIn k s1.pmul.port.script → RunsTo k s1 t →
    pmulAdvances k s1 = s.pmul.W - 1 →
    ∃ st p, t.pmul = ⟨s.pmul.W, st, p⟩ ∧ (mulTop st).valid = true ∧ (mulTop st).sign = g.code ∧
      (mulTop st).acc = mulResult g (fieldWord s.pmul.W a) (fieldWord s.pmul.W b)

/-- MCMUL.U, MCMUL.S, MCMUL.SU: the multi-cycle multiplier presents the same MULRESULT, `W` cycles after the accepting cycle
and not before (44_multicycle_mul.md sections 2 and 3: R216, R218 to R220, 43_pipelined_mul.md R189). -/
def Obligations.ShiftAddPresentsMulresult : Prop :=
  ∀ (s s1 t : State) (g : MulSign) (a b : Nat), (s.mcmul.signals s.cycle).inpReady = true →
    exec (mcmulOp g a b) s = .next s1 → NoResetIn (s.mcmul.W - 1) s1.mcmul.port.script → RunsTo (s.mcmul.W - 1) s1 t →
    MulHolds t.mcmul s.mcmul.W (fun r => r.outValid = true ∧ r.signL = g.code ∧ r.busy = false ∧
      r.X.setWidth (s.mcmul.W + s.mcmul.W) = mulResult g (fieldWord s.mcmul.W a) (fieldWord s.mcmul.W b)) ∧
    ∀ k u, k < s.mcmul.W - 1 → RunsTo k s1 u →
      (u.mcmul.signals u.cycle).outpValid = false ∧ (u.mcmul.signals u.cycle).inpReady = false

/-- BCD.U: `BCD_LATENCY` cycles after the accepting cycle (sequential) or after `BCD_LATENCY - 1` further advancing edges
(pipelined), whatever the latency, the digits are presented: BCDRESULT in range, the open BCD_OVERRANGE beyond it, where the
transaction completes like any other (45_bcd.md R236, R241 to R243). -/
def Obligations.ConverterPresentsDigits : Prop :=
  ∀ (s s1 t : State) (n k : Nat), (s.bcd.signals s.cycle).inpReady = true → exec (.bcdU n) s = .next s1 →
    NoResetIn k s1.bcd.port.script → RunsTo k s1 t →
    (match s.bcd.regs with
      | .pipelined _ => bcdAdvances k s1 = s.bcd.latency - 1
      | .sequential _ => k = s.bcd.latency - 1) →
    ∃ r' p', t.bcd = { s.bcd with regs := r', port := p' } ∧ r'.outValid = true ∧ r'.outSign = .unsigned ∧
      bcdDigitsField (r'.outPayload s.bcd.digits) =
        (if (fieldWord s.bcd.W n).toNat < 10 ^ s.bcd.digits then bcdResult s.bcd.digits (fieldWord s.bcd.W n).toNat
        else Config.bcdOverrange s.bcd.W s.bcd.digits (fieldWord s.bcd.W n))

/-- Runs go on: a block that can be constructed and is offered no reserved tag gives a next state at every cycle, for as many
cycles as are asked for (60_exceptions.md R255, R257, R262). -/
def Obligations.RunsGoOn : Prop := ∀ (k : Nat) (s : State), s.Constructible → s.NoReservedOffer k → ∃ t, RunsTo k s t

/-! ## Order: every transaction leaves once, in order, with its own result -/

/-- The pipeline is a queue: what was observed, then what is in flight, only ever grows at the far end, by the exact product
of the payload accepted with its own tag; no stall, bubble or simultaneous transfer loses, repeats, reorders or corrupts one
(20_memory.md R47, R48; 43_pipelined_mul.md R196, R198). -/
def Obligations.PipelineIsAFaithfulQueue : Prop :=
  ∀ s t : State, PipelineGood s.pmul.stages → (s.pmul.line s.cycle).reset = false → step s = .next t →
    ∃ st p, t.pmul = ⟨s.pmul.W, st, p⟩ ∧
      p.log.map Prod.snd ++ pipelinePending st =
        s.pmul.port.log.map Prod.snd ++ pipelinePending s.pmul.stages ++
          (match MulSign.ofCode (mulSignField (s.pmul.line s.cycle).payload) with
          | none => []
          | some g =>
            if (s.pmul.line s.cycle).valid && (s.pmul.signals s.cycle).inpReady then
              [packMulOut g.code (mulResult g (mulAField (s.pmul.line s.cycle).payload)
                (mulBField (s.pmul.line s.cycle).payload))]
            else [])

/-- The converter, in either mode, is a queue in the same sense (20_memory.md R47, R48; 45_bcd.md R241, R242, R244). -/
def Obligations.ConverterIsAFaithfulQueue : Prop :=
  ∀ s t : State, s.bcd.regs.Control → (s.bcd.line s.cycle).reset = false → step s = .next t →
    ∃ r p, t.bcd = { s.bcd with regs := r, port := p } ∧
      p.log.map Prod.snd ++ r.pending (bcdDigits s.bcd.W s.bcd.limit) =
        s.bcd.port.log.map Prod.snd ++ s.bcd.regs.pending (bcdDigits s.bcd.W s.bcd.limit) ++
          (if (s.bcd.line s.cycle).valid && (s.bcd.signals s.cycle).inpReady then
            [packBcdOut 0#1 (bcdOutput (bcdDigits s.bcd.W s.bcd.limit) (bcdNField (s.bcd.line s.cycle).payload))]
          else [])

/-- A transaction enters exactly by an input transfer and leaves exactly by an output transfer: what every instance holds plus
what was observed of it grows by one exactly if `inp.valid` and `inp.ready` (20_memory.md R47; 40_handshake.md R100, R106). -/
def Obligations.EveryTransactionIsHeldOrObserved : Prop :=
  ∀ s t : State, s.Control → NoResetNow s → step s = .next t →
    t.nrdiv.regs.held + t.nrdiv.port.log.length = s.nrdiv.regs.held + s.nrdiv.port.log.length +
        ((s.nrdiv.line s.cycle).valid && (s.nrdiv.signals s.cycle).inpReady).toNat ∧
      t.rdiv.regs.held + t.rdiv.port.log.length = s.rdiv.regs.held + s.rdiv.port.log.length +
        ((s.rdiv.line s.cycle).valid && (s.rdiv.signals s.cycle).inpReady).toNat ∧
      t.ldiv.regs.held + t.ldiv.port.log.length = s.ldiv.regs.held + s.ldiv.port.log.length +
        ((s.ldiv.line s.cycle).valid && (s.ldiv.signals s.cycle).inpReady).toNat ∧
      pipelineHeld t.pmul.stages + t.pmul.port.log.length = pipelineHeld s.pmul.stages + s.pmul.port.log.length +
        ((s.pmul.line s.cycle).valid && (s.pmul.signals s.cycle).inpReady).toNat ∧
      t.mcmul.regs.held + t.mcmul.port.log.length = s.mcmul.regs.held + s.mcmul.port.log.length +
        ((s.mcmul.line s.cycle).valid && (s.mcmul.signals s.cycle).inpReady).toNat ∧
      t.bcd.regs.held + t.bcd.port.log.length = s.bcd.regs.held + s.bcd.port.log.length +
        ((s.bcd.line s.cycle).valid && (s.bcd.signals s.cycle).inpReady).toNat

/-! ## Invariants -/

/-- Every step keeps the control invariant of the block: a unit at work holds no result, RESTORE is the non-restoring
divider's, the counters stay in their ranges (10_state.md R29 to R36; 41_multicycle_div.md R131, 42_long_divider.md R167,
44_multicycle_mul.md R217). -/
def Obligations.StepKeepsControl : Prop := ∀ s t : State, s.Control → step s = .next t → t.Control

/-- Every step keeps both dividers good: in every FSM state the core register is what the loop invariants and the core result
say it is for the magnitudes latched (41_multicycle_div.md R128, R129, R133). -/
def Obligations.StepKeepsDividerCores : Prop := ∀ s t : State, s.DividersGood → step s = .next t → t.DividersGood

/-- Every step keeps every stage of the pipeline good (43_pipelined_mul.md R199). -/
def Obligations.StepKeepsPipelineGood : Prop :=
  ∀ s t : State, PipelineGood s.pmul.stages → step s = .next t → PipelineGood t.pmul.stages

/-- After construction and reset, with any parameters, the block is at its reset state: the invariants hold, nothing is in
flight, and every streaming component shows `outp.valid = 0` and `inp.ready = 1` (10_state.md R39, 70_reset_and_hazards.md
R282, R285, R299). -/
def Obligations.ResetStateIsIdle : Prop :=
  ∀ (p : Params) (s : State), State.build p = .ok s →
    s.params = p ∧ s.Constructible ∧ s.AtReset ∧ s.Control ∧ s.DividersGood ∧ PipelineGood s.pmul.stages ∧ s.Drained ∧
      s.handshakes = [(true, false), (true, false), (true, false), (true, false), (true, false), (true, false)]

/-! ## The handshake -/

/-- Readiness: each component's `inp.ready` is the function of its control registers and of `outp.ready` that its rule gives
(41_multicycle_div.md R119, 42_long_divider.md R161, 43_pipelined_mul.md R190, 44_multicycle_mul.md R211, 45_bcd.md R245). -/
def Obligations.ReadinessRules : Prop :=
  ∀ s : State,
    ((s.nrdiv.signals s.cycle).inpReady = true ↔ (s.nrdiv.now s.cycle).fsm = .idle ∧
      ((s.nrdiv.now s.cycle).outValid = false ∨ (s.nrdiv.line s.cycle).ready = true)) ∧
    ((s.rdiv.signals s.cycle).inpReady = true ↔ (s.rdiv.now s.cycle).fsm = .idle ∧
      ((s.rdiv.now s.cycle).outValid = false ∨ (s.rdiv.line s.cycle).ready = true)) ∧
    ((s.ldiv.signals s.cycle).inpReady = true ↔ (s.ldiv.now s.cycle).busy = false ∧
      ((s.ldiv.now s.cycle).outValid = false ∨ (s.ldiv.line s.cycle).ready = true)) ∧
    ((s.pmul.signals s.cycle).inpReady = true ↔
      (∃ st ∈ (s.pmul.now s.cycle).items[s.pmul.W - 1]?, st.valid = false) ∨
        (s.pmul.now s.cycle).items[s.pmul.W - 1]? = none ∨ (s.pmul.line s.cycle).ready = true) ∧
    ((s.mcmul.signals s.cycle).inpReady = true ↔ (s.mcmul.now s.cycle).busy = false ∧
      ((s.mcmul.now s.cycle).outValid = false ∨ (s.mcmul.line s.cycle).ready = true)) ∧
    (∀ st, s.bcd.now s.cycle = .pipelined st → ((s.bcd.signals s.cycle).inpReady = true ↔
      (∃ x ∈ st.items[s.bcd.latency - 1]?, x.valid = false) ∨ st.items[s.bcd.latency - 1]? = none ∨
        (s.bcd.line s.cycle).ready = true)) ∧
    (∀ q, s.bcd.now s.cycle = .sequential q → ((s.bcd.signals s.cycle).inpReady = true ↔ q.busy = false ∧
      (q.outValid = false ∨ (s.bcd.line s.cycle).ready = true)))

/-- A result presented and not taken stays: `outp.valid` and every bit of `outp.payload` are the same in the next cycle, for
every component (40_handshake.md R101 as the components meet it, R102). -/
def Obligations.WaitingResultIsStable : Prop :=
  ∀ s t : State, s.Control → step s = .next t → NoResetNow t →
    ((s.nrdiv.signals s.cycle).outpValid = true → (s.nrdiv.line s.cycle).ready = false →
      SameResult (s.nrdiv.signals s.cycle) (t.nrdiv.signals t.cycle)) ∧
    ((s.rdiv.signals s.cycle).outpValid = true → (s.rdiv.line s.cycle).ready = false →
      SameResult (s.rdiv.signals s.cycle) (t.rdiv.signals t.cycle)) ∧
    ((s.ldiv.signals s.cycle).outpValid = true → (s.ldiv.line s.cycle).ready = false →
      SameResult (s.ldiv.signals s.cycle) (t.ldiv.signals t.cycle)) ∧
    ((s.pmul.signals s.cycle).outpValid = true → (s.pmul.line s.cycle).ready = false →
      SameResult (s.pmul.signals s.cycle) (t.pmul.signals t.cycle)) ∧
    ((s.mcmul.signals s.cycle).outpValid = true → (s.mcmul.line s.cycle).ready = false →
      SameResult (s.mcmul.signals s.cycle) (t.mcmul.signals t.cycle)) ∧
    ((s.bcd.signals s.cycle).outpValid = true → (s.bcd.line s.cycle).ready = false →
      SameResult (s.bcd.signals s.cycle) (t.bcd.signals t.cycle))

/-- Progress at the output: a result presented is the next one to leave, with its own payload, if the consumer is ready in one
of the coming `k` cycles (40_handshake.md R107, with the premise `consumer_fair` made finite). -/
def Obligations.PresentedResultIsDelivered : Prop :=
  ∀ (k : Nat) (s t : State), s.Control → RunsTo k s t →
    Delivers k s.nrdiv.port t.nrdiv.port (s.nrdiv.signals s.cycle).outpValid (s.nrdiv.now s.cycle).outPayload ∧
    Delivers k s.rdiv.port t.rdiv.port (s.rdiv.signals s.cycle).outpValid (s.rdiv.now s.cycle).outPayload ∧
    Delivers k s.ldiv.port t.ldiv.port (s.ldiv.signals s.cycle).outpValid (s.ldiv.now s.cycle).outPayload ∧
    Delivers k s.pmul.port t.pmul.port (s.pmul.signals s.cycle).outpValid
      (packMulOut (mulTop (s.pmul.now s.cycle)).sign (mulTop (s.pmul.now s.cycle)).acc) ∧
    Delivers k s.mcmul.port t.mcmul.port (s.mcmul.signals s.cycle).outpValid (s.mcmul.now s.cycle).outPayload ∧
    Delivers k s.bcd.port t.bcd.port (s.bcd.signals s.cycle).outpValid ((s.bcd.now s.cycle).outPayload s.bcd.digits)

/-- Backpressure: while a result waits and `outp.ready = 0`, no component accepts input (40_handshake.md R105). -/
def Obligations.WaitingResultClosesInput : Prop :=
  ∀ s : State,
    ((s.nrdiv.signals s.cycle).outpValid = true → (s.nrdiv.line s.cycle).ready = false →
      (s.nrdiv.signals s.cycle).inpReady = false) ∧
    ((s.rdiv.signals s.cycle).outpValid = true → (s.rdiv.line s.cycle).ready = false →
      (s.rdiv.signals s.cycle).inpReady = false) ∧
    ((s.ldiv.signals s.cycle).outpValid = true → (s.ldiv.line s.cycle).ready = false →
      (s.ldiv.signals s.cycle).inpReady = false) ∧
    ((s.pmul.signals s.cycle).outpValid = true → (s.pmul.line s.cycle).ready = false →
      (s.pmul.signals s.cycle).inpReady = false) ∧
    ((s.mcmul.signals s.cycle).outpValid = true → (s.mcmul.line s.cycle).ready = false →
      (s.mcmul.signals s.cycle).inpReady = false) ∧
    ((s.bcd.signals s.cycle).outpValid = true → (s.bcd.line s.cycle).ready = false →
      (s.bcd.signals s.cycle).inpReady = false)

/-- A cycle with nothing in flight, nothing presented and nothing offered changes no control register
(40_handshake.md R110). -/
def Obligations.IdleCycleChangesNoControl : Prop :=
  ∀ s t : State, s.Drained → NoResetNow s → NothingOffered s → step s = .next t →
    t.Drained ∧ { t.controlView with cycle := s.cycle, scripts := s.controlView.scripts } = s.controlView

/-- An output transfer takes place exactly if `outp.valid` and `outp.ready`, and hands over the payload driven in that cycle,
of every streaming component: the output registers that its rule names, packed as its format says (40_handshake.md R100, with
the payloads of 41_multicycle_div.md R120, 42_long_divider.md R166, 43_pipelined_mul.md R193, 44_multicycle_mul.md R214 and
45_bcd.md R241, R242). -/
def Obligations.OutputTransferIsObserved : Prop :=
  ∀ s t : State, step s = .next t →
    (∃ r p, t.nrdiv = ⟨s.nrdiv.W, r, p⟩ ∧ PortAfter s.nrdiv.port p s.cycle (s.nrdiv.now s.cycle).outValid
      (s.nrdiv.line s.cycle).ready (dividerPayload (s.nrdiv.now s.cycle))) ∧
    (∃ r p, t.rdiv = ⟨s.rdiv.W, r, p⟩ ∧ PortAfter s.rdiv.port p s.cycle (s.rdiv.now s.cycle).outValid
      (s.rdiv.line s.cycle).ready (dividerPayload (s.rdiv.now s.cycle))) ∧
    (∃ r p, t.ldiv = ⟨s.ldiv.W, r, p⟩ ∧ PortAfter s.ldiv.port p s.cycle (s.ldiv.now s.cycle).outValid
      (s.ldiv.line s.cycle).ready (longPayload (s.ldiv.now s.cycle))) ∧
    (∃ r p, t.pmul = ⟨s.pmul.W, r, p⟩ ∧ PortAfter s.pmul.port p s.cycle (mulTop (s.pmul.now s.cycle)).valid
      (s.pmul.line s.cycle).ready (pipelinePayload (s.pmul.now s.cycle))) ∧
    (∃ r p, t.mcmul = ⟨s.mcmul.W, r, p⟩ ∧ PortAfter s.mcmul.port p s.cycle (s.mcmul.now s.cycle).outValid
      (s.mcmul.line s.cycle).ready (shiftAddPayload (s.mcmul.now s.cycle))) ∧
    (∃ r p, t.bcd = { s.bcd with regs := r, port := p } ∧ PortAfter s.bcd.port p s.cycle
      (converterValid (s.bcd.now s.cycle)) (s.bcd.line s.cycle).ready
      (converterPayload s.bcd.digits (s.bcd.now s.cycle)))

/-! ## The whole machine -/

/-- Timing is independent of the data: two blocks that agree in their control registers, their parameters and the handshake
inputs of all coming cycles, and differ in any data and any payload, show the same `inp.ready` and `outp.valid` now and agree
again after a step (70_reset_and_hazards.md R294). -/
def Obligations.TimingIgnoresData : Prop :=
  ∀ s s' t t' : State, s.controlView = s'.controlView → step s = .next t → step s' = .next t' →
    s.handshakes = s'.handshakes ∧ t.controlView = t'.controlView

/-- No state is shared between instances: what an instance becomes depends on nothing of the others (10_state.md R38). -/
def Obligations.InstancesAreIndependent : Prop :=
  ∀ s s' t t' : State, s.cycle = s'.cycle → step s = .next t → step s' = .next t' →
    (s.nrdiv = s'.nrdiv → t.nrdiv = t'.nrdiv) ∧ (s.rdiv = s'.rdiv → t.rdiv = t'.rdiv) ∧
      (s.ldiv = s'.ldiv → t.ldiv = t'.ldiv) ∧ (s.pmul = s'.pmul → t.pmul = t'.pmul) ∧
      (s.mcmul = s'.mcmul → t.mcmul = t'.mcmul) ∧ (s.bcd = s'.bcd → t.bcd = t'.bcd) ∧ (s.mag = s'.mag → t.mag = t'.mag)

/-- The construction parameters never change (00_scope.md R9, 70_reset_and_hazards.md R293). -/
def Obligations.ParametersNeverChange : Prop := ∀ s t : State, step s = .next t → t.params = s.params

/-- `reset()` before a cycle discards every transaction in flight and any result presented: in that cycle `outp.valid = 0` and
`inp.ready = 1`, nothing of before is observed, and afterwards the instance holds just what it accepted in that cycle
(70_reset_and_hazards.md R280 to R282, R286). -/
def Obligations.ResetDiscardsTransactions : Prop :=
  ∀ s t : State, step s = .next t →
    ((s.nrdiv.line s.cycle).reset = true → (s.nrdiv.signals s.cycle).outpValid = false ∧
      (s.nrdiv.signals s.cycle).inpReady = true ∧ t.nrdiv.port.log.length = s.nrdiv.port.log.length ∧
      t.nrdiv.regs.held = (s.nrdiv.line s.cycle).valid.toNat) ∧
    ((s.rdiv.line s.cycle).reset = true → (s.rdiv.signals s.cycle).outpValid = false ∧
      (s.rdiv.signals s.cycle).inpReady = true ∧ t.rdiv.port.log.length = s.rdiv.port.log.length ∧
      t.rdiv.regs.held = (s.rdiv.line s.cycle).valid.toNat) ∧
    ((s.ldiv.line s.cycle).reset = true → (s.ldiv.signals s.cycle).outpValid = false ∧
      (s.ldiv.signals s.cycle).inpReady = true ∧ t.ldiv.port.log.length = s.ldiv.port.log.length ∧
      t.ldiv.regs.held = (s.ldiv.line s.cycle).valid.toNat) ∧
    ((s.pmul.line s.cycle).reset = true → (s.pmul.signals s.cycle).outpValid = false ∧
      (s.pmul.signals s.cycle).inpReady = true ∧ t.pmul.port.log.length = s.pmul.port.log.length ∧
      pipelineHeld t.pmul.stages = (s.pmul.line s.cycle).valid.toNat) ∧
    ((s.mcmul.line s.cycle).reset = true → (s.mcmul.signals s.cycle).outpValid = false ∧
      (s.mcmul.signals s.cycle).inpReady = true ∧ t.mcmul.port.log.length = s.mcmul.port.log.length ∧
      t.mcmul.regs.held = (s.mcmul.line s.cycle).valid.toNat) ∧
    ((s.bcd.line s.cycle).reset = true → (s.bcd.signals s.cycle).outpValid = false ∧
      (s.bcd.signals s.cycle).inpReady = true ∧ t.bcd.port.log.length = s.bcd.port.log.length ∧
      t.bcd.regs.held = (s.bcd.line s.cycle).valid.toNat)

/-- A block that can be constructed refuses a cycle exactly at an input transfer with a reserved tag, for the reason of a tag
that is there, and gives every other cycle a next state (60_exceptions.md R259, R262). -/
def Obligations.RefusalsAreExactlyReservedTags : Prop :=
  ∀ s : State, s.Constructible →
    ((∃ r, step s = .refused r) ↔ ReservedPmul s ∨ ReservedMcmul s ∨ SignedBcd s) ∧
    (step s = .refused .reservedMulSign → ReservedPmul s ∨ ReservedMcmul s) ∧
    (step s = .refused .bcdSignedUnspecified → SignedBcd s) ∧
    (∀ r, step s = .refused r → r = .reservedMulSign ∨ r = .bcdSignedUnspecified) ∧
    (¬(ReservedPmul s ∨ ReservedMcmul s ∨ SignedBcd s) → ∃ t, step s = .next t)

/-- The machine faults only where there is no block: a parameter that no construction admits (60_exceptions.md R255, R258; a
base-1000 stage count other than 3 only where the implementation does not support it, 45_bcd.md R233). For `BCD_LATENCY = 0`
and `w = 0` the fault is the model's own (log 13). -/
def Obligations.FaultsMeanNoBlock : Prop :=
  ∀ (s : State) (f : Fault), step s = .fault f →
    (f = .configError .badWidth ∧
      (s.nrdiv.W < 2 ∨ s.rdiv.W < 2 ∨ s.ldiv.W < 2 ∨ s.pmul.W < 2 ∨ s.mcmul.W < 2 ∨ s.bcd.W ≤ 3)) ∨
    (f = .configError .badStageCount ∧ s.bcd.impl = .base1000 ∧ s.bcd.stageCount ≠ 3 ∧
      Config.supportsStageCount s.bcd.stageCount = false) ∨
    (f = .parameterNotAdmitted ∧ (s.bcd.latency = 0 ∨ s.mag.w = 0))

/-- Construction errors, in any order of the checks: a component is constructed, with the parameters asked for, exactly if
nothing is wrong with the request, and otherwise fails with a reason that holds of it. `MulticycleDiv`
(41_multicycle_div.md R115), `LongDivider` (42_long_divider.md R160), `PipelinedMul` (43_pipelined_mul.md R185),
`MulticycleMul` (44_multicycle_mul.md R210), `BinaryToBCD` (45_bcd.md R230, R231, and the stage count of R233); and a block
with a component that fails, in its width, limit or stage count, gives no State: a State has the parameters asked for. -/
def Obligations.ConstructionErrors : Prop :=
  (∀ (W : WidthRequest) (impl : Option Impl),
    ReportsBroken (divBroken W impl) (buildMulticycleDiv W impl) ∧
    ∀ w i, buildMulticycleDiv W impl = .ok (w, i) ↔ (W = .integer w ∧ 2 ≤ w ∧ impl = some i)) ∧
  (∀ W : WidthRequest, ∀ b ∈ [buildLongDivider, buildPipelinedMul, buildMulticycleMul],
    ReportsBroken (fun e => e = .badWidth ∧ Narrow 2 W) (b W) ∧ ∀ w, b W = .ok w ↔ (W = .integer w ∧ 2 ≤ w)) ∧
  (∀ (W : WidthRequest) (limit : LimitRequest) (impl : BcdImpl) (stages : Nat) (mode : BcdMode) (latency : Nat),
    ReportsBroken (bcdBroken W limit impl stages) (buildBinaryToBcd W limit impl stages mode latency) ∧
    ∀ p, buildBinaryToBcd W limit impl stages mode latency = .ok p →
      ConverterAsRequested W limit impl stages mode latency p) ∧
  (∀ (q : BlockRequest) (s : State), State.construct q = .ok s →
    s.Constructible ∧ q.nrdivW = .integer s.nrdiv.W ∧ q.rdivW = .integer s.rdiv.W ∧ q.ldivW = .integer s.ldiv.W ∧
      q.pmulW = .integer s.pmul.W ∧ q.mcmulW = .integer s.mcmul.W ∧ q.magW = s.mag.w ∧
      (∀ e, ¬bcdBroken q.bcdW q.limit q.bcdImpl q.stageCount e) ∧
      ConverterAsRequested q.bcdW q.limit q.bcdImpl q.stageCount q.mode q.latency s.params.bcd)

/-! ## Arithmetic -/

/-- The two divider cores are one function: `W` restoring iterations give, bit for bit, what `W` non-restoring iterations and
the restore step give, for every dividend and divisor, zero included (41_multicycle_div.md R116, R128). -/
def Obligations.RestoringEqualsNonRestoring : Prop :=
  ∀ (W : Nat) (n d : Word W), 2 ≤ W →
    (fun x => rstep x d)^[W] (n.setWidth (W + 1 + W)) = nrfix ((fun x => nrstep x d)^[W] (n.setWidth (W + 1 + W))) d

/-- The division contract: exact, remainder smaller than the divisor and with the dividend's sign; by zero all ones and the
dividend; signed overflow wraps (41_multicycle_div.md R118). -/
def Obligations.DivresultIsExactDivision : Prop :=
  ∀ (W : Nat) (g : DivSign) (n d : Word W), 2 ≤ W →
    (d = 0#W → divResult g n d = (onesWord W, n)) ∧
    (g = .signed → n = minWord W → d = onesWord W → divResult g n d = (minWord W, 0#W)) ∧
    (d ≠ 0#W → ¬(g = .signed ∧ n = minWord W ∧ d = onesWord W) →
      divOperand g n = divOperand g (divResult g n d).1 * divOperand g d + divOperand g (divResult g n d).2 ∧
      |divOperand g (divResult g n d).2| < |divOperand g d| ∧
      0 ≤ divOperand g (divResult g n d).2 * divOperand g n)

/-- The sign shell's magnitudes are exact, `MIN_W` included, and a zero divisor passes the dividend's bits unchanged
(41_multicycle_div.md R122). -/
def Obligations.MagnitudesAreExact : Prop :=
  ∀ (W : Nat) (g : DivSign) (n d : Word W), 2 ≤ W →
    (d ≠ 0#W → ((negWhen (quadrant g n d) n).toNat : Int) = |divOperand g n|) ∧
    (d ≠ 0#W → ((negWhen (quadrant g d d) d).toNat : Int) = |divOperand g d|) ∧
    (d = 0#W → negWhen (quadrant g n d) n = n ∧ negWhen (quadrant g d d) d = d)

/-- The long divider's invariant: after the step of weight `2^(W-k)`, `x0 = Q * y + rem` exactly, `rem` is smaller than
`|y| * 2^(W-k)` and has the dividend's sign, and the quotient register is `Q`; dividing by zero leaves the dividend and sets
every bit (42_long_divider.md R174). -/
def Obligations.LongDivisionInvariant : Prop :=
  ∀ (W : Nat) (g : DivSign) (n d : Word W) (k : Nat), 2 ≤ W → 1 ≤ k → k ≤ W →
    (longRun g n d k).2.1 = BitVec.ofInt W (longRun g n d k).2.2 ∧
    divOperand g n = (longRun g n d k).2.2 * divOperand g d + (longRun g n d k).1.toInt ∧
    (d ≠ 0#W → |(longRun g n d k).1.toInt| < |divOperand g d| * 2 ^ (W - k)) ∧
    0 ≤ (longRun g n d k).1.toInt * divOperand g n ∧
    (d = 0#W → (longRun g n d k).1.toInt = divOperand g n ∧ (longRun g n d k).2.2 = 2 ^ W - 2 ^ (W - k))

/-- NORM keeps the product: for every tag, the widened multiplicand read signed times the multiplier read unsigned is the
product of the operands read with the tag (43_pipelined_mul.md R187). -/
def Obligations.NormKeepsTheProduct : Prop :=
  ∀ (W : Nat) (g : MulSign) (a b : Word W), 2 ≤ W →
    (normA g.code a b).toInt * ((normB g.code b).toNat : Int) = mulOperandA g a * mulOperandB g b

/-- MULRESULT is the exact product: read with the tag it loses nothing, for any operands (43_pipelined_mul.md R189). -/
def Obligations.MulresultIsExact : Prop :=
  ∀ (W : Nat) (g : MulSign) (a b : Word W), 2 ≤ W →
    (if g = .unsigned then ((mulResult g a b).toNat : Int) else (mulResult g a b).toInt) =
      mulOperandA g a * mulOperandB g b

/-- The shift-add register: after `k` steps its high part is the product by the low `k` multiplier bits and its low part the
bits still to come (44_multicycle_mul.md R220). -/
def Obligations.ShiftAddInvariant : Prop :=
  ∀ (W : Nat) (g : MulSign) (a b : Word W) (k : Nat), 2 ≤ W → 1 ≤ k → k ≤ W →
    (if g = .unsigned then ((shiftAddRun g a b k).toNat : Int) else (shiftAddRun g a b k).toInt) / 2 ^ (W - k) =
      (normA g.code a b).toInt * (((normB g.code b).toNat % 2 ^ k : Nat) : Int) ∧
    (shiftAddRun g a b k).toNat % 2 ^ (W - k) = (normB g.code b).toNat / 2 ^ k

/-- The digit count: `LARGEST_POWER_10` gives the largest `D` with `10^D <= 2^W - 1`, `ENTIRE_RANGE` the number of digits of
`2^W - 1`, which is one more for every `W >= 4` (45_bcd.md R235). -/
def Obligations.DigitCounts : Prop :=
  (∀ W : Nat, 4 ≤ W →
    (10 ^ bcdDigits W .largestPower10 ≤ 2 ^ W - 1 ∧ ∀ k, 10 ^ k ≤ 2 ^ W - 1 → k ≤ bcdDigits W .largestPower10) ∧
    (10 ^ (bcdDigits W .entireRange - 1) ≤ 2 ^ W - 1 ∧ 2 ^ W - 1 < 10 ^ bcdDigits W .entireRange) ∧
    bcdDigits W .entireRange = bcdDigits W .largestPower10 + 1) ∧
  (∀ W, (4 ≤ W ∧ W ≤ 6 → bcdDigits W .largestPower10 = 1 ∧ bcdDigits W .entireRange = 2) ∧
    (7 ≤ W ∧ W ≤ 9 → bcdDigits W .largestPower10 = 2 ∧ bcdDigits W .entireRange = 3) ∧
    (10 ≤ W ∧ W ≤ 13 → bcdDigits W .largestPower10 = 3 ∧ bcdDigits W .entireRange = 4) ∧
    (14 ≤ W ∧ W ≤ 16 → bcdDigits W .largestPower10 = 4 ∧ bcdDigits W .entireRange = 5) ∧
    (17 ≤ W ∧ W ≤ 19 → bcdDigits W .largestPower10 = 5 ∧ bcdDigits W .entireRange = 6) ∧
    (20 ≤ W ∧ W ≤ 23 → bcdDigits W .largestPower10 = 6 ∧ bcdDigits W .entireRange = 7)) ∧
  bcdDigits 32 .largestPower10 = 9 ∧ bcdDigits 32 .entireRange = 10

/-- BCDRESULT digit by digit: digit `j`, in bits `4j+3..4j`, is `floor(n / 10^j) mod 10` (45_bcd.md R236, R238), and
`ENTIRE_RANGE` has no over-range input. -/
def Obligations.DigitsOfBcdresult : Prop :=
  (∀ D n j : Nat, j < D → ((bcdResult D n).extractLsb' (4 * j) 4).toNat = n / 10 ^ j % 10) ∧
  (∀ (W : Nat) (n : Word W), 4 ≤ W → n.toNat < 10 ^ bcdDigits W .entireRange)

/-- Double dabble is BCDRESULT: `W` shift-and-add-3 rounds give the digits of every in-range input (45_bcd.md R237). -/
def Obligations.DoubleDabbleIsBcdresult : Prop :=
  ∀ (W D : Nat) (n : Word W), n.toNat < 10 ^ D →
    doubleDabble D n = (List.range D).map fun j => n.toNat / 10 ^ j % 10

/-! ## The comparator's rule, and what the model chose -/

/-- MAGCMP: the comparator's outputs compare the exact magnitudes of its two words, `MIN_w` not wrapped, and exactly one of
them is 1 (42_long_divider.md R168). -/
def Obligations.ComparatorOutputs : Prop :=
  ∀ (w : Nat) (a b : Word w), 1 ≤ w →
    ((magCompare a b).lt = true ↔ |a.toInt| < |b.toInt|) ∧ ((magCompare a b).eq = true ↔ |a.toInt| = |b.toInt|) ∧
      ((magCompare a b).gt = true ↔ |a.toInt| > |b.toInt|) ∧
      (magCompare a b).lt.toNat + (magCompare a b).eq.toNat + (magCompare a b).gt.toNat = 1 ∧
      |(minWord w).toInt| = 2 ^ (w - 1)

/-- Which of two refusals at one edge is named: a multiplier's before the converter's. The spec gives no order, this one is
the model's choice (log 14). -/
def Obligations.RefusalOrder : Prop :=
  ∀ s : State, s.Constructible →
    (ReservedPmul s ∨ ReservedMcmul s → step s = .refused .reservedMulSign) ∧
    (SignedBcd s → ¬(ReservedPmul s ∨ ReservedMcmul s) → step s = .refused .bcdSignedUnspecified)

/-- Which of two construction errors is reported: the width before `impl`, and the width, the limit and the stage count in that
order. The spec gives no order, this one is the model's choice (log 12). -/
def Obligations.ConstructionCheckOrder : Prop :=
  (∀ (W : WidthRequest) (impl : Option Impl), Narrow 2 W → buildMulticycleDiv W impl = .error .badWidth) ∧
  (∀ (W : WidthRequest) (limit : LimitRequest) (impl : BcdImpl) (stages : Nat) (mode : BcdMode) (latency : Nat),
    (Narrow 4 W → buildBinaryToBcd W limit impl stages mode latency = .error .badWidth) ∧
    (¬Narrow 4 W → limit = .otherValue → buildBinaryToBcd W limit impl stages mode latency = .error .badLimit))
/-! ## Output signals -/

/-- The output signals of every cycle are the registers of that cycle (those of `reset()` where the cycle begins with one):
`outp.valid` is the valid register and, while it is 1, the payload is the output registers that the rule names, packed as the
format says, of `MulticycleDiv` (41_multicycle_div.md R120), `LongDivider` (42_long_divider.md R166) and `MulticycleMul`
(44_multicycle_mul.md R214), and likewise of the last stage of the multiplier pipeline and of the converter. That no payload
is shown while `outp.valid = 0`, where 10_state.md R27 leaves it unspecified, is the model's choice (log 22). -/
def Obligations.OutputSignalsAreTheRegisters : Prop :=
  ∀ s : State,
    Shows (s.nrdiv.signals s.cycle) (s.nrdiv.now s.cycle).outValid (dividerPayload (s.nrdiv.now s.cycle)) ∧
    Shows (s.rdiv.signals s.cycle) (s.rdiv.now s.cycle).outValid (dividerPayload (s.rdiv.now s.cycle)) ∧
    Shows (s.ldiv.signals s.cycle) (s.ldiv.now s.cycle).outValid (longPayload (s.ldiv.now s.cycle)) ∧
    Shows (s.pmul.signals s.cycle) (mulTop (s.pmul.now s.cycle)).valid (pipelinePayload (s.pmul.now s.cycle)) ∧
    Shows (s.mcmul.signals s.cycle) (s.mcmul.now s.cycle).outValid (shiftAddPayload (s.mcmul.now s.cycle)) ∧
    Shows (s.bcd.signals s.cycle) (converterValid (s.bcd.now s.cycle)) (converterPayload s.bcd.digits (s.bcd.now s.cycle))

/-! ## The obligations on the connected circuits -/

/-- Every payload offered is processed: under `driver_holds_offer` and `consumer_fair`, an offer made in the coming cycle is
still on the port, bit for bit, when the component first takes an input transfer, which it does within the `k` cycles
(40_handshake.md R101, R103, R107; 70_reset_and_hazards.md R298). -/
def Obligations.OfferHeldIsAccepted : Prop :=
  ∀ (c : Component) (k x : Nat) (s t : State), s.Control → RunsTo k s t → s.offered c = some x → s.DriverHoldsOffer c k →
    s.ConsumerFair c (busyAtMost s c) k →
    ∃ j u, j < k ∧ RunsTo j s u ∧ portReady u c = true ∧ u.offered c = some x ∧
      ∀ i v, i < j → RunsTo i s v → portReady v c = false ∧ v.offered c = some x
end

