-- ==== Sys2Proof/Laws/Construction.lean ====
section
/-! SUPPORT. One law per check made at construction (60_exceptions.md R258): when it passes, and what it reports. -/

namespace Sys2Proof.Machine

/-- A width passes exactly if it is an integer that is large enough. -/
theorem checkWidthFrom_eq_ok_iff (least : Nat) (W : WidthRequest) (w : Nat) :
    checkWidthFrom least W = .ok w ↔ W = .integer w ∧ least ≤ w := by
  cases W with
  | notInteger => simp [checkWidthFrom]
  | integer v =>
    by_cases h : (least : Int) ≤ v
    · simp only [checkWidthFrom, h, if_true, Except.ok.injEq, WidthRequest.integer.injEq]; omega
    · simp only [checkWidthFrom, h, if_false, reduceCtorEq, WidthRequest.integer.injEq, false_iff]; omega

/-- A width that does not pass is reported as `bad_width`. -/
theorem checkWidthFrom_eq_error_iff (least : Int) (W : WidthRequest) (e : ConfigError) :
    checkWidthFrom least W = .error e ↔ e = .badWidth ∧ ∀ w, W = .integer w → w < least := by
  cases W with
  | notInteger => simp [checkWidthFrom, eq_comm]
  | integer v =>
    by_cases h : least ≤ v
    · simp [checkWidthFrom, h, not_lt.mpr h]
    · simp [checkWidthFrom, h, not_le.mp h, eq_comm]

theorem requestedLimit_eq_ok_iff (q : LimitRequest) (l : Limit) :
    requestedLimit q = .ok l ↔ (q = .notGiven ∧ l = .largestPower10) ∨ q = .given l := by
  cases q <;> simp [requestedLimit, eq_comm]

theorem requestedLimit_eq_error_iff (q : LimitRequest) (e : ConfigError) :
    requestedLimit q = .error e ↔ e = .badLimit ∧ q = .otherValue := by
  cases q <;> simp [requestedLimit, eq_comm]

theorem badStageCount_iff (impl : BcdImpl) (k : Nat) :
    badStageCount impl k = true ↔ impl = .base1000 ∧ k ≠ 3 ∧ Config.supportsStageCount k = false := by
  cases impl <;> simp [badStageCount, stageCountSupported]

/-- A block can be constructed exactly if every parameter is admitted (00_scope.md R9). -/
theorem blockFault_eq_none_iff (p : Params) :
    blockFault p = none ↔
      (2 ≤ p.nrdivW ∧ 2 ≤ p.rdivW ∧ 2 ≤ p.ldivW ∧ 2 ≤ p.pmulW ∧ 2 ≤ p.mcmulW ∧ 4 ≤ p.bcd.W) ∧
        badStageCount p.bcd.impl p.bcd.stageCount = false ∧ 1 ≤ p.bcd.latency ∧ 1 ≤ p.magW := by
  unfold blockFault
  split
  · simp only [reduceCtorEq, false_iff]; omega
  · split
    · simp_all
    · split
      · simp only [reduceCtorEq, false_iff]; omega
      · simp_all; omega

end Sys2Proof.Machine
end

