-- ==== Sys2Proof/Laws/State.lean ====
section
/-! SUPPORT. What each update of the state does to each field, true by unfolding the update once. -/

namespace Sys2Proof.Machine

/-! ### MulticycleDiv -/

@[simp] theorem MDivRegs.accept_fsm (r : MDivRegs W) (sign : DivSign) (n d : Word W) : (r.accept sign n d).fsm = .divideIn := rfl

@[simp] theorem MDivRegs.accept_signL (r : MDivRegs W) (sign : DivSign) (n d : Word W) : (r.accept sign n d).signL = sign := rfl

@[simp] theorem MDivRegs.accept_nNeg (r : MDivRegs W) (sign : DivSign) (n d : Word W) : (r.accept sign n d).nNeg = quadrant sign n d := rfl

@[simp] theorem MDivRegs.accept_dNeg (r : MDivRegs W) (sign : DivSign) (n d : Word W) : (r.accept sign n d).dNeg = quadrant sign d d := rfl

@[simp] theorem MDivRegs.accept_nIn (r : MDivRegs W) (sign : DivSign) (n d : Word W) : (r.accept sign n d).nIn = negWhen (quadrant sign n d) n := rfl

@[simp] theorem MDivRegs.accept_dIn (r : MDivRegs W) (sign : DivSign) (n d : Word W) : (r.accept sign n d).dIn = negWhen (quadrant sign d d) d := rfl

@[simp] theorem MDivRegs.accept_X (r : MDivRegs W) (sign : DivSign) (n d : Word W) : (r.accept sign n d).X = r.X := rfl

@[simp] theorem MDivRegs.accept_dc (r : MDivRegs W) (sign : DivSign) (n d : Word W) : (r.accept sign n d).dc = r.dc := rfl

@[simp] theorem MDivRegs.accept_cnt (r : MDivRegs W) (sign : DivSign) (n d : Word W) : (r.accept sign n d).cnt = r.cnt := rfl

@[simp] theorem MDivRegs.accept_outValid (r : MDivRegs W) (sign : DivSign) (n d : Word W) : (r.accept sign n d).outValid = r.outValid := rfl

@[simp] theorem MDivRegs.accept_outSign (r : MDivRegs W) (sign : DivSign) (n d : Word W) : (r.accept sign n d).outSign = r.outSign := rfl

@[simp] theorem MDivRegs.accept_outQ (r : MDivRegs W) (sign : DivSign) (n d : Word W) : (r.accept sign n d).outQ = r.outQ := rfl

@[simp] theorem MDivRegs.accept_outR (r : MDivRegs W) (sign : DivSign) (n d : Word W) : (r.accept sign n d).outR = r.outR := rfl

@[simp] theorem MDivRegs.load_fsm (r : MDivRegs W) : r.load.fsm = .divideLoop := rfl

@[simp] theorem MDivRegs.load_signL (r : MDivRegs W) : r.load.signL = r.signL := rfl

@[simp] theorem MDivRegs.load_nNeg (r : MDivRegs W) : r.load.nNeg = r.nNeg := rfl

@[simp] theorem MDivRegs.load_dNeg (r : MDivRegs W) : r.load.dNeg = r.dNeg := rfl

@[simp] theorem MDivRegs.load_nIn (r : MDivRegs W) : r.load.nIn = r.nIn := rfl

@[simp] theorem MDivRegs.load_dIn (r : MDivRegs W) : r.load.dIn = r.dIn := rfl

@[simp] theorem MDivRegs.load_X (r : MDivRegs W) : r.load.X = r.nIn.setWidth (W + 1 + W) := rfl

@[simp] theorem MDivRegs.load_dc (r : MDivRegs W) : r.load.dc = r.dIn := rfl

@[simp] theorem MDivRegs.load_cnt (r : MDivRegs W) : r.load.cnt = 0#(clog2 (W + 1)) := rfl

@[simp] theorem MDivRegs.load_outValid (r : MDivRegs W) : r.load.outValid = r.outValid := rfl

@[simp] theorem MDivRegs.load_outSign (r : MDivRegs W) : r.load.outSign = r.outSign := rfl

@[simp] theorem MDivRegs.load_outQ (r : MDivRegs W) : r.load.outQ = r.outQ := rfl

@[simp] theorem MDivRegs.load_outR (r : MDivRegs W) : r.load.outR = r.outR := rfl

@[simp] theorem MDivRegs.iterate_fsm (impl : Impl) (r : MDivRegs W) : (r.iterate impl).fsm = (if r.cnt.toNat = W - 1 then afterLoop impl else r.fsm) := rfl

@[simp] theorem MDivRegs.iterate_signL (impl : Impl) (r : MDivRegs W) : (r.iterate impl).signL = r.signL := rfl

@[simp] theorem MDivRegs.iterate_nNeg (impl : Impl) (r : MDivRegs W) : (r.iterate impl).nNeg = r.nNeg := rfl

@[simp] theorem MDivRegs.iterate_dNeg (impl : Impl) (r : MDivRegs W) : (r.iterate impl).dNeg = r.dNeg := rfl

@[simp] theorem MDivRegs.iterate_nIn (impl : Impl) (r : MDivRegs W) : (r.iterate impl).nIn = r.nIn := rfl

@[simp] theorem MDivRegs.iterate_dIn (impl : Impl) (r : MDivRegs W) : (r.iterate impl).dIn = r.dIn := rfl

@[simp] theorem MDivRegs.iterate_X (impl : Impl) (r : MDivRegs W) : (r.iterate impl).X = loopBody impl r.X r.dc := rfl

@[simp] theorem MDivRegs.iterate_dc (impl : Impl) (r : MDivRegs W) : (r.iterate impl).dc = r.dc := rfl

@[simp] theorem MDivRegs.iterate_cnt (impl : Impl) (r : MDivRegs W) : (r.iterate impl).cnt = r.cnt + 1 := rfl

@[simp] theorem MDivRegs.iterate_outValid (impl : Impl) (r : MDivRegs W) : (r.iterate impl).outValid = r.outValid := rfl

@[simp] theorem MDivRegs.iterate_outSign (impl : Impl) (r : MDivRegs W) : (r.iterate impl).outSign = r.outSign := rfl

@[simp] theorem MDivRegs.iterate_outQ (impl : Impl) (r : MDivRegs W) : (r.iterate impl).outQ = r.outQ := rfl

@[simp] theorem MDivRegs.iterate_outR (impl : Impl) (r : MDivRegs W) : (r.iterate impl).outR = r.outR := rfl

@[simp] theorem MDivRegs.restoreEdge_fsm (r : MDivRegs W) : r.restoreEdge.fsm = .divideOut := rfl

@[simp] theorem MDivRegs.restoreEdge_signL (r : MDivRegs W) : r.restoreEdge.signL = r.signL := rfl

@[simp] theorem MDivRegs.restoreEdge_nNeg (r : MDivRegs W) : r.restoreEdge.nNeg = r.nNeg := rfl

@[simp] theorem MDivRegs.restoreEdge_dNeg (r : MDivRegs W) : r.restoreEdge.dNeg = r.dNeg := rfl

@[simp] theorem MDivRegs.restoreEdge_nIn (r : MDivRegs W) : r.restoreEdge.nIn = r.nIn := rfl

@[simp] theorem MDivRegs.restoreEdge_dIn (r : MDivRegs W) : r.restoreEdge.dIn = r.dIn := rfl

@[simp] theorem MDivRegs.restoreEdge_X (r : MDivRegs W) : r.restoreEdge.X = nrfix r.X r.dc := rfl

@[simp] theorem MDivRegs.restoreEdge_dc (r : MDivRegs W) : r.restoreEdge.dc = r.dc := rfl

@[simp] theorem MDivRegs.restoreEdge_cnt (r : MDivRegs W) : r.restoreEdge.cnt = r.cnt := rfl

@[simp] theorem MDivRegs.restoreEdge_outValid (r : MDivRegs W) : r.restoreEdge.outValid = r.outValid := rfl

@[simp] theorem MDivRegs.restoreEdge_outSign (r : MDivRegs W) : r.restoreEdge.outSign = r.outSign := rfl

@[simp] theorem MDivRegs.restoreEdge_outQ (r : MDivRegs W) : r.restoreEdge.outQ = r.outQ := rfl

@[simp] theorem MDivRegs.restoreEdge_outR (r : MDivRegs W) : r.restoreEdge.outR = r.outR := rfl

@[simp] theorem MDivRegs.present_fsm (r : MDivRegs W) : r.present.fsm = .idle := rfl

@[simp] theorem MDivRegs.present_signL (r : MDivRegs W) : r.present.signL = r.signL := rfl

@[simp] theorem MDivRegs.present_nNeg (r : MDivRegs W) : r.present.nNeg = r.nNeg := rfl

@[simp] theorem MDivRegs.present_dNeg (r : MDivRegs W) : r.present.dNeg = r.dNeg := rfl

@[simp] theorem MDivRegs.present_nIn (r : MDivRegs W) : r.present.nIn = r.nIn := rfl

@[simp] theorem MDivRegs.present_dIn (r : MDivRegs W) : r.present.dIn = r.dIn := rfl

@[simp] theorem MDivRegs.present_X (r : MDivRegs W) : r.present.X = r.X := rfl

@[simp] theorem MDivRegs.present_dc (r : MDivRegs W) : r.present.dc = r.dc := rfl

@[simp] theorem MDivRegs.present_cnt (r : MDivRegs W) : r.present.cnt = r.cnt := rfl

@[simp] theorem MDivRegs.present_outValid (r : MDivRegs W) : r.present.outValid = true := rfl

@[simp] theorem MDivRegs.present_outSign (r : MDivRegs W) : r.present.outSign = r.signL := rfl

@[simp] theorem MDivRegs.present_outQ (r : MDivRegs W) : r.present.outQ = negWhen (r.nNeg ^^ r.dNeg) (Backing.low r.X) := rfl

@[simp] theorem MDivRegs.present_outR (r : MDivRegs W) : r.present.outR = negWhen r.nNeg (r.X.extractLsb' W W) := rfl

@[simp] theorem MDivRegs.release_fsm (r : MDivRegs W) (ready : Bool) : (r.release ready).fsm = r.fsm := by
  unfold MDivRegs.release; split <;> rfl

@[simp] theorem MDivRegs.release_signL (r : MDivRegs W) (ready : Bool) : (r.release ready).signL = r.signL := by
  unfold MDivRegs.release; split <;> rfl

@[simp] theorem MDivRegs.release_nNeg (r : MDivRegs W) (ready : Bool) : (r.release ready).nNeg = r.nNeg := by
  unfold MDivRegs.release; split <;> rfl

@[simp] theorem MDivRegs.release_dNeg (r : MDivRegs W) (ready : Bool) : (r.release ready).dNeg = r.dNeg := by
  unfold MDivRegs.release; split <;> rfl

@[simp] theorem MDivRegs.release_nIn (r : MDivRegs W) (ready : Bool) : (r.release ready).nIn = r.nIn := by
  unfold MDivRegs.release; split <;> rfl

@[simp] theorem MDivRegs.release_dIn (r : MDivRegs W) (ready : Bool) : (r.release ready).dIn = r.dIn := by
  unfold MDivRegs.release; split <;> rfl

@[simp] theorem MDivRegs.release_X (r : MDivRegs W) (ready : Bool) : (r.release ready).X = r.X := by
  unfold MDivRegs.release; split <;> rfl

@[simp] theorem MDivRegs.release_dc (r : MDivRegs W) (ready : Bool) : (r.release ready).dc = r.dc := by
  unfold MDivRegs.release; split <;> rfl

@[simp] theorem MDivRegs.release_cnt (r : MDivRegs W) (ready : Bool) : (r.release ready).cnt = r.cnt := by
  unfold MDivRegs.release; split <;> rfl

@[simp] theorem MDivRegs.release_outValid (r : MDivRegs W) (ready : Bool) : (r.release ready).outValid = (r.outValid && !ready) := by
  cases h : r.outValid <;> cases ready <;> simp [MDivRegs.release, h]

@[simp] theorem MDivRegs.release_outSign (r : MDivRegs W) (ready : Bool) : (r.release ready).outSign = r.outSign := by
  unfold MDivRegs.release; split <;> rfl

@[simp] theorem MDivRegs.release_outQ (r : MDivRegs W) (ready : Bool) : (r.release ready).outQ = r.outQ := by
  unfold MDivRegs.release; split <;> rfl

@[simp] theorem MDivRegs.release_outR (r : MDivRegs W) (ready : Bool) : (r.release ready).outR = r.outR := by
  unfold MDivRegs.release; split <;> rfl

/-! ### LongDivider -/

@[simp] theorem LDivRegs.accept_busy (r : LDivRegs W) (sign : DivSign) (n d : Word W) : (r.accept sign n d).busy = true := rfl

@[simp] theorem LDivRegs.accept_i (r : LDivRegs W) (sign : DivSign) (n d : Word W) : (r.accept sign n d).i = BitVec.ofNat (clog2 W) (W - 2) := rfl

@[simp] theorem LDivRegs.accept_rem (r : LDivRegs W) (sign : DivSign) (n d : Word W) : (r.accept sign n d).rem = lstepRem (W - 1) (longDividend sign n) (longDivisor sign d) (sameSign sign n d) := rfl

@[simp] theorem LDivRegs.accept_dv (r : LDivRegs W) (sign : DivSign) (n d : Word W) : (r.accept sign n d).dv = longDivisor sign d := rfl

@[simp] theorem LDivRegs.accept_same (r : LDivRegs W) (sign : DivSign) (n d : Word W) : (r.accept sign n d).same = sameSign sign n d := rfl

@[simp] theorem LDivRegs.accept_q (r : LDivRegs W) (sign : DivSign) (n d : Word W) : (r.accept sign n d).q = lstepQuo (W - 1) (longDividend sign n) (longDivisor sign d) (sameSign sign n d) 0#W := rfl

@[simp] theorem LDivRegs.accept_signL (r : LDivRegs W) (sign : DivSign) (n d : Word W) : (r.accept sign n d).signL = sign := rfl

@[simp] theorem LDivRegs.accept_outValid (r : LDivRegs W) (sign : DivSign) (n d : Word W) : (r.accept sign n d).outValid = r.outValid := rfl

@[simp] theorem LDivRegs.iterate_busy (r : LDivRegs W) : r.iterate.busy = (if r.i.toNat = 0 then false else r.busy) := rfl

@[simp] theorem LDivRegs.iterate_i (r : LDivRegs W) : r.iterate.i = (if r.i.toNat = 0 then r.i else r.i - 1) := rfl

@[simp] theorem LDivRegs.iterate_rem (r : LDivRegs W) : r.iterate.rem = lstepRem r.i.toNat r.rem r.dv r.same := rfl

@[simp] theorem LDivRegs.iterate_dv (r : LDivRegs W) : r.iterate.dv = r.dv := rfl

@[simp] theorem LDivRegs.iterate_same (r : LDivRegs W) : r.iterate.same = r.same := rfl

@[simp] theorem LDivRegs.iterate_q (r : LDivRegs W) : r.iterate.q = lstepQuo r.i.toNat r.rem r.dv r.same r.q := rfl

@[simp] theorem LDivRegs.iterate_signL (r : LDivRegs W) : r.iterate.signL = r.signL := rfl

@[simp] theorem LDivRegs.iterate_outValid (r : LDivRegs W) : r.iterate.outValid = (if r.i.toNat = 0 then true else r.outValid) := rfl

@[simp] theorem LDivRegs.release_busy (r : LDivRegs W) (ready : Bool) : (r.release ready).busy = r.busy := by
  unfold LDivRegs.release; split <;> rfl

@[simp] theorem LDivRegs.release_i (r : LDivRegs W) (ready : Bool) : (r.release ready).i = r.i := by
  unfold LDivRegs.release; split <;> rfl

@[simp] theorem LDivRegs.release_rem (r : LDivRegs W) (ready : Bool) : (r.release ready).rem = r.rem := by
  unfold LDivRegs.release; split <;> rfl

@[simp] theorem LDivRegs.release_dv (r : LDivRegs W) (ready : Bool) : (r.release ready).dv = r.dv := by
  unfold LDivRegs.release; split <;> rfl

@[simp] theorem LDivRegs.release_same (r : LDivRegs W) (ready : Bool) : (r.release ready).same = r.same := by
  unfold LDivRegs.release; split <;> rfl

@[simp] theorem LDivRegs.release_q (r : LDivRegs W) (ready : Bool) : (r.release ready).q = r.q := by
  unfold LDivRegs.release; split <;> rfl

@[simp] theorem LDivRegs.release_signL (r : LDivRegs W) (ready : Bool) : (r.release ready).signL = r.signL := by
  unfold LDivRegs.release; split <;> rfl

@[simp] theorem LDivRegs.release_outValid (r : LDivRegs W) (ready : Bool) : (r.release ready).outValid = (r.outValid && !ready) := by
  cases h : r.outValid <;> cases ready <;> simp [LDivRegs.release, h]

/-! ### MulticycleMul -/

@[simp] theorem MCMulRegs.accept_busy (r : MCMulRegs W) (sign : BitVec 2) (a b : Word W) : (r.accept sign a b).busy = true := rfl

@[simp] theorem MCMulRegs.accept_cnt (r : MCMulRegs W) (sign : BitVec 2) (a b : Word W) : (r.accept sign a b).cnt = 1#(clog2 (W + 1)) := rfl

@[simp] theorem MCMulRegs.accept_X (r : MCMulRegs W) (sign : BitVec 2) (a b : Word W) : (r.accept sign a b).X = mstep ((normB sign b).setWidth (W + 1 + W)) (normA sign a b) sign := rfl

@[simp] theorem MCMulRegs.accept_a1 (r : MCMulRegs W) (sign : BitVec 2) (a b : Word W) : (r.accept sign a b).a1 = normA sign a b := rfl

@[simp] theorem MCMulRegs.accept_signL (r : MCMulRegs W) (sign : BitVec 2) (a b : Word W) : (r.accept sign a b).signL = sign := rfl

@[simp] theorem MCMulRegs.accept_outValid (r : MCMulRegs W) (sign : BitVec 2) (a b : Word W) : (r.accept sign a b).outValid = r.outValid := rfl

@[simp] theorem MCMulRegs.iterate_busy (r : MCMulRegs W) : r.iterate.busy = (if r.cnt.toNat + 1 = W then false else r.busy) := rfl

@[simp] theorem MCMulRegs.iterate_cnt (r : MCMulRegs W) : r.iterate.cnt = r.cnt + 1 := rfl

@[simp] theorem MCMulRegs.iterate_X (r : MCMulRegs W) : r.iterate.X = mstep r.X r.a1 r.signL := rfl

@[simp] theorem MCMulRegs.iterate_a1 (r : MCMulRegs W) : r.iterate.a1 = r.a1 := rfl

@[simp] theorem MCMulRegs.iterate_signL (r : MCMulRegs W) : r.iterate.signL = r.signL := rfl

@[simp] theorem MCMulRegs.iterate_outValid (r : MCMulRegs W) : r.iterate.outValid = (if r.cnt.toNat + 1 = W then true else r.outValid) := rfl

@[simp] theorem MCMulRegs.release_busy (r : MCMulRegs W) (ready : Bool) : (r.release ready).busy = r.busy := by
  unfold MCMulRegs.release; split <;> rfl

@[simp] theorem MCMulRegs.release_cnt (r : MCMulRegs W) (ready : Bool) : (r.release ready).cnt = r.cnt := by
  unfold MCMulRegs.release; split <;> rfl

@[simp] theorem MCMulRegs.release_X (r : MCMulRegs W) (ready : Bool) : (r.release ready).X = r.X := by
  unfold MCMulRegs.release; split <;> rfl

@[simp] theorem MCMulRegs.release_a1 (r : MCMulRegs W) (ready : Bool) : (r.release ready).a1 = r.a1 := by
  unfold MCMulRegs.release; split <;> rfl

@[simp] theorem MCMulRegs.release_signL (r : MCMulRegs W) (ready : Bool) : (r.release ready).signL = r.signL := by
  unfold MCMulRegs.release; split <;> rfl

@[simp] theorem MCMulRegs.release_outValid (r : MCMulRegs W) (ready : Bool) : (r.release ready).outValid = (r.outValid && !ready) := by
  cases h : r.outValid <;> cases ready <;> simp [MCMulRegs.release, h]

/-! ### BinaryToBCD -/

@[simp] theorem BcdSeqRegs.accept_busy (r : BcdSeqRegs W L) (sign : DivSign) (n : Word W) : (r.accept sign n).busy = (if L = 1 then r.busy else true) := rfl

@[simp] theorem BcdSeqRegs.accept_cnt (r : BcdSeqRegs W L) (sign : DivSign) (n : Word W) : (r.accept sign n).cnt = 1#(clog2 (L + 1)) := rfl

@[simp] theorem BcdSeqRegs.accept_signL (r : BcdSeqRegs W L) (sign : DivSign) (n : Word W) : (r.accept sign n).signL = sign := rfl

@[simp] theorem BcdSeqRegs.accept_nL (r : BcdSeqRegs W L) (sign : DivSign) (n : Word W) : (r.accept sign n).nL = n := rfl

@[simp] theorem BcdSeqRegs.accept_outValid (r : BcdSeqRegs W L) (sign : DivSign) (n : Word W) : (r.accept sign n).outValid = (if L = 1 then true else r.outValid) := rfl

@[simp] theorem BcdSeqRegs.iterate_busy (r : BcdSeqRegs W L) : r.iterate.busy = (if r.cnt.toNat + 1 = L then false else r.busy) := rfl

@[simp] theorem BcdSeqRegs.iterate_cnt (r : BcdSeqRegs W L) : r.iterate.cnt = r.cnt + 1 := rfl

@[simp] theorem BcdSeqRegs.iterate_signL (r : BcdSeqRegs W L) : r.iterate.signL = r.signL := rfl

@[simp] theorem BcdSeqRegs.iterate_nL (r : BcdSeqRegs W L) : r.iterate.nL = r.nL := rfl

@[simp] theorem BcdSeqRegs.iterate_outValid (r : BcdSeqRegs W L) : r.iterate.outValid = (if r.cnt.toNat + 1 = L then true else r.outValid) := rfl

@[simp] theorem BcdSeqRegs.release_busy (r : BcdSeqRegs W L) (ready : Bool) : (r.release ready).busy = r.busy := by
  unfold BcdSeqRegs.release; split <;> rfl

@[simp] theorem BcdSeqRegs.release_cnt (r : BcdSeqRegs W L) (ready : Bool) : (r.release ready).cnt = r.cnt := by
  unfold BcdSeqRegs.release; split <;> rfl

@[simp] theorem BcdSeqRegs.release_signL (r : BcdSeqRegs W L) (ready : Bool) : (r.release ready).signL = r.signL := by
  unfold BcdSeqRegs.release; split <;> rfl

@[simp] theorem BcdSeqRegs.release_nL (r : BcdSeqRegs W L) (ready : Bool) : (r.release ready).nL = r.nL := by
  unfold BcdSeqRegs.release; split <;> rfl

@[simp] theorem BcdSeqRegs.release_outValid (r : BcdSeqRegs W L) (ready : Bool) : (r.release ready).outValid = (r.outValid && !ready) := by
  cases h : r.outValid <;> cases ready <;> simp [BcdSeqRegs.release, h]

/-! ### Stages of PipelinedMul -/

@[simp] theorem MulStage.capture_valid (valid : Bool) (sign : BitVec 2) (a b : Word W) : (MulStage.capture valid sign a b).valid = valid := rfl

@[simp] theorem MulStage.capture_sign (valid : Bool) (sign : BitVec 2) (a b : Word W) : (MulStage.capture valid sign a b).sign = sign := rfl

@[simp] theorem MulStage.capture_a (valid : Bool) (sign : BitVec 2) (a b : Word W) : (MulStage.capture valid sign a b).a = normA sign a b := rfl

@[simp] theorem MulStage.capture_b (valid : Bool) (sign : BitVec 2) (a b : Word W) : (MulStage.capture valid sign a b).b = normB sign b := rfl

@[simp] theorem MulStage.capture_acc (valid : Bool) (sign : BitVec 2) (a b : Word W) : (MulStage.capture valid sign a b).acc = partialProduct 0 (normA sign a b) (normB sign b) := rfl

@[simp] theorem MulStage.advance_valid (i : Nat) (p : MulStage W) : (p.advance i).valid = p.valid := rfl

@[simp] theorem MulStage.advance_sign (i : Nat) (p : MulStage W) : (p.advance i).sign = p.sign := rfl

@[simp] theorem MulStage.advance_a (i : Nat) (p : MulStage W) : (p.advance i).a = p.a := rfl

@[simp] theorem MulStage.advance_b (i : Nat) (p : MulStage W) : (p.advance i).b = p.b := rfl

@[simp] theorem MulStage.advance_acc (i : Nat) (p : MulStage W) : (p.advance i).acc = p.acc + partialProduct i p.a p.b := rfl

/-! ### Instances: an offer and an edge -/

@[simp] theorem MDiv.offer_W (u : MDiv impl) (cycle : Nat) (payload : BitVec (u.W + u.W + 1)) : (u.offer cycle payload).W = u.W := rfl

@[simp] theorem MDiv.edge_W (u : MDiv impl) (cycle : Nat) : (u.edge cycle).W = u.W := rfl

@[simp] theorem MDiv.offer_regs (u : MDiv impl) (cycle : Nat) (payload : BitVec (u.W + u.W + 1)) : (u.offer cycle payload).regs = u.regs := rfl

@[simp] theorem MDiv.edge_regs (u : MDiv impl) (cycle : Nat) : (u.edge cycle).regs = (u.now cycle).edge impl (u.line cycle) := rfl

@[simp] theorem MDiv.offer_port (u : MDiv impl) (cycle : Nat) (payload : BitVec (u.W + u.W + 1)) : (u.offer cycle payload).port = u.port.offer (dividerOf impl) cycle payload := rfl

@[simp] theorem MDiv.edge_port (u : MDiv impl) (cycle : Nat) : (u.edge cycle).port = u.port.clocked cycle ((u.signals cycle).sent (u.line cycle).ready) := rfl

@[simp] theorem LDiv.offer_W (u : LDiv) (cycle : Nat) (payload : BitVec (u.W + u.W + 1)) : (u.offer cycle payload).W = u.W := rfl

@[simp] theorem LDiv.edge_W (u : LDiv) (cycle : Nat) : (u.edge cycle).W = u.W := rfl

@[simp] theorem LDiv.offer_regs (u : LDiv) (cycle : Nat) (payload : BitVec (u.W + u.W + 1)) : (u.offer cycle payload).regs = u.regs := rfl

@[simp] theorem LDiv.edge_regs (u : LDiv) (cycle : Nat) : (u.edge cycle).regs = (u.now cycle).edge (u.line cycle) := rfl

@[simp] theorem LDiv.offer_port (u : LDiv) (cycle : Nat) (payload : BitVec (u.W + u.W + 1)) : (u.offer cycle payload).port = u.port.offer .ldiv cycle payload := rfl

@[simp] theorem LDiv.edge_port (u : LDiv) (cycle : Nat) : (u.edge cycle).port = u.port.clocked cycle ((u.signals cycle).sent (u.line cycle).ready) := rfl

@[simp] theorem PMul.offer_W (u : PMul) (cycle : Nat) (payload : BitVec (u.W + u.W + 2)) : (u.offer cycle payload).W = u.W := rfl

@[simp] theorem PMul.edge_W (u : PMul) (cycle : Nat) : (u.edge cycle).W = u.W := rfl

@[simp] theorem PMul.offer_stages (u : PMul) (cycle : Nat) (payload : BitVec (u.W + u.W + 2)) : (u.offer cycle payload).stages = u.stages := rfl

@[simp] theorem PMul.edge_stages (u : PMul) (cycle : Nat) : (u.edge cycle).stages = mulEdge (u.now cycle) (u.line cycle) := rfl

@[simp] theorem PMul.offer_port (u : PMul) (cycle : Nat) (payload : BitVec (u.W + u.W + 2)) : (u.offer cycle payload).port = u.port.offer .pmul cycle payload := rfl

@[simp] theorem PMul.edge_port (u : PMul) (cycle : Nat) : (u.edge cycle).port = u.port.clocked cycle ((u.signals cycle).sent (u.line cycle).ready) := rfl

@[simp] theorem MCMul.offer_W (u : MCMul) (cycle : Nat) (payload : BitVec (u.W + u.W + 2)) : (u.offer cycle payload).W = u.W := rfl

@[simp] theorem MCMul.edge_W (u : MCMul) (cycle : Nat) : (u.edge cycle).W = u.W := rfl

@[simp] theorem MCMul.offer_regs (u : MCMul) (cycle : Nat) (payload : BitVec (u.W + u.W + 2)) : (u.offer cycle payload).regs = u.regs := rfl

@[simp] theorem MCMul.edge_regs (u : MCMul) (cycle : Nat) : (u.edge cycle).regs = (u.now cycle).edge (u.line cycle) := rfl

@[simp] theorem MCMul.offer_port (u : MCMul) (cycle : Nat) (payload : BitVec (u.W + u.W + 2)) : (u.offer cycle payload).port = u.port.offer .mcmul cycle payload := rfl

@[simp] theorem MCMul.edge_port (u : MCMul) (cycle : Nat) : (u.edge cycle).port = u.port.clocked cycle ((u.signals cycle).sent (u.line cycle).ready) := rfl

@[simp] theorem Bcd.offer_W (u : Bcd) (cycle : Nat) (payload : BitVec (u.W + 1)) : (u.offer cycle payload).W = u.W := rfl

@[simp] theorem Bcd.edge_W (u : Bcd) (cycle : Nat) : (u.edge cycle).W = u.W := rfl

@[simp] theorem Bcd.offer_limit (u : Bcd) (cycle : Nat) (payload : BitVec (u.W + 1)) : (u.offer cycle payload).limit = u.limit := rfl

@[simp] theorem Bcd.edge_limit (u : Bcd) (cycle : Nat) : (u.edge cycle).limit = u.limit := rfl

@[simp] theorem Bcd.offer_impl (u : Bcd) (cycle : Nat) (payload : BitVec (u.W + 1)) : (u.offer cycle payload).impl = u.impl := rfl

@[simp] theorem Bcd.edge_impl (u : Bcd) (cycle : Nat) : (u.edge cycle).impl = u.impl := rfl

@[simp] theorem Bcd.offer_stageCount (u : Bcd) (cycle : Nat) (payload : BitVec (u.W + 1)) : (u.offer cycle payload).stageCount = u.stageCount := rfl

@[simp] theorem Bcd.edge_stageCount (u : Bcd) (cycle : Nat) : (u.edge cycle).stageCount = u.stageCount := rfl

@[simp] theorem Bcd.offer_latency (u : Bcd) (cycle : Nat) (payload : BitVec (u.W + 1)) : (u.offer cycle payload).latency = u.latency := rfl

@[simp] theorem Bcd.edge_latency (u : Bcd) (cycle : Nat) : (u.edge cycle).latency = u.latency := rfl

@[simp] theorem Bcd.offer_regs (u : Bcd) (cycle : Nat) (payload : BitVec (u.W + 1)) : (u.offer cycle payload).regs = u.regs := rfl

@[simp] theorem Bcd.edge_regs (u : Bcd) (cycle : Nat) : (u.edge cycle).regs = (u.now cycle).edge (u.line cycle) := rfl

@[simp] theorem Bcd.offer_port (u : Bcd) (cycle : Nat) (payload : BitVec (u.W + 1)) : (u.offer cycle payload).port = u.port.offer .bcd cycle payload := rfl

@[simp] theorem Bcd.edge_port (u : Bcd) (cycle : Nat) : (u.edge cycle).port = u.port.clocked cycle ((u.signals cycle).sent (u.line cycle).ready) := rfl

@[simp] theorem Mag.offer_w (u : Mag) (a b : Word u.w) : (u.offer a b).w = u.w := rfl

@[simp] theorem Mag.offer_script (u : Mag) (a b : Word u.w) : (u.offer a b).script = ⟨a, b⟩ :: u.script.tail := rfl

@[simp] theorem Mag.offer_sampled (u : Mag) (a b : Word u.w) : (u.offer a b).sampled = u.sampled := rfl

@[simp] theorem Mag.edge_w (u : Mag) : u.edge.w = u.w := rfl

@[simp] theorem Mag.edge_script (u : Mag) : u.edge.script = u.script.tail := rfl

@[simp] theorem Mag.edge_sampled (u : Mag) : u.edge.sampled = u.signals := rfl

@[simp] theorem Port.offer_log (p : Port inBits outBits) (c : Component) (cycle : Nat) (payload : BitVec inBits) : (p.offer c cycle payload).log = p.log := rfl

@[simp] theorem Port.clocked_script (p : Port inBits outBits) (cycle : Nat) (sent : Option (BitVec outBits)) : (p.clocked cycle sent).script = p.script.tail := rfl

@[simp] theorem Port.clocked_log (p : Port inBits outBits) (cycle : Nat) (sent : Option (BitVec outBits)) : (p.clocked cycle sent).log = p.log ++ (sent.map fun payload => (cycle, payload)).toList := rfl

/-! ### The block: an edge and an offer -/

@[simp] theorem State.edge_cycle (s : State) : s.edge.cycle = s.cycle + 1 := rfl

@[simp] theorem State.edge_nrdiv (s : State) : s.edge.nrdiv = s.nrdiv.edge s.cycle := rfl

@[simp] theorem State.edge_rdiv (s : State) : s.edge.rdiv = s.rdiv.edge s.cycle := rfl

@[simp] theorem State.edge_ldiv (s : State) : s.edge.ldiv = s.ldiv.edge s.cycle := rfl

@[simp] theorem State.edge_pmul (s : State) : s.edge.pmul = s.pmul.edge s.cycle := rfl

@[simp] theorem State.edge_mcmul (s : State) : s.edge.mcmul = s.mcmul.edge s.cycle := rfl

@[simp] theorem State.edge_bcd (s : State) : s.edge.bcd = s.bcd.edge s.cycle := rfl

@[simp] theorem State.edge_mag (s : State) : s.edge.mag = s.mag.edge := rfl

@[simp] theorem State.offerNrdiv_cycle (s : State) (sign : DivSign) (n d : Nat) : (s.offerNrdiv sign n d).cycle = s.cycle := rfl

@[simp] theorem State.offerNrdiv_nrdiv (s : State) (sign : DivSign) (n d : Nat) : (s.offerNrdiv sign n d).nrdiv = s.nrdiv.offer s.cycle (packDivIn sign.bit (fieldWord s.nrdiv.W n) (fieldWord s.nrdiv.W d)) := rfl

@[simp] theorem State.offerNrdiv_rdiv (s : State) (sign : DivSign) (n d : Nat) : (s.offerNrdiv sign n d).rdiv = s.rdiv := rfl

@[simp] theorem State.offerNrdiv_ldiv (s : State) (sign : DivSign) (n d : Nat) : (s.offerNrdiv sign n d).ldiv = s.ldiv := rfl

@[simp] theorem State.offerNrdiv_pmul (s : State) (sign : DivSign) (n d : Nat) : (s.offerNrdiv sign n d).pmul = s.pmul := rfl

@[simp] theorem State.offerNrdiv_mcmul (s : State) (sign : DivSign) (n d : Nat) : (s.offerNrdiv sign n d).mcmul = s.mcmul := rfl

@[simp] theorem State.offerNrdiv_bcd (s : State) (sign : DivSign) (n d : Nat) : (s.offerNrdiv sign n d).bcd = s.bcd := rfl

@[simp] theorem State.offerNrdiv_mag (s : State) (sign : DivSign) (n d : Nat) : (s.offerNrdiv sign n d).mag = s.mag := rfl

@[simp] theorem State.offerRdiv_cycle (s : State) (sign : DivSign) (n d : Nat) : (s.offerRdiv sign n d).cycle = s.cycle := rfl

@[simp] theorem State.offerRdiv_nrdiv (s : State) (sign : DivSign) (n d : Nat) : (s.offerRdiv sign n d).nrdiv = s.nrdiv := rfl

@[simp] theorem State.offerRdiv_rdiv (s : State) (sign : DivSign) (n d : Nat) : (s.offerRdiv sign n d).rdiv = s.rdiv.offer s.cycle (packDivIn sign.bit (fieldWord s.rdiv.W n) (fieldWord s.rdiv.W d)) := rfl

@[simp] theorem State.offerRdiv_ldiv (s : State) (sign : DivSign) (n d : Nat) : (s.offerRdiv sign n d).ldiv = s.ldiv := rfl

@[simp] theorem State.offerRdiv_pmul (s : State) (sign : DivSign) (n d : Nat) : (s.offerRdiv sign n d).pmul = s.pmul := rfl

@[simp] theorem State.offerRdiv_mcmul (s : State) (sign : DivSign) (n d : Nat) : (s.offerRdiv sign n d).mcmul = s.mcmul := rfl

@[simp] theorem State.offerRdiv_bcd (s : State) (sign : DivSign) (n d : Nat) : (s.offerRdiv sign n d).bcd = s.bcd := rfl

@[simp] theorem State.offerRdiv_mag (s : State) (sign : DivSign) (n d : Nat) : (s.offerRdiv sign n d).mag = s.mag := rfl

@[simp] theorem State.offerLdiv_cycle (s : State) (sign : DivSign) (n d : Nat) : (s.offerLdiv sign n d).cycle = s.cycle := rfl

@[simp] theorem State.offerLdiv_nrdiv (s : State) (sign : DivSign) (n d : Nat) : (s.offerLdiv sign n d).nrdiv = s.nrdiv := rfl

@[simp] theorem State.offerLdiv_rdiv (s : State) (sign : DivSign) (n d : Nat) : (s.offerLdiv sign n d).rdiv = s.rdiv := rfl

@[simp] theorem State.offerLdiv_ldiv (s : State) (sign : DivSign) (n d : Nat) : (s.offerLdiv sign n d).ldiv = s.ldiv.offer s.cycle (packDivIn sign.bit (fieldWord s.ldiv.W n) (fieldWord s.ldiv.W d)) := rfl

@[simp] theorem State.offerLdiv_pmul (s : State) (sign : DivSign) (n d : Nat) : (s.offerLdiv sign n d).pmul = s.pmul := rfl

@[simp] theorem State.offerLdiv_mcmul (s : State) (sign : DivSign) (n d : Nat) : (s.offerLdiv sign n d).mcmul = s.mcmul := rfl

@[simp] theorem State.offerLdiv_bcd (s : State) (sign : DivSign) (n d : Nat) : (s.offerLdiv sign n d).bcd = s.bcd := rfl

@[simp] theorem State.offerLdiv_mag (s : State) (sign : DivSign) (n d : Nat) : (s.offerLdiv sign n d).mag = s.mag := rfl

@[simp] theorem State.offerPmul_cycle (s : State) (sign : MulSign) (a b : Nat) : (s.offerPmul sign a b).cycle = s.cycle := rfl

@[simp] theorem State.offerPmul_nrdiv (s : State) (sign : MulSign) (a b : Nat) : (s.offerPmul sign a b).nrdiv = s.nrdiv := rfl

@[simp] theorem State.offerPmul_rdiv (s : State) (sign : MulSign) (a b : Nat) : (s.offerPmul sign a b).rdiv = s.rdiv := rfl

@[simp] theorem State.offerPmul_ldiv (s : State) (sign : MulSign) (a b : Nat) : (s.offerPmul sign a b).ldiv = s.ldiv := rfl

@[simp] theorem State.offerPmul_pmul (s : State) (sign : MulSign) (a b : Nat) : (s.offerPmul sign a b).pmul = s.pmul.offer s.cycle (packMulIn sign.code (fieldWord s.pmul.W a) (fieldWord s.pmul.W b)) := rfl

@[simp] theorem State.offerPmul_mcmul (s : State) (sign : MulSign) (a b : Nat) : (s.offerPmul sign a b).mcmul = s.mcmul := rfl

@[simp] theorem State.offerPmul_bcd (s : State) (sign : MulSign) (a b : Nat) : (s.offerPmul sign a b).bcd = s.bcd := rfl

@[simp] theorem State.offerPmul_mag (s : State) (sign : MulSign) (a b : Nat) : (s.offerPmul sign a b).mag = s.mag := rfl

@[simp] theorem State.offerMcmul_cycle (s : State) (sign : MulSign) (a b : Nat) : (s.offerMcmul sign a b).cycle = s.cycle := rfl

@[simp] theorem State.offerMcmul_nrdiv (s : State) (sign : MulSign) (a b : Nat) : (s.offerMcmul sign a b).nrdiv = s.nrdiv := rfl

@[simp] theorem State.offerMcmul_rdiv (s : State) (sign : MulSign) (a b : Nat) : (s.offerMcmul sign a b).rdiv = s.rdiv := rfl

@[simp] theorem State.offerMcmul_ldiv (s : State) (sign : MulSign) (a b : Nat) : (s.offerMcmul sign a b).ldiv = s.ldiv := rfl

@[simp] theorem State.offerMcmul_pmul (s : State) (sign : MulSign) (a b : Nat) : (s.offerMcmul sign a b).pmul = s.pmul := rfl

@[simp] theorem State.offerMcmul_mcmul (s : State) (sign : MulSign) (a b : Nat) : (s.offerMcmul sign a b).mcmul = s.mcmul.offer s.cycle (packMulIn sign.code (fieldWord s.mcmul.W a) (fieldWord s.mcmul.W b)) := rfl

@[simp] theorem State.offerMcmul_bcd (s : State) (sign : MulSign) (a b : Nat) : (s.offerMcmul sign a b).bcd = s.bcd := rfl

@[simp] theorem State.offerMcmul_mag (s : State) (sign : MulSign) (a b : Nat) : (s.offerMcmul sign a b).mag = s.mag := rfl

@[simp] theorem State.offerBcd_cycle (s : State) (n : Nat) : (s.offerBcd n).cycle = s.cycle := rfl

@[simp] theorem State.offerBcd_nrdiv (s : State) (n : Nat) : (s.offerBcd n).nrdiv = s.nrdiv := rfl

@[simp] theorem State.offerBcd_rdiv (s : State) (n : Nat) : (s.offerBcd n).rdiv = s.rdiv := rfl

@[simp] theorem State.offerBcd_ldiv (s : State) (n : Nat) : (s.offerBcd n).ldiv = s.ldiv := rfl

@[simp] theorem State.offerBcd_pmul (s : State) (n : Nat) : (s.offerBcd n).pmul = s.pmul := rfl

@[simp] theorem State.offerBcd_mcmul (s : State) (n : Nat) : (s.offerBcd n).mcmul = s.mcmul := rfl

@[simp] theorem State.offerBcd_bcd (s : State) (n : Nat) : (s.offerBcd n).bcd = s.bcd.offer s.cycle (packBcdIn DivSign.unsigned.bit (fieldWord s.bcd.W n)) := rfl

@[simp] theorem State.offerBcd_mag (s : State) (n : Nat) : (s.offerBcd n).mag = s.mag := rfl

@[simp] theorem State.offerMag_cycle (s : State) (a b : Nat) : (s.offerMag a b).cycle = s.cycle := rfl

@[simp] theorem State.offerMag_nrdiv (s : State) (a b : Nat) : (s.offerMag a b).nrdiv = s.nrdiv := rfl

@[simp] theorem State.offerMag_rdiv (s : State) (a b : Nat) : (s.offerMag a b).rdiv = s.rdiv := rfl

@[simp] theorem State.offerMag_ldiv (s : State) (a b : Nat) : (s.offerMag a b).ldiv = s.ldiv := rfl

@[simp] theorem State.offerMag_pmul (s : State) (a b : Nat) : (s.offerMag a b).pmul = s.pmul := rfl

@[simp] theorem State.offerMag_mcmul (s : State) (a b : Nat) : (s.offerMag a b).mcmul = s.mcmul := rfl

@[simp] theorem State.offerMag_bcd (s : State) (a b : Nat) : (s.offerMag a b).bcd = s.bcd := rfl

@[simp] theorem State.offerMag_mag (s : State) (a b : Nat) : (s.offerMag a b).mag = s.mag.offer (fieldWord s.mag.w a) (fieldWord s.mag.w b) := rfl

end Sys2Proof.Machine
end

