-- ==== Sys2Proof/Laws/Words.lean ====
section
/-! SUPPORT. What the bit-level operations compute, read as numbers: the counter widths, the two halves of a backing
register, and one law per step of each datapath. -/

namespace Sys2Proof.Machine

/-! ### Widths -/

theorem le_two_pow_clog2 (n : Nat) : n ≤ 2 ^ clog2 n := by
  unfold clog2
  split
  · simpa using ‹n ≤ 1›
  · have h := Nat.lt_log2_self (n := n - 1)
    omega

theorem width_lt_two_pow_clog2 (W : Nat) : W < 2 ^ clog2 (W + 1) := le_two_pow_clog2 (W + 1)

theorem counter_ofNat_toNat (h : k ≤ W) : (BitVec.ofNat (clog2 (W + 1)) k).toNat = k := by
  rw [BitVec.toNat_ofNat]
  exact Nat.mod_eq_of_lt (lt_of_le_of_lt h (width_lt_two_pow_clog2 W))

theorem counter_succ_toNat (c : BitVec (clog2 (W + 1))) (h : c.toNat < W) : (c + 1).toNat = c.toNat + 1 := by
  have hW := width_lt_two_pow_clog2 W
  have h1 : (1 : BitVec (clog2 (W + 1))).toNat = 1 := by
    show (1 : Nat) % 2 ^ clog2 (W + 1) = 1
    exact Nat.mod_eq_of_lt (by omega)
  rw [BitVec.toNat_add, h1]
  exact Nat.mod_eq_of_lt (by omega)

theorem index_pred_toNat (i : BitVec w) (h : i.toNat ≠ 0) : (i - 1).toNat = i.toNat - 1 := by
  have hi := i.isLt
  have h1 : (1 : BitVec w).toNat = 1 := by
    show (1 : Nat) % 2 ^ w = 1
    exact Nat.mod_eq_of_lt (by omega)
  rw [BitVec.toNat_sub, h1]
  have : 2 ^ w - 1 + i.toNat = (i.toNat - 1) + 2 ^ w := by omega
  rw [this, Nat.add_mod_right]
  exact Nat.mod_eq_of_lt (by omega)

/-! ### The two halves of a backing register -/

theorem high_toNat (x : Backing W) : (Backing.high x).toNat = x.toNat / 2 ^ W := by
  have h := x.isLt
  have e : (2 : Nat) ^ (W + 1 + W) = 2 ^ W * 2 ^ (W + 1) := by rw [← pow_add]; congr 1; omega
  simp only [Backing.high, BitVec.extractLsb'_toNat, Nat.shiftRight_eq_div_pow]
  exact Nat.mod_eq_of_lt (Nat.div_lt_of_lt_mul (by rw [← e]; exact h))

theorem low_toNat (x : Backing W) : (Backing.low x).toNat = x.toNat % 2 ^ W := by
  simp [Backing.low, BitVec.extractLsb'_toNat]

theorem backing_toNat (x : Backing W) : x.toNat = (Backing.high x).toNat * 2 ^ W + (Backing.low x).toNat := by
  rw [high_toNat, low_toNat, Nat.mul_comm]
  exact (Nat.div_add_mod _ _).symm

@[simp] theorem high_append (h : BitVec (W + 1)) (l : Word W) : Backing.high (h ++ l) = h := by
  apply BitVec.eq_of_toNat_eq
  rw [high_toNat, BitVec.toNat_append, Nat.shiftLeft_eq, Nat.mul_comm, ← Nat.two_pow_add_eq_or_of_lt l.isLt]
  have hl := l.isLt
  rw [Nat.mul_add_div (by positivity), Nat.div_eq_of_lt hl, Nat.add_zero]

@[simp] theorem low_append (h : BitVec (W + 1)) (l : Word W) : Backing.low (h ++ l) = l := by
  apply BitVec.eq_of_toNat_eq
  rw [low_toNat, BitVec.toNat_append, Nat.shiftLeft_eq, Nat.mul_comm, ← Nat.two_pow_add_eq_or_of_lt l.isLt,
    Nat.mul_add_mod, Nat.mod_eq_of_lt l.isLt]

theorem backing_ext {x y : Backing W} (hh : Backing.high x = Backing.high y) (hl : Backing.low x = Backing.low y) :
    x = y := by
  apply BitVec.eq_of_toNat_eq
  rw [backing_toNat x, backing_toNat y, hh, hl]

/-! ### The register shifted left by one -/

/-- The high half after the shift, as a number: the bit that leaves the low half enters it. -/
theorem high_shift_toNat (x : Backing W) (hW : 1 ≤ W) :
    (Backing.high (x <<< 1)).toNat =
      (2 * (Backing.high x).toNat + (Backing.low x).toNat / 2 ^ (W - 1)) % 2 ^ (W + 1) := by
  obtain ⟨k, rfl⟩ : ∃ k, W = k + 1 := ⟨W - 1, by omega⟩
  have e := backing_toNat x
  rw [high_toNat, BitVec.toNat_shiftLeft, Nat.shiftLeft_eq]
  generalize (Backing.high x).toNat = H at *
  generalize (Backing.low x).toNat = L at *
  rw [e]
  have p : (2 : Nat) ^ (k + 1 + 1 + (k + 1)) = 2 ^ (k + 1) * 2 ^ (k + 1 + 1) := by rw [← pow_add]; congr 1; omega
  rw [p, Nat.mod_mul_right_div_self]
  congr 1
  have q : (H * 2 ^ (k + 1) + L) * 2 ^ 1 = 2 ^ (k + 1) * (2 * H) + 2 * L := by ring
  rw [q, Nat.mul_add_div (by positivity), pow_succ, Nat.mul_comm (2 ^ k) 2, Nat.mul_div_mul_left _ _ (by norm_num)]
  simp

/-- The low half after the shift, as a number. -/
theorem low_shift_toNat (x : Backing W) : (Backing.low (x <<< 1)).toNat = 2 * (Backing.low x).toNat % 2 ^ W := by
  have p : (2 : Nat) ^ (W + 1 + W) = 2 ^ W * 2 ^ (W + 1) := by rw [← pow_add]; congr 1; omega
  rw [low_toNat, low_toNat, BitVec.toNat_shiftLeft, Nat.shiftLeft_eq, p, Nat.mod_mul_right_mod, pow_one, Nat.mul_comm,
    Nat.mul_mod, Nat.mul_mod 2 (x.toNat % 2 ^ W)]
  simp

/-- A quotient bit put into the free place of a shifted low half adds its value. -/
theorem withQuotientBit_toNat (l : Word W) (b : Bool) (hW : 1 ≤ W) (he : l.toNat % 2 = 0) :
    (withQuotientBit l b).toNat = l.toNat + b.toNat := by
  have h1 : ((BitVec.ofBool b).setWidth W).toNat = b.toNat := by
    rw [BitVec.toNat_setWidth, BitVec.toNat_ofBool]
    refine Nat.mod_eq_of_lt (lt_of_lt_of_le (Bool.toNat_lt b) ?_)
    exact Nat.le_self_pow (by omega) 2
  rw [withQuotientBit, BitVec.toNat_or, h1]
  obtain ⟨m, hm⟩ : ∃ m, l.toNat = 2 ^ 1 * m := ⟨l.toNat / 2, by omega⟩
  rw [hm]
  exact (Nat.two_pow_add_eq_or_of_lt (by simpa using Bool.toNat_lt b) m).symm

theorem low_shift_even (x : Backing W) (hW : 1 ≤ W) : (Backing.low (x <<< 1)).toNat % 2 = 0 := by
  rw [low_shift_toNat]
  obtain ⟨k, rfl⟩ : ∃ k, W = k + 1 := ⟨W - 1, by omega⟩
  rw [pow_succ, Nat.mul_comm (2 ^ k) 2, Nat.mul_mod_mul_left]
  simp

end Sys2Proof.Machine
end

