-- ==== Sys2Proof/Laws/Datapath.lean ====
section
/-! SUPPORT. One law per datapath operation: what it computes, read as numbers. -/

namespace Sys2Proof.Machine

/-! ### Reading signed words -/

/-- A number in the signed range of `w+1` bits is its own balanced residue. -/
theorem bmod_exact {x : Int} (w : Nat) (hl : -(2 : Int) ^ w ≤ x) (hu : x < (2 : Int) ^ w) :
    x.bmod (2 ^ (w + 1)) = x := by
  have e : ((2 ^ (w + 1) : Nat) : Int) = 2 * (2 : Int) ^ w := by push_cast; ring
  apply Int.bmod_eq_of_le
  · rw [e, Int.mul_ediv_cancel_left _ (by norm_num)]; exact hl
  · rw [e]; omega

theorem setWidth_succ_toInt (d : Word W) : (d.setWidth (W + 1)).toInt = (d.toNat : Int) := by
  have h := d.isLt
  have h' : (d.toNat : Int) < (2 : Int) ^ W := by exact_mod_cast h
  have h0 : (0 : Int) ≤ (2 : Int) ^ W := by positivity
  rw [BitVec.toInt_setWidth]
  exact bmod_exact W (by omega) h'

theorem backing_msb (x : Backing W) : x.msb = (Backing.high x).msb := by
  have hx := x.isLt
  have hh := high_toNat x
  rw [BitVec.msb_eq_decide, BitVec.msb_eq_decide, hh]
  have p : (2 : Nat) ^ (W + 1 + W - 1) = 2 ^ W * 2 ^ W := by rw [← pow_add]; congr 1; omega
  simp only [p, Nat.add_sub_cancel]
  congr 1
  exact propext (Nat.le_div_iff_mul_le (by positivity)).symm

theorem high_shift_toInt (x : Backing W) (hW : 1 ≤ W) :
    (Backing.high (x <<< 1)).toInt =
      (2 * (Backing.high x).toInt + (((Backing.low x).toNat / 2 ^ (W - 1) : Nat) : Int)).bmod (2 ^ (W + 1)) := by
  rw [BitVec.toInt_eq_toNat_bmod, high_shift_toNat x hW, BitVec.toInt_eq_toNat_bmod]
  generalize (Backing.high x).toNat = H
  generalize (Backing.low x).toNat / 2 ^ (W - 1) = b
  generalize 2 ^ (W + 1) = m
  rw [Int.natCast_emod, Int.emod_bmod]
  push_cast
  calc ((2 : Int) * H + b).bmod m = ((H : Int) + (H + b)).bmod m := by congr 1; ring
    _ = ((H : Int).bmod m + (H + b)).bmod m := (Int.bmod_add_bmod ..).symm
    _ = ((H : Int) + ((H : Int).bmod m + b)).bmod m := by congr 1; ring
    _ = ((H : Int).bmod m + ((H : Int).bmod m + b)).bmod m := (Int.bmod_add_bmod ..).symm
    _ = (2 * (H : Int).bmod m + b).bmod m := by congr 1; ring

/-! ### The divider core (41_multicycle_div.md R124, R125, R127) -/

/-- `RSTEP` where no bit is lost by the shift and the trial difference fits (R129): subtract when the divisor fits, and
shift the decision into the quotient. -/
theorem rstep_spec (x : Backing W) (dc : Word W) (h' : Nat) (hW : 1 ≤ W)
    (hh : h' = 2 * (Backing.high x).toNat + (Backing.low x).toNat / 2 ^ (W - 1)) (hfit : h' < 2 ^ (W + 1))
    (hdiff : h' < dc.toNat + 2 ^ W) :
    (Backing.high (rstep x dc)).toNat = (if dc.toNat ≤ h' then h' - dc.toNat else h') ∧
      (Backing.low (rstep x dc)).toNat =
        2 * (Backing.low x).toNat % 2 ^ W + (if dc.toNat ≤ h' then 1 else 0) := by
  have hs : (Backing.high (x <<< 1)).toNat = h' := by
    rw [high_shift_toNat x hW, ← hh]; exact Nat.mod_eq_of_lt hfit
  have hd := dc.isLt
  have p : (2 : Nat) ^ (W + 1) = 2 * 2 ^ W := by ring
  have hdw : (dc.setWidth (W + 1)).toNat = dc.toNat := by
    rw [BitVec.toNat_setWidth]; exact Nat.mod_eq_of_lt (by omega)
  have ht : (Backing.high (x <<< 1) - dc.setWidth (W + 1)).toNat =
      if dc.toNat ≤ h' then h' - dc.toNat else 2 ^ (W + 1) + h' - dc.toNat := by
    rw [BitVec.toNat_sub, hs, hdw]
    split
    · have : 2 ^ (W + 1) - dc.toNat + h' = (h' - dc.toNat) + 2 ^ (W + 1) := by omega
      rw [this, Nat.add_mod_right]; exact Nat.mod_eq_of_lt (by omega)
    · rw [Nat.mod_eq_of_lt (by omega)]; omega
  have hm : (Backing.high (x <<< 1) - dc.setWidth (W + 1)).msb = decide (¬ dc.toNat ≤ h') := by
    rw [BitVec.msb_eq_decide, ht, Nat.add_sub_cancel]
    congr 1
    apply propext
    split <;> omega
  unfold rstep
  simp only [hm]
  by_cases c : dc.toNat ≤ h'
  · simp only [c, not_true_eq_false, decide_false, Bool.false_eq_true, ↓reduceIte, high_append, low_append, ht]
    refine ⟨trivial, ?_⟩
    rw [withQuotientBit_toNat _ _ hW (low_shift_even x hW), low_shift_toNat]; rfl
  · simp only [c, not_false_eq_true, decide_true, ↓reduceIte, hs, low_shift_toNat]
    simp

/-- `NRSTEP` where the exact value of the step lies in the signed range of `W+1` bits (R133): add or subtract by the sign
of the running remainder, and shift the decision into the quotient. -/
theorem nrstep_spec (x : Backing W) (dc : Word W) (a : Int) (hW : 1 ≤ W)
    (ha : a = 2 * (Backing.high x).toInt + (((Backing.low x).toNat / 2 ^ (W - 1) : Nat) : Int) +
      (if (Backing.high x).toInt < 0 then (dc.toNat : Int) else -(dc.toNat : Int)))
    (hl : -(2 : Int) ^ W ≤ a) (hu : a < (2 : Int) ^ W) :
    (Backing.high (nrstep x dc)).toInt = a ∧
      (Backing.low (nrstep x dc)).toNat =
        2 * (Backing.low x).toNat % 2 ^ W + (if (Backing.high x).toInt < 0 then 0 else 1) := by
  have hx : x.msb = decide ((Backing.high x).toInt < 0) := by
    rw [backing_msb, BitVec.msb_eq_toInt]
  unfold nrstep
  simp only [high_append, low_append, hx]
  constructor
  · by_cases c : (Backing.high x).toInt < 0
    · simp only [c, decide_true, ↓reduceIte] at ha ⊢
      rw [BitVec.toInt_add, high_shift_toInt x hW, setWidth_succ_toInt, Int.bmod_add_bmod, ← ha]
      exact bmod_exact W hl hu
    · simp only [c, decide_false, Bool.false_eq_true, ↓reduceIte] at ha ⊢
      rw [BitVec.toInt_sub, high_shift_toInt x hW, setWidth_succ_toInt, Int.sub_eq_add_neg, Int.bmod_add_bmod, ← ha]
      exact bmod_exact W hl hu
  · rw [withQuotientBit_toNat _ _ hW (low_shift_even x hW), low_shift_toNat]
    by_cases c : (Backing.high x).toInt < 0 <;> simp [c]

/-- `NRFIX` for a remainder at least `-d` (R127): the negative remainder is restored, and the quotient is `2P + 1 - 2^W`,
one less where it was. -/
theorem nrfix_spec (x : Backing W) (dc : Word W) (hl : -(dc.toNat : Int) ≤ (Backing.high x).toInt) :
    (Backing.high (nrfix x dc)).toInt =
        (if (Backing.high x).toInt < 0 then (Backing.high x).toInt + dc.toNat else (Backing.high x).toInt) ∧
      ((Backing.low (nrfix x dc)).toNat : Int) =
        (2 * ((Backing.low x).toNat : Int) + 1 - (if (Backing.high x).toInt < 0 then 1 else 0)) % 2 ^ W := by
  have hx : (Backing.high x).msb = decide ((Backing.high x).toInt < 0) := BitVec.msb_eq_toInt
  have hd := dc.isLt
  have hd' : (dc.toNat : Int) < (2 : Int) ^ W := by exact_mod_cast hd
  have hL := (Backing.low x).isLt
  have hq : ((Backing.low x - ~~~(Backing.low x)).toNat : Int) = (2 * ((Backing.low x).toNat : Int) + 1) % 2 ^ W := by
    rw [BitVec.toNat_sub, BitVec.toNat_not]
    have : 2 ^ W - (2 ^ W - 1 - (Backing.low x).toNat) + (Backing.low x).toNat = 2 * (Backing.low x).toNat + 1 := by omega
    rw [this]; push_cast; rfl
  unfold nrfix
  simp only [hx]
  by_cases c : (Backing.high x).toInt < 0
  · simp only [c, decide_true, ↓reduceIte, high_append, low_append]
    constructor
    · rw [BitVec.toInt_add, setWidth_succ_toInt]
      exact bmod_exact W (by omega) (by omega)
    · have h1 : ((Backing.low x - ~~~(Backing.low x) - 1#W).toNat : Int) =
          (((Backing.low x - ~~~(Backing.low x)).toNat : Int) - 1) % 2 ^ W := by
        rw [BitVec.toNat_sub, BitVec.toNat_ofNat]
        have hp : 1 % 2 ^ W ≤ 2 ^ W := le_of_lt (Nat.mod_lt _ (by positivity))
        push_cast [Nat.cast_sub hp]
        rw [show ((2 : Int) ^ W - 1 % 2 ^ W + ((Backing.low x - ~~~(Backing.low x)).toNat : Int)) =
          (((Backing.low x - ~~~(Backing.low x)).toNat : Int) - 1 % 2 ^ W) + 2 ^ W by ring, Int.add_emod_right,
          Int.sub_emod_emod]
      rw [h1, hq, Int.emod_sub_emod]
  · simp only [c, decide_false, Bool.false_eq_true, ↓reduceIte, high_append, low_append, hq]
    simp

/-! ### The long divider (42_long_divider.md R163) -/

/-- A number in the signed range of `2W` bits is its own balanced residue. -/
theorem bmod_exact_double {x : Int} (hW : 1 ≤ W) (hl : -(2 : Int) ^ (W + W - 1) ≤ x)
    (hu : x < (2 : Int) ^ (W + W - 1)) : x.bmod (2 ^ (W + W)) = x := by
  obtain ⟨k, rfl⟩ : ∃ k, W = k + 1 := ⟨W - 1, by omega⟩
  exact bmod_exact (k + 1 + (k + 1) - 1) hl hu

theorem signExtend_double_toInt (v : BitVec (W + 1)) (hW : 1 ≤ W) : (v.signExtend (W + W)).toInt = v.toInt :=
  BitVec.toInt_signExtend_of_le (by omega)

/-- The shifted divisor is exact where it fits `2W` signed bits (R163, R169). -/
theorem longCandidate_toInt (i : Nat) (dv : BitVec (W + 1)) (hW : 1 ≤ W)
    (hl : -(2 : Int) ^ (W + W - 1) ≤ dv.toInt * 2 ^ i) (hu : dv.toInt * 2 ^ i < (2 : Int) ^ (W + W - 1)) :
    (longCandidate i dv).toInt = dv.toInt * 2 ^ i := by
  have h : longCandidate i dv = BitVec.ofInt (W + W) (dv.toInt * 2 ^ i) := by
    apply BitVec.eq_of_toInt_eq
    rw [BitVec.toInt_ofInt, longCandidate, BitVec.toInt_shiftLeft, Nat.shiftLeft_eq, ← signExtend_double_toInt dv hW,
      BitVec.toInt_eq_toNat_bmod]
    push_cast
    generalize ((dv.signExtend (W + W)).toNat : Int) = t
    exact (Int.bmod_mul_bmod ..).symm
  rw [h, BitVec.toInt_ofInt]
  exact bmod_exact_double hW hl hu

/-- `LSTEP`, the remainder: unchanged while it is smaller in magnitude than the candidate, otherwise moved by it, exactly
where the result fits (R163). -/
theorem lstepRem_spec (i : Nat) (rem : DWord W) (dv : BitVec (W + 1)) (same : Bool) (c : Int) (hW : 1 ≤ W)
    (hc : (longCandidate i dv).toInt = c)
    (hl : -(2 : Int) ^ (W + W - 1) ≤ (if same then rem.toInt - c else rem.toInt + c))
    (hu : (if same then rem.toInt - c else rem.toInt + c) < (2 : Int) ^ (W + W - 1)) :
    (lstepRem i rem dv same).toInt =
      if rem.toInt.natAbs < c.natAbs then rem.toInt else if same then rem.toInt - c else rem.toInt + c := by
  unfold lstepRem longTakes magCompare
  simp only [hc]
  by_cases k : rem.toInt.natAbs < c.natAbs
  · simp [k]
  · simp only [k, decide_false, Bool.not_false, ↓reduceIte]
    cases same
    · simp only [Bool.false_eq_true, ↓reduceIte] at hl hu ⊢
      rw [BitVec.toInt_add, hc]; exact bmod_exact_double hW hl hu
    · simp only [↓reduceIte] at hl hu ⊢
      rw [BitVec.toInt_sub, hc]; exact bmod_exact_double hW hl hu

/-- `LSTEP`, the quotient: it moves by `2^i` exactly when the remainder moves (R163). -/
theorem lstepQuo_spec (i : Nat) (rem : DWord W) (dv : BitVec (W + 1)) (same : Bool) (q : Word W) :
    lstepQuo i rem dv same q =
      if rem.toInt.natAbs < (longCandidate i dv).toInt.natAbs then q
      else q + BitVec.ofInt W (if same then 2 ^ i else -2 ^ i) := by
  have e : BitVec.twoPow W i = BitVec.ofInt W (2 ^ i) := by
    rw [show ((2 : Int) ^ i) = ((2 ^ i : Nat) : Int) by push_cast; rfl, BitVec.ofInt_natCast]
    exact BitVec.eq_of_toNat_eq (by rw [BitVec.toNat_twoPow, BitVec.toNat_ofNat])
  unfold lstepQuo longTakes magCompare
  by_cases k : rem.toInt.natAbs < (longCandidate i dv).toInt.natAbs
  · simp [k]
  · cases same
    · simp only [k, decide_false, Bool.not_false, Bool.false_eq_true, ↓reduceIte, e, BitVec.ofInt_neg, BitVec.sub_eq_add_neg]
    · simp only [k, decide_false, Bool.not_false, ↓reduceIte, e]

/-! ### The multipliers (43_pipelined_mul.md R191, 44_multicycle_mul.md R213) -/

/-- The partial product of bit `i` is `2^i` times the addend, or nothing (R191). -/
theorem partialProduct_spec (i : Nat) (a : BitVec (W + 1)) (b : Word W) (hW : 1 ≤ W) :
    partialProduct i a b = BitVec.ofInt (W + W) (if b.getLsbD i then a.toInt * 2 ^ i else 0) := by
  unfold partialProduct
  by_cases h : b.getLsbD i
  · simp only [h, ↓reduceIte]
    apply BitVec.eq_of_toInt_eq
    rw [BitVec.toInt_ofInt, BitVec.toInt_shiftLeft, Nat.shiftLeft_eq, ← signExtend_double_toInt a hW,
      BitVec.toInt_eq_toNat_bmod]
    push_cast
    generalize ((a.signExtend (W + W)).toNat : Int) = t
    exact (Int.bmod_mul_bmod ..).symm
  · simp [h]

/-- The conditional add of `MSTEP` works on the high half alone (R213). -/
theorem mstepAdd_halves (x : Backing W) (a1 : BitVec (W + 1)) :
    Backing.high (mstepAdd x a1) = Backing.high x + (if x.getLsbD 0 then a1 else 0#(W + 1)) ∧
      Backing.low (mstepAdd x a1) = Backing.low x := by
  have hl : Backing.low (x + (a1 ++ 0#W)) = Backing.low x := by
    apply BitVec.eq_of_toNat_eq
    rw [low_toNat, low_toNat, BitVec.toNat_add, BitVec.toNat_append]
    have p : (2 : Nat) ^ (W + 1 + W) = 2 ^ W * 2 ^ (W + 1) := by rw [← pow_add]; congr 1; omega
    rw [p, Nat.mod_mul_right_mod]
    simp [Nat.shiftLeft_eq]
  have hh : Backing.high (x + (a1 ++ 0#W)) = Backing.high x + a1 := by
    apply BitVec.eq_of_toNat_eq
    rw [high_toNat, BitVec.toNat_add, BitVec.toNat_add, BitVec.toNat_append, high_toNat]
    have p : (2 : Nat) ^ (W + 1 + W) = 2 ^ W * 2 ^ (W + 1) := by rw [← pow_add]; congr 1; omega
    rw [p, Nat.mod_mul_right_div_self]
    congr 1
    simp only [BitVec.toNat_ofNat, Nat.zero_mod, Nat.or_zero, Nat.shiftLeft_eq]
    rw [Nat.add_mul_div_right _ _ (by positivity)]
  unfold mstepAdd
  by_cases h : x.getLsbD 0
  · simp only [h, ↓reduceIte, hl, hh, and_self]
  · simp only [h, Bool.false_eq_true, ↓reduceIte, BitVec.add_zero, and_self]

/-- The low half after a right shift by one: the high half's last bit enters it, whatever fills the top. -/
theorem low_of_half (x y : Backing W) (hW : 1 ≤ W) (h : y.toNat % 2 ^ (W + W) = x.toNat / 2 % 2 ^ (W + W)) :
    (Backing.low y).toNat = (Backing.high x).toNat % 2 * 2 ^ (W - 1) + (Backing.low x).toNat / 2 := by
  obtain ⟨k, rfl⟩ : ∃ k, W = k + 1 := ⟨W - 1, by omega⟩
  have d : (2 : Nat) ^ (k + 1 + (k + 1)) = 2 ^ (k + 1) * 2 ^ (k + 1) := pow_add ..
  have h' : y.toNat % 2 ^ (k + 1) = x.toNat / 2 % 2 ^ (k + 1) := by
    have := congrArg (· % 2 ^ (k + 1)) h
    simpa [d, Nat.mod_mul_right_mod] using this
  rw [low_toNat, h', backing_toNat x]
  generalize (Backing.high x).toNat = H
  have hl := (Backing.low x).isLt
  generalize (Backing.low x).toNat = L at *
  have e : (2 : Nat) ^ (k + 1) = 2 * 2 ^ k := by ring
  rw [e] at hl ⊢
  rw [Nat.add_sub_cancel, show H * (2 * 2 ^ k) + L = L + 2 * (H * 2 ^ k) by ring, Nat.add_mul_div_left _ _ (by norm_num)]
  have hm : H * 2 ^ k = 2 * 2 ^ k * (H / 2) + H % 2 * 2 ^ k := by
    conv_lhs => rw [← Nat.div_add_mod H 2]
    ring
  have hb : L / 2 < 2 ^ k := by omega
  rw [hm, show L / 2 + (2 * 2 ^ k * (H / 2) + H % 2 * 2 ^ k) = (H % 2 * 2 ^ k + L / 2) + 2 * 2 ^ k * (H / 2) by ring,
    Nat.add_mul_mod_self_left]
  apply Nat.mod_eq_of_lt
  rcases Nat.mod_two_eq_zero_or_one H with c | c <;> rw [c] <;> omega

/-- `MSTEP` for `UNSIGNED`: the partial product, read unsigned, is halved and its last bit moves down (R213). -/
theorem mstep_unsigned_spec (x : Backing W) (a1 : BitVec (W + 1)) (hW : 1 ≤ W) :
    (Backing.high (mstep x a1 MulSign.unsigned.code)).toNat = (Backing.high (mstepAdd x a1)).toNat / 2 ∧
      (Backing.low (mstep x a1 MulSign.unsigned.code)).toNat =
        (Backing.high (mstepAdd x a1)).toNat % 2 * 2 ^ (W - 1) + (Backing.low x).toNat / 2 := by
  have e : mstep x a1 MulSign.unsigned.code = mstepAdd x a1 >>> 1 := by simp [mstep]
  have t : (mstepAdd x a1 >>> 1).toNat = (mstepAdd x a1).toNat / 2 := by simp [BitVec.toNat_ushiftRight, Nat.shiftRight_eq_div_pow]
  rw [e]
  constructor
  · rw [high_toNat, high_toNat, t, Nat.div_div_eq_div_mul, Nat.div_div_eq_div_mul, Nat.mul_comm]
  · rw [low_of_half (mstepAdd x a1) _ hW (by rw [t]), (mstepAdd_halves x a1).2]

/-- `MSTEP` for `SIGNED` and `SIGNED_UNSIGNED`: the partial product, read signed, is halved rounding down, and its last bit
moves down (R213). -/
theorem mstep_signed_spec (x : Backing W) (a1 : BitVec (W + 1)) (sign : BitVec 2) (hW : 1 ≤ W)
    (hs : sign ≠ MulSign.unsigned.code) :
    (Backing.high (mstep x a1 sign)).toInt = (Backing.high (mstepAdd x a1)).toInt / 2 ∧
      (Backing.low (mstep x a1 sign)).toNat =
        (Backing.high (mstepAdd x a1)).toNat % 2 * 2 ^ (W - 1) + (Backing.low x).toNat / 2 := by
  have e : mstep x a1 sign = (mstepAdd x a1).sshiftRight 1 := by simp [mstep, hs]
  rw [e, ← (mstepAdd_halves x a1).2]
  generalize mstepAdd x a1 = y
  have hi : ∀ z : Backing W, (Backing.high z).toInt = z.toInt / 2 ^ W := by
    intro z
    have hz := backing_toNat z
    have hl := (Backing.low z).isLt
    have hl' : ((Backing.low z).toNat : Int) < 2 ^ W := by exact_mod_cast hl
    rw [BitVec.toInt_eq_msb_cond, BitVec.toInt_eq_msb_cond, backing_msb z, hz]
    have p : ((2 ^ (W + 1 + W) : Nat) : Int) = 2 ^ (W + 1) * 2 ^ W := by push_cast; rw [pow_add]
    rw [p]
    push_cast
    have hpos : (0 : Int) < 2 ^ W := by positivity
    have hdiv : ((Backing.low z).toNat : Int) / 2 ^ W = 0 := Int.ediv_eq_zero_of_lt (by positivity) hl'
    split
    · rw [show ((Backing.high z).toNat : Int) * 2 ^ W + (Backing.low z).toNat - 2 ^ (W + 1) * 2 ^ W =
        (Backing.low z).toNat + 2 ^ W * ((Backing.high z).toNat - 2 ^ (W + 1)) by ring,
        Int.add_mul_ediv_left _ _ hpos.ne', hdiv, zero_add]
    · rw [show ((Backing.high z).toNat : Int) * 2 ^ W + (Backing.low z).toNat =
        (Backing.low z).toNat + 2 ^ W * (Backing.high z).toNat by ring,
        Int.add_mul_ediv_left _ _ hpos.ne', hdiv, zero_add]
  constructor
  · rw [hi, hi, BitVec.toInt_sshiftRight, Int.shiftRight_eq_div_pow, Int.ediv_ediv_of_nonneg (by positivity),
      Int.ediv_ediv_of_nonneg (by positivity), mul_comm]
    norm_num
  · apply low_of_half y _ hW
    have b : (y.sshiftRight 1).setWidth (W + W) = (y >>> 1).setWidth (W + W) := by
      apply BitVec.eq_of_getLsbD_eq
      intro i hi
      have h1 : i < W + 1 + W := by omega
      have h2 : 1 + i < W + 1 + W := by omega
      rw [BitVec.getLsbD_setWidth, BitVec.getLsbD_setWidth, BitVec.getLsbD_sshiftRight, BitVec.getLsbD_ushiftRight]
      simp [hi, h1, h2]
    have t := congrArg BitVec.toNat b
    simpa [BitVec.toNat_ushiftRight, Nat.shiftRight_eq_div_pow] using t

end Sys2Proof.Machine
end

