-- ==== Sys2Proof/Laws/Payload.lean ====
section
/-! SUPPORT. Reading a packed payload's fields back, and packing what was read. -/

namespace Sys2Proof

@[simp] theorem DivSign.ofBit_bit (s : DivSign) : DivSign.ofBit s.bit = s := by cases s <;> rfl

@[simp] theorem DivSign.bit_ofBit (b : BitVec 1) : (DivSign.ofBit b).bit = b := by revert b; decide

@[simp] theorem MulSign.ofCode_code (s : MulSign) : MulSign.ofCode s.code = some s := by cases s <;> rfl

theorem MulSign.code_of_ofCode {c : BitVec 2} {s : MulSign} (h : MulSign.ofCode c = some s) : s.code = c := by
  revert c s; decide

theorem MulSign.ofCode_eq_none {c : BitVec 2} : MulSign.ofCode c = none ↔ c = 3#2 := by revert c; decide

/-- The low part of an appended word. -/
theorem extract_low (h : BitVec m) (l : BitVec n) : (h ++ l).extractLsb' 0 n = l := by
  apply BitVec.eq_of_getLsbD_eq
  intro i hi
  simp [BitVec.getLsbD_append, hi]

/-- The high part of an appended word. -/
theorem extract_high (h : BitVec m) (l : BitVec n) : (h ++ l).extractLsb' n m = h := by
  apply BitVec.eq_of_getLsbD_eq
  intro i hi
  simp [BitVec.getLsbD_append, hi]

/-- A word is its high part over its low part. -/
theorem append_extracts (p : BitVec (m + n)) : p.extractLsb' n m ++ p.extractLsb' 0 n = p := by
  apply BitVec.eq_of_getLsbD_eq
  intro i hi
  simp only [BitVec.getLsbD_append, BitVec.getLsbD_extractLsb']
  by_cases c : i < n
  · simp [c]
  · have : i - n < m := by omega
    simp [c, this, show n + (i - n) = i by omega]

/-- The middle part of three appended words. -/
theorem extract_middle (h : BitVec k) (m : BitVec w) (l : BitVec n) : (h ++ m ++ l).extractLsb' n w = m := by
  apply BitVec.eq_of_getLsbD_eq
  intro i hi
  simp [BitVec.getLsbD_append, hi]

/-- The high part of three appended words. -/
theorem extract_top (h : BitVec k) (m : BitVec w) (l : BitVec n) : (h ++ m ++ l).extractLsb' (w + n) k = h := by
  apply BitVec.eq_of_getLsbD_eq
  intro i hi
  simp only [BitVec.getLsbD_append, BitVec.getLsbD_extractLsb', hi, decide_true, Bool.true_and]
  have a : ¬ w + n + i < n := by omega
  have b : ¬ w + n + i - n < w := by omega
  simp [a, b, show w + n + i - n - w = i by omega]

@[simp] theorem divSignField_packDivIn (sign : BitVec 1) (n d : Word W) : divSignField (packDivIn sign n d) = sign :=
  extract_low _ _

@[simp] theorem divLowField_packDivIn (sign : BitVec 1) (n d : Word W) : divLowField (packDivIn sign n d) = n :=
  extract_middle _ _ _

@[simp] theorem divHighField_packDivIn (sign : BitVec 1) (n d : Word W) : divHighField (packDivIn sign n d) = d :=
  extract_top _ _ _

@[simp] theorem divSignField_packDivOut (sign : BitVec 1) (q r : Word W) : divSignField (packDivOut sign q r) = sign :=
  extract_low _ _

@[simp] theorem divLowField_packDivOut (sign : BitVec 1) (q r : Word W) : divLowField (packDivOut sign q r) = q :=
  extract_middle _ _ _

@[simp] theorem divHighField_packDivOut (sign : BitVec 1) (q r : Word W) : divHighField (packDivOut sign q r) = r :=
  extract_top _ _ _

@[simp] theorem mulSignField_packMulIn (sign : BitVec 2) (a b : Word W) : mulSignField (packMulIn sign a b) = sign :=
  extract_low _ _

@[simp] theorem mulAField_packMulIn (sign : BitVec 2) (a b : Word W) : mulAField (packMulIn sign a b) = a :=
  extract_middle _ _ _

@[simp] theorem mulBField_packMulIn (sign : BitVec 2) (a b : Word W) : mulBField (packMulIn sign a b) = b :=
  extract_top _ _ _

@[simp] theorem mulSignField_packMulOut (sign : BitVec 2) (o : DWord W) : mulSignField (packMulOut sign o) = sign :=
  extract_low _ _

@[simp] theorem mulOutField_packMulOut (sign : BitVec 2) (o : DWord W) : mulOutField (packMulOut sign o) = o :=
  extract_high _ _

@[simp] theorem bcdSignField_packBcdIn (sign : BitVec 1) (n : Word W) : bcdSignField (packBcdIn sign n) = sign :=
  extract_low _ _

@[simp] theorem bcdNField_packBcdIn (sign : BitVec 1) (n : Word W) : bcdNField (packBcdIn sign n) = n :=
  extract_high _ _

@[simp] theorem bcdDigitsField_packBcdOut (sign : BitVec 1) (digits : BitVec (4 * D)) :
    bcdDigitsField (packBcdOut sign digits) = digits := extract_high _ _

@[simp] theorem magAField_packMag (a b : Word w) : magAField (packMag a b) = a := extract_low _ _

@[simp] theorem magBField_packMag (a b : Word w) : magBField (packMag a b) = b := extract_high _ _

/-- A `DIV_IN` payload is its packed fields. -/
theorem packDivIn_fields (p : BitVec (W + W + 1)) : packDivIn (divSignField p) (divLowField p) (divHighField p) = p := by
  apply BitVec.eq_of_getLsbD_eq
  intro i hi
  simp only [packDivIn, divSignField, divLowField, divHighField, BitVec.getLsbD_append, BitVec.getLsbD_extractLsb']
  by_cases a : i < 1
  · simp [a]
  · by_cases b : i - 1 < W
    · simp [a, b, show 1 + (i - 1) = i by omega]
    · simp [a, b, show i - 1 - W < W by omega, show W + 1 + (i - 1 - W) = i by omega]

/-- A `MUL_IN` payload is its packed fields. -/
theorem packMulIn_fields (p : BitVec (W + W + 2)) : packMulIn (mulSignField p) (mulAField p) (mulBField p) = p := by
  apply BitVec.eq_of_getLsbD_eq
  intro i hi
  simp only [packMulIn, mulSignField, mulAField, mulBField, BitVec.getLsbD_append, BitVec.getLsbD_extractLsb']
  by_cases a : i < 2
  · simp [a]
  · by_cases b : i - 2 < W
    · simp [a, b, show 2 + (i - 2) = i by omega]
    · simp [a, b, show i - 2 - W < W by omega, show W + 2 + (i - 2 - W) = i by omega]

/-- A `BCD_IN` payload is its packed fields. -/
theorem packBcdIn_fields (p : BitVec (W + 1)) : packBcdIn (bcdSignField p) (bcdNField p) = p := append_extracts p

/-- The comparator's flattened inputs are its packed words. -/
theorem packMag_fields (p : BitVec (w + w)) : packMag (magAField p) (magBField p) = p := append_extracts p

@[simp] theorem fieldWord_toNat (v : Word W) : fieldWord W v.toNat = v := by simp [fieldWord]

end Sys2Proof
end

