-- ==== Sys2Proof/Laws/Ops.lean ====
section
/-! SUPPORT. One law per shared operation: ports, signals, stage arrays, the clock edge. -/

namespace Sys2Proof.Machine

/-! ### Ports and signals -/

/-- Offering replaces `inp.valid` and `inp.payload` of the coming line and leaves `reset` and `outp.ready`. -/
@[simp] theorem Port.line_offer (p : Port inBits outBits) (c : Component) (cycle : Nat) (payload : BitVec inBits) :
    (p.offer c cycle payload).line c cycle = { p.line c cycle with valid := true, payload := payload } := rfl

@[simp] theorem Port.offer_script_tail (p : Port inBits outBits) (c : Component) (cycle : Nat) (payload : BitVec inBits) :
    (p.offer c cycle payload).script.tail = p.script.tail := rfl

/-- A line that offers what it already offers is unchanged, if it is listed. -/
theorem Port.offer_self (p : Port inBits outBits) (c : Component) (cycle : Nat) (hs : p.script ≠ [])
    (hv : (p.line c cycle).valid = true) : p.offer c cycle (p.line c cycle).payload = p := by
  obtain ⟨script, log⟩ := p
  cases script with
  | nil => exact absurd rfl hs
  | cons l rest =>
    simp only [Port.line, List.headD_cons] at hv
    simp only [Port.offer, Port.line, List.headD_cons, List.tail_cons]
    rw [← hv]

/-- A line that offers something is listed. -/
theorem Port.listed_of_valid (p : Port inBits outBits) (c : Component) (cycle : Nat)
    (hv : (p.line c cycle).valid = true) : p.script ≠ [] := by
  intro h
  simp [Port.line, h, idleLine] at hv

@[simp] theorem showSignals_inpReady (r v : Bool) (p : BitVec outBits) : (showSignals r v p).inpReady = r := rfl

@[simp] theorem showSignals_outpValid (r v : Bool) (p : BitVec outBits) : (showSignals r v p).outpValid = v := rfl

@[simp] theorem showSignals_payload (r v : Bool) (p : BitVec outBits) :
    (showSignals r v p).payload = if v then some p else none := rfl

/-- A result leaves exactly when it is presented and the consumer is ready (40_handshake.md R100). -/
@[simp] theorem sent_showSignals (r v ready : Bool) (p : BitVec outBits) :
    (showSignals r v p).sent ready = if v && ready then some p else none := by
  cases v <;> cases ready <;> rfl

theorem singleReady_iff (idle outValid ready : Bool) :
    singleReady idle outValid ready = true ↔ idle = true ∧ (outValid = false ∨ ready = true) := by
  cases idle <;> cases outValid <;> cases ready <;> decide

theorem pipeReady_iff (topValid ready : Bool) : pipeReady topValid ready = true ↔ topValid = false ∨ ready = true := by
  cases topValid <;> cases ready <;> decide

theorem refusesWhen_eq_none (valid ready reserved : Bool) (reason : Refusal) :
    refusesWhen valid ready reserved reason = none ↔ ¬(valid = true ∧ ready = true ∧ reserved = true) := by
  cases valid <;> cases ready <;> cases reserved <;> simp [refusesWhen]

theorem refusesWhen_eq_some (valid ready reserved : Bool) (reason r : Refusal) :
    refusesWhen valid ready reserved reason = some r ↔
      (valid = true ∧ ready = true ∧ reserved = true) ∧ r = reason := by
  cases valid <;> cases ready <;> cases reserved <;> simp [refusesWhen, eq_comm]

/-! ### Stage arrays -/

/-- After a shift, place 0 holds what entered and place `j+1` what was in place `j`, advanced (43_pipelined_mul.md R191). -/
theorem shiftFrom_getElem? (f : Nat → α → α) (i : Nat) (new : α) (l : List α) (j : Nat) :
    (shiftFrom f i new l)[j]? =
      if j < l.length then (if j = 0 then some new else (l[j - 1]?).map (f (i + j))) else none := by
  induction l generalizing i new j with
  | nil => simp [shiftFrom]
  | cons x rest ih =>
    cases j with
    | zero => simp [shiftFrom]
    | succ k =>
      rw [shiftFrom, List.getElem?_cons_succ, ih]
      simp only [List.length_cons, Nat.add_lt_add_iff_right, Nat.add_sub_cancel]
      by_cases c : k < rest.length
      · simp only [c, ↓reduceIte, Nat.succ_ne_zero]
        cases k with
        | zero => simp
        | succ m => simp [show i + 1 + (m + 1) = i + (m + 1 + 1) by omega]
      · simp [c]

theorem Stages.shift_getElem? (s : Stages α n) (f : Nat → α → α) (new : α) (j : Nat) :
    (s.shift f new).items[j]? =
      if j < n then (if j = 0 then some new else (s.items[j - 1]?).map (f j)) else none := by
  have h := shiftFrom_getElem? f 0 new s.items j
  rw [s.length_eq, Nat.zero_add] at h
  exact h

/-- The last stage is stage `n-1`. -/
theorem Stages.top_eq (s : Stages α n) (d : α) : s.top d = (s.items[n - 1]?).getD d := by
  obtain ⟨items, rfl⟩ := s
  rw [Stages.top, ← List.getLast?_eq_getElem?, List.getLastD_eq_getLast?]

/-! ### The clock edge -/

/-- Everything a clock edge can do: it stops, or every instance takes its edge. -/
theorem clock_next_iff (s t : State) : clock s = .next t ↔ s.fault = none ∧ s.refusal = none ∧ t = s.edge := by
  unfold clock
  cases hf : s.fault with
  | some f => simp
  | none =>
    cases hr : s.refusal with
    | some r => simp
    | none => simp [eq_comm]

theorem clock_fault_iff (s : State) (f : Fault) : clock s = .fault f ↔ s.fault = some f := by
  unfold clock
  cases hf : s.fault with
  | some f => simp
  | none => cases hr : s.refusal <;> simp

theorem clock_refused_iff (s : State) (r : Refusal) : clock s = .refused r ↔ s.fault = none ∧ s.refusal = some r := by
  unfold clock
  cases hf : s.fault with
  | some f => simp
  | none => cases hr : s.refusal <;> simp

/-- An edge does not change `BCD_MODE`. -/
theorem BcdRegs.edge_mode (r : BcdRegs W L) (l : Line (W + 1)) : (r.edge l).mode = r.mode := by
  cases r <;> rfl

/-- `reset()` does not change `BCD_MODE` (70_reset_and_hazards.md R280). -/
theorem BcdRegs.afterReset_mode (r : BcdRegs W L) (cycle : Nat) : (r.afterReset cycle).mode = r.mode := by
  cases r <;> rfl

end Sys2Proof.Machine
end

