-- ==== Sys2Proof/Laws/Step.lean ====
section
/-! SUPPORT. What a step can do: whatever port the operation is fetched from, it is one clock edge of the block. -/

namespace Sys2Proof.Machine

/-! ### Offering what a port is already offered changes nothing -/

theorem Line.operation_eq_some (l : Line bits) (c : Component) (W : Nat) (i : Instr) :
    l.operation c W = some i ↔ l.valid = true ∧ decode c W l.payload.toNat = .ok i := by
  unfold Line.operation
  cases l.valid
  · simp
  · cases h : decode c W l.payload.toNat <;> simp [Except.toOption]

/-- What a `DIV_IN` payload decodes to, offered again, is the payload. -/
theorem decodeDiv_repacked (ofU ofS : Nat → Nat → Instr) (p : BitVec (W + W + 1)) (i : Instr)
    (h : decodeDiv ofU ofS p = i) :
    ∃ s : DivSign, i = (match s with | .unsigned => ofU | .signed => ofS) (divLowField p).toNat (divHighField p).toNat ∧
      packDivIn s.bit (fieldWord W (divLowField p).toNat) (fieldWord W (divHighField p).toNat) = p := by
  refine ⟨DivSign.ofBit (divSignField p), ?_, ?_⟩
  · rw [← h]
    unfold decodeDiv
    cases DivSign.ofBit (divSignField p) <;> rfl
  · rw [DivSign.bit_ofBit, fieldWord_toNat, fieldWord_toNat, packDivIn_fields]

/-- What a `MUL_IN` payload decodes to, offered again, is the payload. -/
theorem decodeMul_repacked (ofU ofS ofSU : Nat → Nat → Instr) (p : BitVec (W + W + 2)) (i : Instr)
    (h : decodeMul ofU ofS ofSU p = .ok i) :
    ∃ s : MulSign, i = (match s with | .unsigned => ofU | .signed => ofS | .signedUnsigned => ofSU)
        (mulAField p).toNat (mulBField p).toNat ∧
      packMulIn s.code (fieldWord W (mulAField p).toNat) (fieldWord W (mulBField p).toNat) = p := by
  unfold decodeMul at h
  cases hc : MulSign.ofCode (mulSignField p) with
  | none => rw [hc] at h; cases h
  | some s =>
    refine ⟨s, ?_, ?_⟩
    · rw [hc] at h
      cases s <;> (simp only [Except.ok.injEq] at h; exact h.symm)
    · rw [MulSign.code_of_ofCode hc, fieldWord_toNat, fieldWord_toNat, packMulIn_fields]

/-- What a `BCD_IN` payload decodes to, offered again, is the payload. -/
theorem decodeBcd_repacked (p : BitVec (W + 1)) (i : Instr) (h : decodeBcd p = .ok i) :
    i = .bcdU (bcdNField p).toNat ∧ packBcdIn DivSign.unsigned.bit (fieldWord W (bcdNField p).toNat) = p := by
  unfold decodeBcd at h
  cases hc : DivSign.ofBit (bcdSignField p) with
  | signed => rw [hc] at h; cases h
  | unsigned =>
    rw [hc] at h
    simp only [Except.ok.injEq] at h
    refine ⟨h.symm, ?_⟩
    rw [← hc, DivSign.bit_ofBit, fieldWord_toNat, packBcdIn_fields]

/-- Past the width check, `decode` reads the payload's own bits. -/
theorem ofNat_payload (p : BitVec n) : BitVec.ofNat n p.toNat = p := by simp

/-- The operation fetched at a port, run, is the clock edge: it is offered already. -/
theorem exec_of_fetchAt (s : State) (c : Component) (i : Instr) (h : s.fetchAt c = some i) : exec i s = clock s := by
  cases c with
  | nrdiv =>
    obtain ⟨hv, hd⟩ := (Line.operation_eq_some _ _ _ _).mp h
    have hd' : decodeDiv .nrdivU .nrdivS (s.nrdiv.line s.cycle).payload = i := by
      unfold decode at hd; split at hd
      · cases hd
      · simpa using hd
    obtain ⟨g, rfl, hp⟩ := decodeDiv_repacked _ _ _ _ hd'
    have ho := Port.offer_self s.nrdiv.port _ s.cycle (Port.listed_of_valid _ _ _ hv) hv
    have e : s.offerNrdiv g (divLowField (s.nrdiv.line s.cycle).payload).toNat
        (divHighField (s.nrdiv.line s.cycle).payload).toNat = s := by
      unfold State.offerNrdiv MDiv.offer; rw [hp]; unfold MDiv.line; rw [ho]
    cases g <;> exact congrArg clock e
  | rdiv =>
    obtain ⟨hv, hd⟩ := (Line.operation_eq_some _ _ _ _).mp h
    have hd' : decodeDiv .rdivU .rdivS (s.rdiv.line s.cycle).payload = i := by
      unfold decode at hd; split at hd
      · cases hd
      · simpa using hd
    obtain ⟨g, rfl, hp⟩ := decodeDiv_repacked _ _ _ _ hd'
    have ho := Port.offer_self s.rdiv.port _ s.cycle (Port.listed_of_valid _ _ _ hv) hv
    have e : s.offerRdiv g (divLowField (s.rdiv.line s.cycle).payload).toNat
        (divHighField (s.rdiv.line s.cycle).payload).toNat = s := by
      unfold State.offerRdiv MDiv.offer; rw [hp]; unfold MDiv.line; rw [ho]
    cases g <;> exact congrArg clock e
  | ldiv =>
    obtain ⟨hv, hd⟩ := (Line.operation_eq_some _ _ _ _).mp h
    have hd' : decodeDiv .ldivU .ldivS (s.ldiv.line s.cycle).payload = i := by
      unfold decode at hd; split at hd
      · cases hd
      · simpa using hd
    obtain ⟨g, rfl, hp⟩ := decodeDiv_repacked _ _ _ _ hd'
    have ho := Port.offer_self s.ldiv.port _ s.cycle (Port.listed_of_valid _ _ _ hv) hv
    have e : s.offerLdiv g (divLowField (s.ldiv.line s.cycle).payload).toNat
        (divHighField (s.ldiv.line s.cycle).payload).toNat = s := by
      unfold State.offerLdiv LDiv.offer; rw [hp]; unfold LDiv.line; rw [ho]
    cases g <;> exact congrArg clock e
  | pmul =>
    obtain ⟨hv, hd⟩ := (Line.operation_eq_some _ _ _ _).mp h
    have hd' : decodeMul .pmulU .pmulS .pmulSU (s.pmul.line s.cycle).payload = .ok i := by
      unfold decode at hd; split at hd
      · cases hd
      · simpa using hd
    obtain ⟨g, rfl, hp⟩ := decodeMul_repacked _ _ _ _ _ hd'
    have ho := Port.offer_self s.pmul.port _ s.cycle (Port.listed_of_valid _ _ _ hv) hv
    have e : s.offerPmul g (mulAField (s.pmul.line s.cycle).payload).toNat
        (mulBField (s.pmul.line s.cycle).payload).toNat = s := by
      unfold State.offerPmul PMul.offer; rw [hp]; unfold PMul.line; rw [ho]
    cases g <;> exact congrArg clock e
  | mcmul =>
    obtain ⟨hv, hd⟩ := (Line.operation_eq_some _ _ _ _).mp h
    have hd' : decodeMul .mcmulU .mcmulS .mcmulSU (s.mcmul.line s.cycle).payload = .ok i := by
      unfold decode at hd; split at hd
      · cases hd
      · simpa using hd
    obtain ⟨g, rfl, hp⟩ := decodeMul_repacked _ _ _ _ _ hd'
    have ho := Port.offer_self s.mcmul.port _ s.cycle (Port.listed_of_valid _ _ _ hv) hv
    have e : s.offerMcmul g (mulAField (s.mcmul.line s.cycle).payload).toNat
        (mulBField (s.mcmul.line s.cycle).payload).toNat = s := by
      unfold State.offerMcmul MCMul.offer; rw [hp]; unfold MCMul.line; rw [ho]
    cases g <;> exact congrArg clock e
  | bcd =>
    obtain ⟨hv, hd⟩ := (Line.operation_eq_some _ _ _ _).mp h
    have hd' : decodeBcd (s.bcd.line s.cycle).payload = .ok i := by
      unfold decode at hd; split at hd
      · cases hd
      · simpa using hd
    obtain ⟨rfl, hp⟩ := decodeBcd_repacked _ _ hd'
    have ho := Port.offer_self s.bcd.port _ s.cycle (Port.listed_of_valid _ _ _ hv) hv
    have e : s.offerBcd (bcdNField (s.bcd.line s.cycle).payload).toNat = s := by
      unfold State.offerBcd Bcd.offer; rw [hp]; unfold Bcd.line; rw [ho]
    exact congrArg clock e
  | mag =>
    unfold State.fetchAt at h
    cases hs : s.mag.script with
    | nil => rw [hs] at h; cases h
    | cons l rest =>
      rw [hs] at h
      simp only [List.head?_cons, Option.map_some, Option.some.injEq] at h
      subst h
      have e : s.offerMag l.a.toNat l.b.toNat = s := by
        unfold State.offerMag Mag.offer
        rw [fieldWord_toNat, fieldWord_toNat, hs]
        simp only [List.tail_cons]
        rw [← hs]
      exact congrArg clock e

/-- A step is one clock edge of the block. -/
theorem step_eq_clock (s : State) : step s = clock s := by
  unfold step
  cases h : s.fetch with
  | none => rfl
  | some i =>
    obtain ⟨c, _, hc⟩ := List.exists_of_findSome?_eq_some h
    exact exec_of_fetchAt s c i hc

/-- Everything a step can do: it stops, or every instance takes its edge. -/
theorem step_next_iff (s t : State) : step s = .next t ↔ s.fault = none ∧ s.refusal = none ∧ t = s.edge := by
  rw [step_eq_clock, clock_next_iff]

end Sys2Proof.Machine
end

