-- ==== Sys2Proof/Laws/Edges.lean ====
section
/-! SUPPORT. One law per clock edge: what the registers of each component become, case by case, at any width; what a port
becomes; what being constructible gives. -/

namespace Sys2Proof.Machine

/-! ### What being constructible gives (60_exceptions.md R258) -/

theorem widths_of_fault_none {s : State} (h : s.fault = none) :
    2 ≤ s.nrdiv.W ∧ 2 ≤ s.rdiv.W ∧ 2 ≤ s.ldiv.W ∧ 2 ≤ s.pmul.W ∧ 2 ≤ s.mcmul.W ∧ 4 ≤ s.bcd.W ∧ 1 ≤ s.bcd.latency ∧
      1 ≤ s.mag.w := by
  unfold State.fault blockFault State.params at h
  split at h
  · cases h
  · split at h
    · cases h
    · split at h
      · cases h
      · simp only [not_or, not_lt, not_le] at *
        omega

/-- A step that gives a next state is the edge of a constructible block. -/
theorem step_next_elim {s t : State} (h : step s = .next t) : s.fault = none ∧ s.refusal = none ∧ t = s.edge :=
  (step_next_iff s t).mp h

theorem clock_eq_next {s : State} (hf : s.fault = none) (hr : s.refusal = none) : clock s = .next s.edge :=
  (clock_next_iff s s.edge).mpr ⟨hf, hr, rfl⟩

/-- No instance refuses at an edge that is taken. -/
theorem refusal_eq_none_iff (s : State) :
    s.refusal = none ↔ s.pmul.refusal s.cycle = none ∧ s.mcmul.refusal s.cycle = none ∧ s.bcd.refusal s.cycle = none := by
  unfold State.refusal
  cases s.pmul.refusal s.cycle <;> cases s.mcmul.refusal s.cycle <;> cases s.bcd.refusal s.cycle <;> simp

/-! ### When an instance refuses (60_exceptions.md R262) -/

theorem PMul.refusal_eq_none_iff (u : PMul) (cycle : Nat) :
    u.refusal cycle = none ↔
      ¬((u.line cycle).valid = true ∧ (u.signals cycle).inpReady = true ∧ mulSignField (u.line cycle).payload = 3#2) := by
  unfold PMul.refusal
  rw [refusesWhen_eq_none, Option.isNone_iff_eq_none, MulSign.ofCode_eq_none]

theorem MCMul.refusal_eq_none_iff (u : MCMul) (cycle : Nat) :
    u.refusal cycle = none ↔
      ¬((u.line cycle).valid = true ∧ (u.signals cycle).inpReady = true ∧ mulSignField (u.line cycle).payload = 3#2) := by
  unfold MCMul.refusal
  rw [refusesWhen_eq_none, Option.isNone_iff_eq_none, MulSign.ofCode_eq_none]

theorem DivSign.ofBit_eq_signed (b : BitVec 1) : DivSign.ofBit b = .signed ↔ b = 1#1 := by revert b; decide

theorem Bcd.refusal_eq_none_iff (u : Bcd) (cycle : Nat) :
    u.refusal cycle = none ↔
      ¬((u.line cycle).valid = true ∧ (u.signals cycle).inpReady = true ∧ bcdSignField (u.line cycle).payload = 1#1) := by
  unfold Bcd.refusal
  rw [refusesWhen_eq_none, decide_eq_true_iff, DivSign.ofBit_eq_signed]

/-- An operation of the table is never refused. -/
theorem PMul.refusal_offer (u : PMul) (cycle : Nat) (sign : MulSign) (a b : Word u.W) :
    (u.offer cycle (packMulIn sign.code a b)).refusal cycle = none := by
  unfold PMul.refusal
  rw [refusesWhen_eq_none]
  rintro ⟨-, -, h⟩
  have h : (MulSign.ofCode (mulSignField (packMulIn sign.code a b))).isNone = true := h
  rw [mulSignField_packMulIn, MulSign.ofCode_code] at h
  cases h

theorem MCMul.refusal_offer (u : MCMul) (cycle : Nat) (sign : MulSign) (a b : Word u.W) :
    (u.offer cycle (packMulIn sign.code a b)).refusal cycle = none := by
  unfold MCMul.refusal
  rw [refusesWhen_eq_none]
  rintro ⟨-, -, h⟩
  have h : (MulSign.ofCode (mulSignField (packMulIn sign.code a b))).isNone = true := h
  rw [mulSignField_packMulIn, MulSign.ofCode_code] at h
  cases h

theorem Bcd.refusal_offer (u : Bcd) (cycle : Nat) (n : Word u.W) :
    (u.offer cycle (packBcdIn DivSign.unsigned.bit n)).refusal cycle = none := by
  unfold Bcd.refusal
  rw [refusesWhen_eq_none]
  rintro ⟨-, -, h⟩
  have h : decide (DivSign.ofBit (bcdSignField (packBcdIn DivSign.unsigned.bit n)) = .signed) = true := h
  rw [bcdSignField_packBcdIn, DivSign.ofBit_bit] at h
  cases h

/-! ### Ports -/

/-- The log after an edge: one more transfer exactly if a result is presented and taken (40_handshake.md R100). -/
theorem Port.clocked_log_shown (p : Port inBits outBits) (cycle : Nat) (r v ready : Bool) (x : BitVec outBits) :
    (p.clocked cycle ((showSignals r v x).sent ready)).log = p.log ++ (if v && ready then [(cycle, x)] else []) := by
  cases v <;> cases ready <;> simp [Port.clocked, showSignals, Signals.sent]

/-- The output transfer of an edge, as one field. -/
theorem MDivRegs.release_eq (r : MDivRegs W) (ready : Bool) :
    r.release ready = { r with outValid := r.outValid && !ready } := by
  unfold MDivRegs.release; cases h : r.outValid <;> cases ready <;> simp [← h]

theorem LDivRegs.release_eq (r : LDivRegs W) (ready : Bool) :
    r.release ready = { r with outValid := r.outValid && !ready } := by
  unfold LDivRegs.release; cases h : r.outValid <;> cases ready <;> simp [← h]

theorem MCMulRegs.release_eq (r : MCMulRegs W) (ready : Bool) :
    r.release ready = { r with outValid := r.outValid && !ready } := by
  unfold MCMulRegs.release; cases h : r.outValid <;> cases ready <;> simp [← h]

theorem BcdSeqRegs.release_eq (r : BcdSeqRegs W L) (ready : Bool) :
    r.release ready = { r with outValid := r.outValid && !ready } := by
  unfold BcdSeqRegs.release; cases h : r.outValid <;> cases ready <;> simp [← h]

/-! ### MulticycleDiv (41_multicycle_div.md R121 to R131) -/

theorem MDivRegs.inpReady_iff (r : MDivRegs W) (ready : Bool) :
    r.inpReady ready = true ↔ r.fsm = .idle ∧ (r.outValid = false ∨ ready = true) := by
  simp [MDivRegs.inpReady, singleReady_iff]

/-- At an input transfer no result is held after the edge. -/
theorem MDivRegs.outValid_of_inpReady {r : MDivRegs W} {ready : Bool} (h : r.inpReady ready = true) :
    (r.outValid && !ready) = false := by
  rcases (r.inpReady_iff ready).mp h with ⟨_, h | h⟩ <;> simp [h]

theorem MDivRegs.edge_accept (impl : Impl) (r : MDivRegs W) (l : Line (W + W + 1)) (hv : l.valid = true)
    (hr : r.inpReady l.ready = true) :
    r.edge impl l = { r.accept (DivSign.ofBit (divSignField l.payload)) (divLowField l.payload) (divHighField l.payload) with
      outValid := false } := by
  have hf := ((r.inpReady_iff l.ready).mp hr).1
  have ho := MDivRegs.outValid_of_inpReady hr
  unfold MDivRegs.edge
  rw [hf]
  simp only [hv, hr, Bool.and_self, if_true, MDivRegs.release_eq, ho]
  rfl

theorem MDivRegs.edge_idle (impl : Impl) (r : MDivRegs W) (l : Line (W + W + 1)) (hf : r.fsm = .idle)
    (h : (l.valid && r.inpReady l.ready) = false) : r.edge impl l = { r with outValid := r.outValid && !l.ready } := by
  unfold MDivRegs.edge
  split <;> simp_all [MDivRegs.release_eq]

theorem MDivRegs.edge_divideIn (impl : Impl) (r : MDivRegs W) (l : Line (W + W + 1)) (hf : r.fsm = .divideIn) :
    r.edge impl l = { r.load with outValid := r.outValid && !l.ready } := by
  unfold MDivRegs.edge; rw [hf, MDivRegs.release_eq]; rfl

theorem MDivRegs.edge_divideLoop (impl : Impl) (r : MDivRegs W) (l : Line (W + W + 1)) (hf : r.fsm = .divideLoop) :
    r.edge impl l = { r.iterate impl with outValid := r.outValid && !l.ready } := by
  unfold MDivRegs.edge; rw [hf, MDivRegs.release_eq]; rfl

theorem MDivRegs.edge_restore (impl : Impl) (r : MDivRegs W) (l : Line (W + W + 1)) (hf : r.fsm = .restore) :
    r.edge impl l = { r.restoreEdge with outValid := r.outValid && !l.ready } := by
  unfold MDivRegs.edge; rw [hf, MDivRegs.release_eq]; rfl

theorem MDivRegs.edge_divideOut (impl : Impl) (r : MDivRegs W) (l : Line (W + W + 1)) (hf : r.fsm = .divideOut) :
    r.edge impl l = r.present := by
  unfold MDivRegs.edge; rw [hf, MDivRegs.release_eq]; rfl

/-! ### LongDivider (42_long_divider.md R162, R164, R167) -/

theorem LDivRegs.inpReady_iff (r : LDivRegs W) (ready : Bool) :
    r.inpReady ready = true ↔ r.busy = false ∧ (r.outValid = false ∨ ready = true) := by
  simp [LDivRegs.inpReady, singleReady_iff]

theorem LDivRegs.outValid_of_inpReady {r : LDivRegs W} {ready : Bool} (h : r.inpReady ready = true) :
    (r.outValid && !ready) = false := by
  rcases (r.inpReady_iff ready).mp h with ⟨_, h | h⟩ <;> simp [h]

theorem LDivRegs.edge_accept (r : LDivRegs W) (l : Line (W + W + 1)) (hv : l.valid = true)
    (hr : r.inpReady l.ready = true) :
    r.edge l = { r.accept (DivSign.ofBit (divSignField l.payload)) (divLowField l.payload) (divHighField l.payload) with
      outValid := false } := by
  have hb := ((r.inpReady_iff l.ready).mp hr).1
  have ho := LDivRegs.outValid_of_inpReady hr
  unfold LDivRegs.edge
  simp only [hb, hv, hr, Bool.and_self, if_true, Bool.false_eq_true, if_false, LDivRegs.release_eq, ho]
  rfl

theorem LDivRegs.edge_idle (r : LDivRegs W) (l : Line (W + W + 1)) (hb : r.busy = false)
    (h : (l.valid && r.inpReady l.ready) = false) : r.edge l = { r with outValid := r.outValid && !l.ready } := by
  unfold LDivRegs.edge
  simp only [hb, h, Bool.false_eq_true, if_false, LDivRegs.release_eq]

theorem LDivRegs.edge_busy (r : LDivRegs W) (l : Line (W + W + 1)) (hb : r.busy = true) :
    r.edge l = { r.iterate with outValid := if r.i.toNat = 0 then true else r.outValid && !l.ready } := by
  unfold LDivRegs.edge
  rw [if_pos hb, LDivRegs.release_eq]
  rfl

/-! ### PipelinedMul (43_pipelined_mul.md R191, R192) -/

theorem mulReady_iff (st : Stages (MulStage W) W) (ready : Bool) :
    mulReady st ready = true ↔ (mulTop st).valid = false ∨ ready = true := pipeReady_iff _ _

theorem mulEdge_frozen (st : Stages (MulStage W) W) (l : Line (W + W + 2)) (h : mulReady st l.ready = false) :
    mulEdge st l = st := by
  unfold mulEdge; simp [h]

theorem mulEdge_getElem? (st : Stages (MulStage W) W) (l : Line (W + W + 2)) (h : mulReady st l.ready = true) (j : Nat) :
    (mulEdge st l).items[j]? =
      if j < W then
        (if j = 0 then
          some (MulStage.capture l.valid (mulSignField l.payload) (mulAField l.payload) (mulBField l.payload))
        else (st.items[j - 1]?).map (MulStage.advance j))
      else none := by
  unfold mulEdge
  rw [if_pos h, Stages.shift_getElem?]

/-! ### MulticycleMul (44_multicycle_mul.md R212, R215, R217) -/

theorem MCMulRegs.inpReady_iff (r : MCMulRegs W) (ready : Bool) :
    r.inpReady ready = true ↔ r.busy = false ∧ (r.outValid = false ∨ ready = true) := by
  simp [MCMulRegs.inpReady, singleReady_iff]

theorem MCMulRegs.outValid_of_inpReady {r : MCMulRegs W} {ready : Bool} (h : r.inpReady ready = true) :
    (r.outValid && !ready) = false := by
  rcases (r.inpReady_iff ready).mp h with ⟨_, h | h⟩ <;> simp [h]

theorem MCMulRegs.edge_accept (r : MCMulRegs W) (l : Line (W + W + 2)) (hv : l.valid = true)
    (hr : r.inpReady l.ready = true) :
    r.edge l = { r.accept (mulSignField l.payload) (mulAField l.payload) (mulBField l.payload) with outValid := false } := by
  have hb := ((r.inpReady_iff l.ready).mp hr).1
  have ho := MCMulRegs.outValid_of_inpReady hr
  unfold MCMulRegs.edge
  simp only [hb, hv, hr, Bool.and_self, if_true, Bool.false_eq_true, if_false, MCMulRegs.release_eq, ho]
  rfl

theorem MCMulRegs.edge_idle (r : MCMulRegs W) (l : Line (W + W + 2)) (hb : r.busy = false)
    (h : (l.valid && r.inpReady l.ready) = false) : r.edge l = { r with outValid := r.outValid && !l.ready } := by
  unfold MCMulRegs.edge
  simp only [hb, h, Bool.false_eq_true, if_false, MCMulRegs.release_eq]

theorem MCMulRegs.edge_busy (r : MCMulRegs W) (l : Line (W + W + 2)) (hb : r.busy = true) :
    r.edge l = { r.iterate with outValid := if r.cnt.toNat + 1 = W then true else r.outValid && !l.ready } := by
  unfold MCMulRegs.edge
  rw [if_pos hb, MCMulRegs.release_eq]
  rfl

/-! ### BinaryToBCD (45_bcd.md R241, R242) -/

theorem BcdSeqRegs.edge_accept (r : BcdSeqRegs W L) (l : Line (W + 1)) (hv : l.valid = true)
    (hr : singleReady (!r.busy) r.outValid l.ready = true) :
    r.edge l = { r.accept (DivSign.ofBit (bcdSignField l.payload)) (bcdNField l.payload) with
      outValid := decide (L = 1) } := by
  obtain ⟨hb, ho⟩ := (singleReady_iff _ _ _).mp hr
  have hb : r.busy = false := by simpa using hb
  have ho : (r.outValid && !l.ready) = false := by rcases ho with h | h <;> simp [h]
  unfold BcdSeqRegs.edge
  rw [hb, Bool.not_false] at hr
  simp only [hb, hv, hr, Bool.and_self, if_true, Bool.false_eq_true, if_false, BcdSeqRegs.release_eq, ho, Bool.not_false]
  by_cases hL : L = 1 <;> simp [BcdSeqRegs.accept, hL, hb]

theorem BcdSeqRegs.edge_idle (r : BcdSeqRegs W L) (l : Line (W + 1)) (hb : r.busy = false)
    (h : (l.valid && singleReady (!r.busy) r.outValid l.ready) = false) :
    r.edge l = { r with outValid := r.outValid && !l.ready } := by
  unfold BcdSeqRegs.edge
  rw [hb] at h
  simp only [hb, h, Bool.false_eq_true, if_false, BcdSeqRegs.release_eq]

theorem BcdSeqRegs.edge_busy (r : BcdSeqRegs W L) (l : Line (W + 1)) (hb : r.busy = true) :
    r.edge l = { r.iterate with outValid := if r.cnt.toNat + 1 = L then true else r.outValid && !l.ready } := by
  unfold BcdSeqRegs.edge
  rw [if_pos hb, BcdSeqRegs.release_eq]
  rfl

end Sys2Proof.Machine
end

