-- ==== Sys2Proof/Laws/Environment.lean ====
section
/-! SUPPORT. The environment's premises along a run (70_reset_and_hazards.md R298): one law per step, and offers and
readiness of one line. -/

namespace Sys2Proof.Machine

@[simp] theorem runsTo_zero_iff (s t : State) : RunsTo 0 s t ↔ s = t :=
  ⟨fun h => Host.Outcome.next.inj h, fun h => h ▸ rfl⟩

/-- A longer run of any machine is a first step and the run from the state it gives. -/
theorem run_succ_eq_next_iff (M : Host.Core) (k : Nat) (s t : M.State) :
    M.run (k + 1) s = .next t ↔ ∃ u, M.step s = .next u ∧ M.run k u = .next t := by
  have e : M.run (k + 1) s = match M.step s with
    | .next u => M.run k u
    | .fault r => .fault r
    | .refused r => .refused r := rfl
  rw [e]
  cases M.step s <;> simp

theorem runsTo_succ_iff (k : Nat) (s t : State) : RunsTo (k + 1) s t ↔ ∃ u, step s = .next u ∧ RunsTo k u t :=
  run_succ_eq_next_iff core k s t

/-- The premise over one more cycle, where the step is known. -/
theorem State.driverHoldsOffer_succ_iff {s t : State} (h : step s = .next t) (c : Component) (k : Nat) :
    s.DriverHoldsOffer c (k + 1) ↔ KeepsOffer c s t ∧ t.DriverHoldsOffer c k :=
  ⟨fun hd => hd t h, fun hd u hu => by rw [h] at hu; cases hu; exact hd⟩

/-- A promise for `k` cycles is one for fewer. -/
theorem State.DriverHoldsOffer.mono {c : Component} {k : Nat} {s : State} (h : s.DriverHoldsOffer c k) {j : Nat}
    (hj : j ≤ k) : s.DriverHoldsOffer c j := by
  induction k generalizing s j with
  | zero => rw [Nat.le_zero.mp hj]; trivial
  | succ k ih =>
    cases j with
    | zero => trivial
    | succ j => exact fun t ht => ⟨(h t ht).1, ih (h t ht).2 (Nat.succ_le_succ_iff.mp hj)⟩

@[simp] theorem Line.offered_eq_some_iff (l : Line bits) (x : Nat) :
    l.offered = some x ↔ l.valid = true ∧ l.payload.toNat = x := by
  unfold Line.offered; cases l.valid <;> simp

@[simp] theorem Line.offered_eq_none_iff (l : Line bits) : l.offered = none ↔ l.valid = false := by
  unfold Line.offered; cases l.valid <;> simp

end Sys2Proof.Machine
end

