-- ==== Sys2Proof/Laws/PerInstr.lean ====
section
/-! SUPPORT. Facts about every operation as syntax, one lemma per constructor: its encoding has the match value of its row of
`opcode_table.json` under the row's mask (30_encoding.md R85). -/

namespace Sys2Proof.Laws.RowMatch

/-- The row's mask plus one: the tag field is the lowest bits (30_encoding.md R85). MAGCMP has no tag (R81). -/
def tagValues : Instr → Nat
  | .nrdivU _ _ => 2
  | .nrdivS _ _ => 2
  | .rdivU _ _ => 2
  | .rdivS _ _ => 2
  | .ldivU _ _ => 2
  | .ldivS _ _ => 2
  | .pmulU _ _ => 4
  | .pmulS _ _ => 4
  | .pmulSU _ _ => 4
  | .mcmulU _ _ => 4
  | .mcmulS _ _ => 4
  | .mcmulSU _ _ => 4
  | .bcdU _ => 2
  | .magcmp _ _ => 1

/-- The row's match value (`opcode_table.json`, 30_encoding.md R84). -/
def matchValue : Instr → Nat
  | .nrdivU _ _ => 0
  | .nrdivS _ _ => 1
  | .rdivU _ _ => 0
  | .rdivS _ _ => 1
  | .ldivU _ _ => 0
  | .ldivS _ _ => 1
  | .pmulU _ _ => 0
  | .pmulS _ _ => 1
  | .pmulSU _ _ => 2
  | .mcmulU _ _ => 0
  | .mcmulS _ _ => 1
  | .mcmulSU _ _ => 2
  | .bcdU _ => 0
  | .magcmp _ _ => 0

/-- The encoding of `i`, under its row's mask, is the row's match value. -/
def Statement (i : Instr) : Prop := ∀ W, encode W i % tagValues i = matchValue i

/-- The lowest bits of an appended word. -/
theorem append_mod (h : BitVec m) (l : BitVec n) : (h ++ l).toNat % 2 ^ n = l.toNat := by
  have e := congrArg BitVec.toNat (extract_low h l)
  simpa [BitVec.extractLsb'_toNat] using e

theorem nrdivU (n d : Nat) : Statement (.nrdivU n d) := fun W => append_mod (fieldWord W d ++ fieldWord W n) _

theorem nrdivS (n d : Nat) : Statement (.nrdivS n d) := fun W => append_mod (fieldWord W d ++ fieldWord W n) _

theorem rdivU (n d : Nat) : Statement (.rdivU n d) := fun W => append_mod (fieldWord W d ++ fieldWord W n) _

theorem rdivS (n d : Nat) : Statement (.rdivS n d) := fun W => append_mod (fieldWord W d ++ fieldWord W n) _

theorem ldivU (n d : Nat) : Statement (.ldivU n d) := fun W => append_mod (fieldWord W d ++ fieldWord W n) _

theorem ldivS (n d : Nat) : Statement (.ldivS n d) := fun W => append_mod (fieldWord W d ++ fieldWord W n) _

theorem pmulU (a b : Nat) : Statement (.pmulU a b) := fun W => append_mod (fieldWord W b ++ fieldWord W a) _

theorem pmulS (a b : Nat) : Statement (.pmulS a b) := fun W => append_mod (fieldWord W b ++ fieldWord W a) _

theorem pmulSU (a b : Nat) : Statement (.pmulSU a b) := fun W => append_mod (fieldWord W b ++ fieldWord W a) _

theorem mcmulU (a b : Nat) : Statement (.mcmulU a b) := fun W => append_mod (fieldWord W b ++ fieldWord W a) _

theorem mcmulS (a b : Nat) : Statement (.mcmulS a b) := fun W => append_mod (fieldWord W b ++ fieldWord W a) _

theorem mcmulSU (a b : Nat) : Statement (.mcmulSU a b) := fun W => append_mod (fieldWord W b ++ fieldWord W a) _

theorem bcdU (n : Nat) : Statement (.bcdU n) := fun W => append_mod (fieldWord W n) _

theorem magcmp (a b : Nat) : Statement (.magcmp a b) := fun _ => Nat.mod_one _

end Sys2Proof.Laws.RowMatch
end

