-- ==== Sys2Proof/Tests/Slice0.lean ====
section
/-! SUPPORT. Tests with expected values from 95_test_vectors.md (V1 to V11, P1 to P5) or written out from 30_encoding.md, and
one witness for the hypotheses of every statement. -/

namespace Sys2Proof.Tests

open Sys2Proof.Machine Sys2Proof.Claims

/-! ### WellFormed refuses an operand that does not fit its field (30_encoding.md R76, R78, R80) -/

theorem test_wellFormed_nrdivU : WellFormed 8 (.nrdivU 256 0) = false ∧ WellFormed 8 (.nrdivU 0 256) = false := by decide
theorem test_wellFormed_nrdivS : WellFormed 8 (.nrdivS 256 0) = false ∧ WellFormed 8 (.nrdivS 0 256) = false := by decide
theorem test_wellFormed_rdivU : WellFormed 8 (.rdivU 256 0) = false ∧ WellFormed 8 (.rdivU 0 256) = false := by decide
theorem test_wellFormed_rdivS : WellFormed 8 (.rdivS 256 0) = false ∧ WellFormed 8 (.rdivS 0 256) = false := by decide
theorem test_wellFormed_ldivU : WellFormed 8 (.ldivU 256 0) = false ∧ WellFormed 8 (.ldivU 0 256) = false := by decide
theorem test_wellFormed_ldivS : WellFormed 8 (.ldivS 256 0) = false ∧ WellFormed 8 (.ldivS 0 256) = false := by decide
theorem test_wellFormed_pmulU : WellFormed 8 (.pmulU 256 0) = false ∧ WellFormed 8 (.pmulU 0 256) = false := by decide
theorem test_wellFormed_pmulS : WellFormed 8 (.pmulS 256 0) = false ∧ WellFormed 8 (.pmulS 0 256) = false := by decide
theorem test_wellFormed_pmulSU : WellFormed 8 (.pmulSU 256 0) = false ∧ WellFormed 8 (.pmulSU 0 256) = false := by decide
theorem test_wellFormed_mcmulU : WellFormed 8 (.mcmulU 256 0) = false ∧ WellFormed 8 (.mcmulU 0 256) = false := by decide
theorem test_wellFormed_mcmulS : WellFormed 8 (.mcmulS 256 0) = false ∧ WellFormed 8 (.mcmulS 0 256) = false := by decide
theorem test_wellFormed_mcmulSU : WellFormed 8 (.mcmulSU 256 0) = false ∧ WellFormed 8 (.mcmulSU 0 256) = false := by decide
theorem test_wellFormed_bcdU : WellFormed 8 (.bcdU 256) = false := by decide
theorem test_wellFormed_magcmp : WellFormed 8 (.magcmp 256 0) = false ∧ WellFormed 8 (.magcmp 0 256) = false := by decide

/-! ### Decoding: V10's words, and words written out field by field (most significant field first, the tag last) -/

theorem test_decode_nrdivU : decode .nrdiv 8 0b00000111_01100100_0 = .ok (.nrdivU 100 7) := by rfl
theorem test_decode_nrdivS : decode .nrdiv 8 0x0F39 = .ok (.nrdivS 0x9C 0x07) := by rfl
theorem test_decode_rdivU : decode .rdiv 8 0x00190 = .ok (.rdivU 0xC8 0x00) := by rfl
theorem test_decode_rdivS : decode .rdiv 8 0x1FF01 = .ok (.rdivS 0x80 0xFF) := by rfl
theorem test_decode_ldivU : decode .ldiv 4 0b0010_1001_0 = .ok (.ldivU 9 2) := by rfl
theorem test_decode_ldivS : decode .ldiv 4 0x053 = .ok (.ldivS 0x9 0x2) := by rfl
theorem test_decode_pmulU : decode .pmul 4 0x3FC = .ok (.pmulU 0xF 0xF) := by rfl
theorem test_decode_pmulS : decode .pmul 4 0x25D = .ok (.pmulS 0x7 0x9) := by rfl
theorem test_decode_pmulSU : decode .pmul 4 0x0FE = .ok (.pmulSU 0xF 0x3) := by rfl
theorem test_decode_mcmulU : decode .mcmul 4 0b0110_1101_00 = .ok (.mcmulU 0xD 0x6) := by rfl
theorem test_decode_mcmulS : decode .mcmul 4 0x1B5 = .ok (.mcmulS 0xD 0x6) := by rfl
theorem test_decode_mcmulSU : decode .mcmul 4 0b0110_1101_10 = .ok (.mcmulSU 0xD 0x6) := by rfl
theorem test_decode_bcdU : decode .bcd 8 0b01100011_0 = .ok (.bcdU 99) := by rfl
theorem test_decode_magcmp : decode .mag 8 0b01100100_10011100 = .ok (.magcmp 0x9C 0x64) := by rfl
theorem test_decode_reserved_mul : decode .pmul 4 0b0001_0001_11 = .error .reservedMulSign := by rfl
theorem test_decode_reserved_bcd : decode .bcd 8 0b00000001_1 = .error .bcdSignedUnspecified := by rfl
theorem test_decode_too_wide : decode .bcd 8 0x200 = .error .payloadTooWide := by rfl
theorem test_tableWord_zero : decodeTableWord 8 0 = some (.nrdivU 0 0) := by rfl
theorem test_tableWord_selects : decodeTableWord 8 (5 * 2 ^ 8 + 0xC6) = some (.bcdU 99) := by rfl

/-! ### One step, from a block at reset -/

/-- The next state, `d` where there is none. -/
def nextOr (d : State) : Host.Outcome State Fault Refusal → State
  | .next t => t
  | .fault _ => d
  | .refused _ => d

/-- A block of width 4, its comparator of width 8. -/
def w4 : State := State.ofParams ⟨4, 4, 4, 4, 4, ⟨4, .largestPower10, .doubleDabble, 3, .pipelined, 1⟩, 8⟩

/-- The block after one cycle in which a payload is driven. -/
def drive1 (s : State) (c : Component) (payload : Nat) : State := nextOr s (step (s.drive c payload))

/-- P1: -100 and 7 leave magnitudes 100 and 7, with the quadrant (n-, d+). -/
theorem test_step_nrdivS :
    ((drive1 State.reset .nrdiv 0x0F39).nrdiv.regs.nIn.toNat, (drive1 State.reset .nrdiv 0x0F39).nrdiv.regs.nNeg) =
      (100, true) := by rfl
/-- An unsigned operand is not negated: V1 row 8's dividend. -/
theorem test_step_nrdivU : (drive1 State.reset .nrdiv 0b00000010_10000000_0).nrdiv.regs.nIn.toNat = 0x80 := by rfl
/-- V1 row 13: both operands of MIN / -1 are negated. -/
theorem test_step_rdivS :
    ((drive1 State.reset .rdiv 0x1FF01).rdiv.regs.nIn.toNat, (drive1 State.reset .rdiv 0x1FF01).rdiv.regs.dIn.toNat) =
      (0x80, 1) := by rfl
/-- V1 row 6: a zero divisor leaves both flags 0. -/
theorem test_step_rdivU :
    ((drive1 State.reset .rdiv 0x00190).rdiv.regs.nNeg, (drive1 State.reset .rdiv 0x00190).rdiv.regs.dNeg) =
      (false, false) := by rfl
/-- V4, cycle 1. -/
theorem test_step_ldivS :
    ((drive1 w4 .ldiv 0x053).ldiv.regs.rem.toNat, (drive1 w4 .ldiv 0x053).ldiv.regs.i.toNat,
      (drive1 w4 .ldiv 0x053).ldiv.regs.same) = (0xF9, 2, false) := by rfl
/-- R175: 9 / 1 unsigned sets the bit of weight 8 at once. -/
theorem test_step_ldivU :
    ((drive1 w4 .ldiv 0b0001_1001_0).ldiv.regs.rem.toNat, (drive1 w4 .ldiv 0b0001_1001_0).ldiv.regs.q.toNat) =
      (1, 8) := by rfl
/-- V7, cycle 1: stage 0 of -3 * -5. -/
theorem test_step_pmulS :
    (drive1 w4 .pmul 0b1011_1101_01).pmul.stages.items.head?.map (fun p => (p.a.toNat, p.b.toNat, p.acc.toNat)) =
      some (3, 5, 3) := by rfl
/-- R187: an unsigned multiplicand is extended with 0. -/
theorem test_step_pmulU :
    (drive1 w4 .pmul 0x3FC).pmul.stages.items.head?.map (fun p => (p.valid, p.a.toNat, p.sign.toNat)) =
      some (true, 0xF, 0) := by rfl
/-- R187: with tag SU the multiplicand is extended with its sign. -/
theorem test_step_pmulSU :
    (drive1 w4 .pmul 0x0FE).pmul.stages.items.head?.map (fun p => (p.a.toNat, p.b.toNat, p.acc.toNat)) =
      some (0x1F, 3, 0xFF) := by rfl
/-- V8: the register is 0x003 after the first step of -3 * 6. -/
theorem test_step_mcmulS : (drive1 w4 .mcmul 0x1B5).mcmul.regs.X.toNat = 0x003 := by rfl
/-- R213 by hand: 15 + 15 * 16 = 255, halved. -/
theorem test_step_mcmulU : (drive1 w4 .mcmul 0x3FC).mcmul.regs.X.toNat = 127 := by rfl
/-- R213 by hand: 3 + (31 * 16 mod 512) = 499, halved arithmetically in 9 bits. -/
theorem test_step_mcmulSU : (drive1 w4 .mcmul 0x0FE).mcmul.regs.X.toNat = 0x1F9 := by rfl
/-- V9: 99 is presented in the next cycle at latency 1, tag 0. -/
theorem test_step_bcdU :
    ((drive1 State.reset .bcd 0b01100011_0).bcd.signals 1).payload.map BitVec.toNat = some (0x99 * 2) := by rfl
/-- V5: -100 and 100 have equal magnitudes. -/
theorem test_step_magcmp :
    (drive1 w4 .mag 0b01100100_10011100).mag.sampled = some ⟨false, true, false⟩ := by rfl
/-- V5: MIN against -1. -/
theorem test_magcmp_min : magCompare 0x80#8 0xFF#8 = ⟨false, false, true⟩ := by rfl

/-! ### Results (V1, V6, V9) -/

theorem test_div_quadrants :
    divResult .signed 0x9C#8 0x07#8 = (0xF2, 0xFE) ∧ divResult .signed 0x64#8 0xF9#8 = (0xF2, 0x02) ∧
      divResult .signed 0x9C#8 0xF9#8 = (0x0E, 0xFE) := by decide
theorem test_div_corners :
    divResult .signed 0x80#8 0xFF#8 = (0x80, 0x00) ∧ divResult .signed 0x80#8 0x00#8 = (0xFF, 0x80) ∧
      divResult .unsigned 0x80#8 0xFF#8 = (0x00, 0x80) := by decide
theorem test_mul_signed :
    mulResult .signed 0x80#8 0x80#8 = 0x4000 ∧ mulResult .signed 0x03#8 0xFB#8 = 0xFFF1 := by decide
theorem test_mul_mixed :
    mulResult .signedUnsigned 0x80#8 0xFF#8 = 0x8080 ∧ mulResult .unsigned 0xFF#8 0xFF#8 = 0xFE01 := by decide
theorem test_bcd_digits : bcdResult 6 543210 = 0x543210#24 := by rfl
theorem test_doubleDabble : doubleDabble 3 0xFF#8 = [5, 5, 2] := by rfl

/-! ### Construction and refusals (V11) -/

theorem test_build_width : buildMulticycleDiv (.integer 1) (some .restoring) = .error .badWidth := by rfl
theorem test_build_impl : buildMulticycleDiv (.integer 8) none = .error .badImpl := by rfl
theorem test_build_notInteger : buildPipelinedMul .notInteger = .error .badWidth := by rfl
theorem test_build_bcd_width :
    buildBinaryToBcd (.integer 3) .notGiven .doubleDabble 3 .pipelined 1 = .error .badWidth := by rfl
theorem test_build_bcd_limit :
    buildBinaryToBcd (.integer 20) .otherValue .doubleDabble 3 .pipelined 1 = .error .badLimit := by rfl
theorem test_refuse_mul : step (w4.drive .pmul 3) = .refused .reservedMulSign := by rfl
theorem test_refuse_bcd : step (w4.drive .bcd 1) = .refused .bcdSignedUnspecified := by rfl

/-! ### Witnesses: encoding -/

theorem witness_DecodeOfEncode : WellFormed 8 (.nrdivS 255 255) = true ∧ WellFormed 8 (.magcmp 0 255) = true := by decide
theorem witness_EncodeOfDecode : ∃ i, decode .pmul 8 0x3FFFE = .ok i := ⟨_, rfl⟩
theorem witness_TagFieldSelectsOperation :
    (0x1FFFF < 2 ^ (8 + 8 + 1)) ∧ (0x3FFFE < 2 ^ (8 + 8 + 2) ∧ 0x3FFFE % 4 ≠ 3) ∧ (0x1FE < 2 ^ (8 + 1) ∧ 0x1FE % 2 = 0) := by
  decide
theorem witness_ReservedTagsDecodeToNothing :
    (0x3FFFF < 2 ^ (8 + 8 + 2) ∧ 0x3FFFF % 4 = 3) ∧ (0x1FF < 2 ^ (8 + 1) ∧ 0x1FF % 2 = 1) := by decide
theorem witness_PayloadFieldsLieInOrder : 1 < 2 ∧ 7 < 8 ∧ 15 < 8 + 8 ∧ 11 < 4 * 3 := by decide
theorem witness_StepRunsTheOfferedOperation : ∃ i, (State.reset.drive .rdiv 0x1FF01).fetchAt .rdiv = some i := ⟨_, rfl⟩
theorem witness_TableWordRunsFirstAfterReset : ∃ i, decodeTableWord 8 (6 * 2 ^ 8 + 0xFF) = some i := ⟨_, rfl⟩

/-! ### Witnesses: small blocks -/

/-- A line that offers a payload. -/
def offer (payload : BitVec bits) : Line bits := ⟨false, true, payload, true⟩

/-- A line that offers nothing to a ready consumer. -/
def quiet : Line bits := ⟨false, false, 0, true⟩

/-- A line that offers a payload while the consumer is not ready. -/
def stalled (payload : BitVec bits) : Line bits := ⟨false, true, payload, false⟩

/-- A line before which `reset()` is applied and in which a payload is offered. -/
def resetting (payload : BitVec bits) : Line bits := ⟨true, true, payload, true⟩

/-- The block of the smallest widths, the converter sequential with latency 2. -/
def small : State := State.ofParams ⟨2, 2, 2, 2, 2, ⟨4, .largestPower10, .doubleDabble, 3, .sequential, 2⟩, 1⟩

/-- Every component presents a result, each with the script `f` gives. -/
def presenting (f : (bits : Nat) → List (Line bits)) : State where
  cycle := 7
  nrdiv := ⟨2, { MDivRegs.reset 2 with outValid := true, outSign := .signed, outQ := 3#2, outR := 1#2 }, ⟨f _, []⟩⟩
  rdiv := ⟨2, { MDivRegs.reset 2 with outValid := true, outQ := 2#2 }, ⟨f _, []⟩⟩
  ldiv := ⟨2, { LDivRegs.reset 2 with outValid := true, q := 1#2 }, ⟨f _, []⟩⟩
  pmul := ⟨2, ⟨[⟨true, 0#2, 3#3, 3#2, 3#4⟩, ⟨true, 1#2, 1#3, 2#2, 2#4⟩], rfl⟩, ⟨f _, []⟩⟩
  mcmul := ⟨2, { MCMulRegs.reset 2 with outValid := true, X := 6#5 }, ⟨f _, []⟩⟩
  bcd := ⟨4, .largestPower10, .doubleDabble, 3, 2, .sequential { BcdSeqRegs.reset 4 2 with outValid := true, nL := 7#4 },
    ⟨f _, []⟩⟩
  mag := ⟨1, [], none⟩

/-- Every component waits with a result, offered payload 0, and gives it away in the second cycle. -/
def waiting : State := presenting fun _ => [stalled 0, quiet]

/-- Every component gives its result away as it is offered payload 0. -/
def leaving : State := presenting fun _ => [offer 0]

/-- Every component presents a result as `reset()` is applied. -/
def reset1 : State := presenting fun _ => [resetting 0]

/-- Every single-transaction component is at work, the dividers in the given state of the FSM; the pipeline waits. -/
def working (fsm : Fsm) (cnt : Nat) (i : Nat) : State :=
  { presenting (fun _ => [stalled 0]) with
    nrdiv := ⟨2, { MDivRegs.reset 2 with fsm := fsm, cnt := BitVec.ofNat _ cnt }, ⟨[quiet], []⟩⟩
    rdiv := ⟨2, { MDivRegs.reset 2 with fsm := fsm, cnt := BitVec.ofNat _ cnt }, ⟨[quiet], []⟩⟩
    ldiv := ⟨3, { LDivRegs.reset 3 with busy := true, i := BitVec.ofNat _ i }, ⟨[quiet], []⟩⟩
    mcmul := ⟨3, { MCMulRegs.reset 3 with busy := true, cnt := BitVec.ofNat _ cnt }, ⟨[quiet], []⟩⟩
    bcd := ⟨4, .largestPower10, .doubleDabble, 3, 3, .sequential { BcdSeqRegs.reset 4 3 with busy := true, cnt := BitVec.ofNat _ cnt },
      ⟨[quiet], []⟩⟩ }

/-! ### Witnesses: the accepting edges -/

/-- The premises of every accepting edge hold of a block at reset, and of one whose results are leaving. -/
theorem witness_accepting_reset :
    small.Constructible ∧ (NoOtherRefused .nrdiv small ∧ NoOtherRefused .pmul small ∧ NoOtherRefused .mag small) ∧
      (portReady small .nrdiv && portReady small .rdiv && portReady small .ldiv && portReady small .pmul &&
        portReady small .mcmul && portReady small .bcd) = true := by
  refine ⟨rfl, ?_, rfl⟩
  simp [NoOtherRefused, ReservedPmul, ReservedMcmul, SignedBcd, PMul.line, MCMul.line, Bcd.line, Port.line, small,
    State.ofParams, Port.empty, idleLine]

theorem witness_DividerAcceptingEdge :
    leaving.Constructible ∧ NoOtherRefused .nrdiv leaving ∧ NoOtherRefused .rdiv leaving ∧
      portReady leaving .nrdiv = true ∧ portReady leaving .rdiv = true := by decide
/-- The clause for an idle divider with no input transfer: a waiting result. -/
theorem witness_DividerAcceptingEdge_idle :
    (∃ t, step waiting = .next t) ∧ (waiting.nrdiv.now waiting.cycle).fsm = .idle ∧
      ((waiting.nrdiv.line waiting.cycle).valid && (waiting.nrdiv.signals waiting.cycle).inpReady) = false ∧
      (waiting.rdiv.now waiting.cycle).fsm = .idle ∧
      ((waiting.rdiv.line waiting.cycle).valid && (waiting.rdiv.signals waiting.cycle).inpReady) = false :=
  ⟨⟨_, rfl⟩, by decide⟩
theorem witness_LongDividerAcceptingEdge :
    leaving.Constructible ∧ NoOtherRefused .ldiv leaving ∧ portReady leaving .ldiv = true ∧
      (waiting.ldiv.now waiting.cycle).busy = false ∧
      ((waiting.ldiv.line waiting.cycle).valid && (waiting.ldiv.signals waiting.cycle).inpReady) = false := by decide
theorem witness_PipelineAdvancingEdge :
    leaving.Constructible ∧ NoOtherRefused .pmul leaving ∧ portReady leaving .pmul = true := by decide
theorem witness_PipelineAdvancingEdge_step :
    (∃ t, step leaving = .next t) ∧ (leaving.pmul.signals leaving.cycle).inpReady = true := ⟨⟨_, rfl⟩, rfl⟩
theorem witness_PipelineAdvancingEdge_reserved :
    (w4.drive .pmul 3).Constructible ∧ ReservedPmul (w4.drive .pmul 3) := by decide
theorem witness_PipelineFrozenEdge :
    (∃ t, step waiting = .next t) ∧ (mulTop (waiting.pmul.now waiting.cycle)).valid = true ∧
      (waiting.pmul.line waiting.cycle).ready = false := ⟨⟨_, rfl⟩, by decide⟩
theorem witness_ShiftAddAcceptingEdge :
    leaving.Constructible ∧ NoOtherRefused .mcmul leaving ∧ portReady leaving .mcmul = true := by decide
theorem witness_ShiftAddAcceptingEdge_idle :
    (∃ t, step waiting = .next t) ∧ (waiting.mcmul.now waiting.cycle).busy = false ∧
      ((waiting.mcmul.line waiting.cycle).valid && (waiting.mcmul.signals waiting.cycle).inpReady) = false :=
  ⟨⟨_, rfl⟩, by decide⟩
theorem witness_ShiftAddAcceptingEdge_reserved :
    (w4.drive .mcmul 3).Constructible ∧ ReservedMcmul (w4.drive .mcmul 3) := by decide
theorem witness_ConverterAcceptingEdge_sequential :
    leaving.Constructible ∧ NoOtherRefused .bcd leaving ∧ portReady leaving .bcd = true := by decide
theorem witness_ConverterAcceptingEdge_pipelined :
    (w4.drive .bcd 0).Constructible ∧ portReady (w4.drive .bcd 0) .bcd = true ∧
      (∃ st, (w4.drive .bcd 0).bcd.now 0 = .pipelined st) := ⟨rfl, rfl, ⟨_, rfl⟩⟩
theorem witness_ComparatorComparesMagnitudes : leaving.Constructible ∧ NoOtherRefused .mag leaving := by decide
theorem witness_UntakenOfferHasNoEffect :
    portReady waiting .nrdiv = false ∧ portReady waiting .rdiv = false ∧ portReady waiting .ldiv = false ∧
      portReady waiting .pmul = false ∧ portReady waiting .mcmul = false ∧ portReady waiting .bcd = false := by decide

/-! ### Witnesses: working edges, results -/

theorem witness_DividerWorkingEdges :
    (∃ t, step (working .divideIn 0 0) = .next t) ∧ (∃ t, step (working .divideLoop 0 0) = .next t) ∧
      (∃ t, step (working .divideLoop 1 0) = .next t) ∧ (∃ t, step (working .restore 2 0) = .next t) ∧
      (∃ t, step (working .divideOut 2 0) = .next t) := ⟨⟨_, rfl⟩, ⟨_, rfl⟩, ⟨_, rfl⟩, ⟨_, rfl⟩, ⟨_, rfl⟩⟩
/-- The last step and one before it, of each unit. -/
theorem witness_BusyEdges :
    (∃ t, step (working .idle 1 1) = .next t) ∧ (∃ t, step (working .idle 2 0) = .next t) ∧
      ((working .idle 1 1).ldiv.now 7).busy = true ∧ ((working .idle 2 0).mcmul.now 7).busy = true :=
  ⟨⟨_, rfl⟩, ⟨_, rfl⟩, rfl, rfl⟩
/-- Both clauses at their boundary: the candidate equals the remainder, and exceeds it by one. -/
theorem witness_LongDivisionStepIsExact :
    2 ≤ 2 ∧ 1 < 2 ∧ |(2#4).toInt| < 2 ^ 2 ∧ |(1#3).toInt| < 2 ^ 2 ∧ |(1#3).toInt * 2 ^ 1| ≤ |(2#4).toInt| ∧
      |(1#4).toInt| < |(1#3).toInt * 2 ^ 1| := by decide

/-- Every port is offered payload 0 and then nothing, for as many cycles as the longest run below. -/
def accepting : State :=
  { small with
    nrdiv := { small.nrdiv with port := ⟨[quiet, quiet, quiet, quiet, quiet, quiet], []⟩ }
    rdiv := { small.rdiv with port := ⟨[quiet, quiet, quiet, quiet, quiet, quiet], []⟩ }
    ldiv := { small.ldiv with port := ⟨[quiet, quiet], []⟩ }
    pmul := { small.pmul with port := ⟨[quiet, quiet, quiet], []⟩ }
    mcmul := { small.mcmul with port := ⟨[quiet, quiet], []⟩ }
    bcd := { small.bcd with port := ⟨[quiet, quiet], []⟩ } }

theorem witness_DividersPresentDivresult_nrdiv :
    ∃ s1 t, portReady accepting .nrdiv = true ∧ exec (nrdivOp .signed 2 3) accepting = .next s1 ∧
      NoResetIn 5 s1.nrdiv.port.script ∧ RunsTo 5 s1 t := ⟨_, _, rfl, rfl, by decide, rfl⟩
theorem witness_DividersPresentDivresult_rdiv :
    ∃ s1 t, portReady accepting .rdiv = true ∧ exec (rdivOp .unsigned 3 0) accepting = .next s1 ∧
      NoResetIn 4 s1.rdiv.port.script ∧ RunsTo 4 s1 t := ⟨_, _, rfl, rfl, by decide, rfl⟩
theorem witness_LongDividerPresentsDivresult :
    ∃ s1 t, portReady accepting .ldiv = true ∧ exec (ldivOp .signed 2 3) accepting = .next s1 ∧
      NoResetIn 1 s1.ldiv.port.script ∧ RunsTo 1 s1 t := ⟨_, _, rfl, rfl, by decide, rfl⟩
theorem witness_PipelinePresentsMulresult :
    ∃ s1 t, portReady accepting .pmul = true ∧ exec (pmulOp .signedUnsigned 2 3) accepting = .next s1 ∧
      NoResetIn 1 s1.pmul.port.script ∧ RunsTo 1 s1 t ∧ pmulAdvances 1 s1 = accepting.pmul.W - 1 :=
  ⟨_, _, rfl, rfl, by decide, rfl, rfl⟩
theorem witness_ShiftAddPresentsMulresult :
    ∃ s1 t, portReady accepting .mcmul = true ∧ exec (mcmulOp .signed 2 2) accepting = .next s1 ∧
      NoResetIn 1 s1.mcmul.port.script ∧ RunsTo 1 s1 t := ⟨_, _, rfl, rfl, by decide, rfl⟩
theorem witness_ConverterPresentsDigits_sequential :
    ∃ s1 t, portReady accepting .bcd = true ∧ exec (.bcdU 9) accepting = .next s1 ∧
      NoResetIn 1 s1.bcd.port.script ∧ RunsTo 1 s1 t ∧ 1 = accepting.bcd.latency - 1 :=
  ⟨_, _, rfl, rfl, by decide, rfl, rfl⟩
/-- Pipelined with latency 1, at an over-range input. -/
theorem witness_ConverterPresentsDigits_pipelined :
    ∃ s1 t, portReady w4 .bcd = true ∧ exec (.bcdU 15) w4 = .next s1 ∧
      NoResetIn 0 s1.bcd.port.script ∧ RunsTo 0 s1 t ∧ bcdAdvances 0 s1 = w4.bcd.latency - 1 :=
  ⟨_, _, rfl, rfl, by decide, rfl, rfl⟩
theorem witness_RunsGoOn : leaving.Constructible ∧ leaving.NoReservedOffer 3 := by decide

/-! ### Witnesses: order, invariants -/

theorem pipelineGood_leaving : PipelineGood leaving.pmul.stages := by
  have key : ∀ i : Fin 2, (leaving.pmul.stages.items[i.val]'i.isLt).Good i := by decide
  exact fun i h => key ⟨i, h⟩

theorem witness_PipelineIsAFaithfulQueue :
    PipelineGood leaving.pmul.stages ∧ (leaving.pmul.line leaving.cycle).reset = false ∧ ∃ t, step leaving = .next t :=
  ⟨pipelineGood_leaving, rfl, ⟨_, rfl⟩⟩
theorem witness_ConverterIsAFaithfulQueue :
    leaving.bcd.regs.Control ∧ (leaving.bcd.line leaving.cycle).reset = false ∧ ∃ t, step leaving = .next t :=
  ⟨nofun, rfl, ⟨_, rfl⟩⟩
theorem control_leaving : leaving.Control := by
  refine ⟨?_, ?_, ?_, ?_, ?_⟩ <;> first | decide | nofun
theorem control_waiting : waiting.Control := by
  refine ⟨?_, ?_, ?_, ?_, ?_⟩ <;> first | decide | nofun
theorem witness_EveryTransactionIsHeldOrObserved :
    leaving.Control ∧ NoResetNow leaving ∧ ∃ t, step leaving = .next t := ⟨control_leaving, by decide, ⟨_, rfl⟩⟩
theorem witness_StepKeepsControl : leaving.Control ∧ ∃ t, step leaving = .next t := ⟨control_leaving, ⟨_, rfl⟩⟩
/-- Dividers at the start of a loop that divides 0 by 0. -/
theorem witness_StepKeepsDividerCores :
    (working .divideLoop 0 0).DividersGood ∧ ∃ t, step (working .divideLoop 0 0) = .next t := by
  refine ⟨⟨by decide, ⟨fun _ => ⟨rfl, nofun, fun _ => ⟨by decide, by decide, ?_⟩⟩, nofun, nofun⟩, by decide,
    ⟨fun _ => ⟨rfl, fun _ => ⟨by decide, ?_⟩, nofun⟩, nofun, nofun⟩⟩, ⟨_, rfl⟩⟩
  · exact (if_pos (c := (0#2 = 0#2)) rfl).mpr ⟨by decide, by decide⟩
  · exact (if_pos (c := (0#2 = 0#2)) rfl).mpr ⟨by decide, by decide⟩
theorem witness_StepKeepsPipelineGood :
    PipelineGood leaving.pmul.stages ∧ ∃ t, step leaving = .next t := ⟨pipelineGood_leaving, ⟨_, rfl⟩⟩
theorem witness_ResetStateIsIdle : ∃ s, State.build Params.default = .ok s := ⟨_, rfl⟩

/-! ### Witnesses: the handshake and the whole machine -/

theorem witness_ReadinessRules_modes :
    (∃ st, w4.bcd.now 0 = .pipelined st) ∧ (∃ q, waiting.bcd.now 7 = .sequential q) := ⟨⟨_, rfl⟩, ⟨_, rfl⟩⟩
theorem witness_WaitingResultIsStable :
    ∃ t, waiting.Control ∧ step waiting = .next t ∧ NoResetNow t ∧ (waiting.nrdiv.signals waiting.cycle).outpValid = true ∧
      (waiting.nrdiv.line waiting.cycle).ready = false ∧ (waiting.bcd.signals waiting.cycle).outpValid = true ∧
      (waiting.bcd.line waiting.cycle).ready = false :=
  ⟨_, control_waiting, rfl, by decide, by decide, by decide, by decide, by decide⟩
theorem witness_PresentedResultIsDelivered :
    ∃ t, waiting.Control ∧ RunsTo 2 waiting t ∧ (waiting.nrdiv.signals waiting.cycle).outpValid = true ∧
      NoResetIn 2 waiting.nrdiv.port.script ∧ ReadyWithin 2 waiting.nrdiv.port.script :=
  ⟨_, control_waiting, rfl, rfl, by decide, by decide⟩
theorem witness_WaitingResultClosesInput :
    waiting.handshakes = [(false, true), (false, true), (false, true), (false, true), (false, true), (false, true)] ∧
      (waiting.pmul.line waiting.cycle).ready = false := by decide
theorem witness_IdleCycleChangesNoControl :
    accepting.Drained ∧ NoResetNow accepting ∧ NothingOffered accepting ∧ ∃ t, step accepting = .next t :=
  ⟨by decide, by decide, by decide, ⟨_, rfl⟩⟩
theorem witness_OutputTransferIsObserved : ∃ t, step leaving = .next t := ⟨_, rfl⟩
/-- The registers of `presenting`, packed by hand from bit 0 upward (41_multicycle_div.md R120, 42_long_divider.md R166,
44_multicycle_mul.md R214). -/
theorem test_outputSignals :
    (waiting.nrdiv.signals 7).payload.map BitVec.toNat = some 0b01111 ∧
      (waiting.ldiv.signals 7).payload.map BitVec.toNat = some 0b00010 ∧
      (waiting.mcmul.signals 7).payload.map BitVec.toNat = some 0b011000 ∧
      (accepting.nrdiv.signals 7).payload.map BitVec.toNat = none := by decide
/-- Two blocks of one control view with different data. -/
theorem witness_TimingIgnoresData :
    ∃ t t', leaving.controlView = (presenting fun _ => [offer 4]).controlView ∧ step leaving = .next t ∧
      step (presenting fun _ => [offer 4]) = .next t' := ⟨_, _, by decide, rfl, rfl⟩
theorem witness_InstancesAreIndependent :
    ∃ t t', leaving.cycle = waiting.cycle ∧ step leaving = .next t ∧ step waiting = .next t' ∧ leaving.mag = waiting.mag :=
  ⟨_, _, rfl, rfl, rfl, rfl⟩
theorem witness_ParametersNeverChange : ∃ t, step leaving = .next t := ⟨_, rfl⟩
theorem witness_ResetDiscardsTransactions :
    (∃ t, step reset1 = .next t) ∧ (reset1.nrdiv.line 7).reset = true ∧ (reset1.pmul.line 7).reset = true ∧
      (reset1.bcd.line 7).reset = true := ⟨⟨_, rfl⟩, rfl, rfl, rfl⟩
theorem witness_RefusalsAreExactlyReservedTags :
    (w4.drive .pmul 3).Constructible ∧ ReservedPmul (w4.drive .pmul 3) ∧ ReservedMcmul (w4.drive .mcmul 3) ∧
      SignedBcd (w4.drive .bcd 1) := by decide
theorem witness_RefusalsAreExactlyReservedTags_none :
    leaving.Constructible ∧ ¬(ReservedPmul leaving ∨ ReservedMcmul leaving ∨ SignedBcd leaving) := by decide
theorem witness_FaultsMeanNoBlock :
    step (State.ofParams { Params.default with ldivW := 1 }) = .fault (.configError .badWidth) ∧
      step (State.ofParams { Params.default with magW := 0 }) = .fault .parameterNotAdmitted := ⟨rfl, rfl⟩
/-- The smallest widths admitted, for the block's clause. -/
def smallRequest : BlockRequest :=
  ⟨.integer 2, .integer 2, .integer 2, .integer 2, .integer 2, .integer 4, .notGiven, .base1000, 3, .sequential, 2, 1⟩
theorem witness_ConstructionErrors : ∃ s, State.construct smallRequest = .ok s := ⟨_, rfl⟩
theorem test_construct_notInteger :
    State.construct { smallRequest with mcmulW := .notInteger } = .error (.configError .badWidth) := by rfl
theorem test_construct_otherLimit :
    State.construct { smallRequest with limit := .otherValue } = .error (.configError .badLimit) := by rfl
theorem witness_ConstructionErrors_bcd :
    ∃ p, buildBinaryToBcd (.integer 4) (.given .entireRange) .doubleDabble 0 .pipelined 1 = .ok p := ⟨_, rfl⟩
theorem witness_ConstructionErrors_broken :
    divBroken (.integer 1) none .badWidth ∧ divBroken (.integer 2) none .badImpl ∧
      bcdBroken .notInteger .notGiven .doubleDabble 3 .badWidth ∧ bcdBroken (.integer 4) .otherValue .doubleDabble 3 .badLimit :=
  ⟨fun _ h => by cases h; decide, rfl, nofun, rfl⟩
theorem witness_ConstructionCheckOrder :
    Narrow 2 (.integer 1) ∧ Narrow 4 (.integer 3) ∧ ¬Narrow 4 (.integer 4) ∧ LimitRequest.otherValue = .otherValue :=
  ⟨fun _ h => by cases h; decide, fun _ h => by cases h; decide, fun h => absurd (h 4 rfl) (by decide), rfl⟩
/-- Both kinds of refusal at one edge, and the converter's alone. -/
theorem witness_RefusalOrder :
    ((w4.drive .pmul 3).drive .bcd 1).Constructible ∧ ReservedPmul ((w4.drive .pmul 3).drive .bcd 1) ∧
      SignedBcd ((w4.drive .pmul 3).drive .bcd 1) ∧ SignedBcd ((leaving.drive .bcd 1)) ∧
      ¬(ReservedPmul (leaving.drive .bcd 1) ∨ ReservedMcmul (leaving.drive .bcd 1)) := by decide
theorem witness_ComparatorOutputs : 1 ≤ 1 := by decide
/-- The converter does not refuse at the edge at which a multiplier does. -/
theorem witness_AcceptingEdges_reserved_alone :
    ¬SignedBcd ((leaving.drive .pmul 3)) ∧ ReservedPmul (leaving.drive .pmul 3) ∧
      ¬SignedBcd (leaving.drive .mcmul 3) ∧ ReservedMcmul (leaving.drive .mcmul 3) := by decide

/-! ### Witnesses: arithmetic -/

/-- The premise `2 <= W` of the arithmetic statements, at its boundary. -/
theorem witness_smallest_width : 2 ≤ 2 ∧ 1 ≤ 1 ∧ 1 ≤ 2 ∧ 2 ≤ 2 := by decide
theorem witness_DivresultIsExactDivision :
    (0#2 = 0#2) ∧ (2#2 = minWord 2 ∧ 3#2 = onesWord 2) ∧ (1#2 ≠ 0#2 ∧ ¬(2#2 = minWord 2 ∧ 1#2 = onesWord 2)) := by decide
theorem witness_MagnitudesAreExact : 2#2 ≠ 0#2 ∧ 0#2 = 0#2 := by decide
theorem witness_DigitCounts : 4 ≤ 4 ∧ 10 ^ 1 ≤ 2 ^ 4 - 1 ∧ (7 ≤ 9 ∧ 9 ≤ 9) ∧ (20 ≤ 23 ∧ 23 ≤ 23) := by decide
theorem witness_DigitsOfBcdresult : 5 < 6 ∧ 4 ≤ 4 := by decide
theorem witness_DoubleDabbleIsBcdresult : (99#8).toNat < 10 ^ 2 := by decide

/-- Every component waits with a result and is offered payload 0 until it is taken, in the second cycle. -/
def holding : State := presenting fun _ => [stalled 0, offer 0]

theorem control_holding : holding.Control := by
  refine ⟨?_, ?_, ?_, ?_, ?_⟩ <;> first | decide | nofun
theorem test_driverHoldsOffer : holding.DriverHoldsOffer .nrdiv 6 := by
  iterate 6 refine (State.driverHoldsOffer_succ_iff rfl _ _).mpr ⟨by decide, ?_⟩
  trivial
/-- The boundary: `outp.ready` in the last of the 6 cycles, the first in which no earlier transaction can be at work. -/
theorem witness_OfferHeldIsAccepted :
    ∃ t, holding.Control ∧ RunsTo 6 holding t ∧ holding.offered .nrdiv = some 0 ∧ holding.DriverHoldsOffer .nrdiv 6 ∧
      holding.ConsumerFair .nrdiv (busyAtMost holding .nrdiv) 6 :=
  ⟨_, control_holding, rfl, by decide, test_driverHoldsOffer, 5, _, by decide, by decide, rfl, rfl⟩
/-- A driver that drops its offer, or changes it, breaks the premise. -/
theorem test_driverHoldsOffer_broken :
    ¬waiting.DriverHoldsOffer .nrdiv 1 ∧ ¬(presenting fun _ => [stalled 0, stalled 1]).DriverHoldsOffer .pmul 1 := by
  rw [State.driverHoldsOffer_succ_iff rfl, State.driverHoldsOffer_succ_iff rfl]
  exact ⟨fun h => absurd h.1 (by decide), fun h => absurd h.1 (by decide)⟩

end Sys2Proof.Tests
end

/-! PROOFS. No state is shared between instances (10_state.md R38). -/

namespace Sys2Proof.Machine

/-- What a step makes of each instance is that instance's own edge: its registers, its lines and the cycle, and nothing else
of the block (00_scope.md R12, 10_state.md R38). -/
theorem step_instances {s t : State} (h : step s = .next t) :
    t.nrdiv = s.nrdiv.edge s.cycle ∧ t.rdiv = s.rdiv.edge s.cycle ∧ t.ldiv = s.ldiv.edge s.cycle ∧
      t.pmul = s.pmul.edge s.cycle ∧ t.mcmul = s.mcmul.edge s.cycle ∧ t.bcd = s.bcd.edge s.cycle ∧ t.mag = s.mag.edge := by
  obtain ⟨-, -, rfl⟩ := step_next_elim h
  exact ⟨rfl, rfl, rfl, rfl, rfl, rfl, rfl⟩

/-- Settles O40: both blocks' instances become their own edges, at one cycle, so equal instances become equal instances. -/
theorem instancesAreIndependent : Obligations.InstancesAreIndependent := by
  intro s s' t t' hcycle hstep hstep'
  obtain ⟨hnrdiv, hrdiv, hldiv, hpmul, hmcmul, hbcd, hmag⟩ := step_instances hstep
  obtain ⟨hnrdiv', hrdiv', hldiv', hpmul', hmcmul', hbcd', hmag'⟩ := step_instances hstep'
  refine ⟨fun e => ?nrdiv, fun e => ?rdiv, fun e => ?ldiv, fun e => ?pmul, fun e => ?mcmul, fun e => ?bcd, fun e => ?mag⟩
  case nrdiv => rw [hnrdiv, hnrdiv', e, hcycle]
  case rdiv => rw [hrdiv, hrdiv', e, hcycle]
  case ldiv => rw [hldiv, hldiv', e, hcycle]
  case pmul => rw [hpmul, hpmul', e, hcycle]
  case mcmul => rw [hmcmul, hmcmul', e, hcycle]
  case bcd => rw [hbcd, hbcd', e, hcycle]
  case mag => rw [hmag, hmag', e]

end Sys2Proof.Machine

/-! PROOFS. Where the fields of a payload lie (30_encoding.md R75 to R80). -/

namespace Sys2Proof

/-- A field read from bit `k` upward holds the payload's bits from `k` on, in its own bit order (30_encoding.md R75). -/
theorem getLsbD_of_field {bits k w j : Nat} {p : BitVec bits} {f : BitVec w} (hf : p.extractLsb' k w = f) (hj : j < w) :
    p.getLsbD (k + j) = f.getLsbD j := by
  rw [← hf, BitVec.getLsbD_extractLsb', decide_eq_true hj, Bool.true_and]

/-- The same for the first field, which starts at bit 0. -/
theorem getLsbD_of_firstField {bits w j : Nat} {p : BitVec bits} {f : BitVec w} (hf : p.extractLsb' 0 w = f) (hj : j < w) :
    p.getLsbD j = f.getLsbD j := by
  simpa using getLsbD_of_field hf hj

/-- Settles O5: each field's reader gives back what was packed, and it reads at that field's place. -/
theorem payloadFieldsLieInOrder : Obligations.PayloadFieldsLieInOrder := by
  intro W D s1 s2 x y o digits j
  refine ⟨?divIn, ?divOut, ?mulIn, ?mulOut, ?bcdIn, ?bcdOut⟩
  case divIn =>
    exact ⟨getLsbD_of_firstField (divSignField_packDivIn s1 x y) Nat.one_pos,
      getLsbD_of_field (divLowField_packDivIn s1 x y), getLsbD_of_field (divHighField_packDivIn s1 x y)⟩
  case divOut =>
    exact ⟨getLsbD_of_firstField (divSignField_packDivOut s1 x y) Nat.one_pos,
      getLsbD_of_field (divLowField_packDivOut s1 x y), getLsbD_of_field (divHighField_packDivOut s1 x y)⟩
  case mulIn =>
    exact ⟨getLsbD_of_firstField (mulSignField_packMulIn s2 x y),
      getLsbD_of_field (mulAField_packMulIn s2 x y), getLsbD_of_field (mulBField_packMulIn s2 x y)⟩
  case mulOut =>
    exact ⟨getLsbD_of_firstField (mulSignField_packMulOut s2 o), getLsbD_of_field (mulOutField_packMulOut s2 o)⟩
  case bcdIn =>
    exact ⟨getLsbD_of_firstField (bcdSignField_packBcdIn s1 x) Nat.one_pos, getLsbD_of_field (bcdNField_packBcdIn s1 x)⟩
  case bcdOut =>
    exact ⟨getLsbD_of_firstField (extract_low digits s1) Nat.one_pos,
      getLsbD_of_field (bcdDigitsField_packBcdOut s1 digits)⟩

end Sys2Proof

/-! PROOFS. The edges of both dividers: the input transfer of an idle one (41_multicycle_div.md R121) and the edges of a
transaction being computed (R123, R126, R127, R130), for either `impl` at once. -/

namespace Sys2Proof.Machine

open Sys2Proof.Claims

/-! ### The sign shell -/

theorem quadrant_eq_true_iff (g : DivSign) (v d : Word W) :
    quadrant g v d = true ↔ g = .signed ∧ v.msb = true ∧ d ≠ 0#W := by
  simp [quadrant, and_assoc]

theorem negWhen_quadrant (g : DivSign) (v d w : Word W) :
    negWhen (quadrant g v d) w = if g = .signed ∧ v.msb = true ∧ d ≠ 0#W then -w else w :=
  if_congr (quadrant_eq_true_iff g v d) rfl rfl

theorem negWhen_xor (a b : Bool) (v : Word W) : negWhen (a ^^ b) v = if a ≠ b then -v else v :=
  if_congr bne_iff_ne rfl rfl

/-! ### The input transfer -/

/-- What the accepting edge latches, with a result that waited gone, is what R121 says. -/
theorem MDivRegs.accept_divAccepted (r : MDivRegs W) (g : DivSign) (n d : Word W) :
    DivAccepted r { r.accept g n d with outValid := false } g n d :=
  ⟨quadrant_eq_true_iff g n d, quadrant_eq_true_iff g d d, negWhen_quadrant g n d n, negWhen_quadrant g d d d,
    rfl, rfl, rfl, rfl, rfl, rfl, rfl, rfl, rfl⟩

/-- The port of a divider after its edge (40_handshake.md R100). -/
theorem MDiv.edge_portAfter (u : MDiv impl) (cycle : Nat) :
    PortAfter u.port (u.edge cycle).port cycle (u.now cycle).outValid (u.line cycle).ready (u.now cycle).outPayload :=
  ⟨rfl, Port.clocked_log_shown _ _ _ _ _ _⟩

/-- A divider that is ready takes the operation it is offered. An offer leaves `reset` and `outp.ready` of the line, so the
registers of the cycle and the result that leaves are those of `u` itself. -/
theorem MDiv.edge_offer (u : MDiv impl) (cycle : Nat) (g : DivSign) (n d : Word u.W)
    (hready : (u.signals cycle).inpReady = true) :
    ∃ r' p', (u.offer cycle (packDivIn g.bit n d)).edge cycle = ⟨u.W, r', p'⟩ ∧ DivAccepted (u.now cycle) r' g n d ∧
      PortAfter u.port p' cycle (u.now cycle).outValid (u.line cycle).ready (u.now cycle).outPayload := by
  refine ⟨_, _, rfl, ?latched, MDiv.edge_portAfter (u.offer cycle (packDivIn g.bit n d)) cycle⟩
  have hedge := MDivRegs.edge_accept impl (u.now cycle)
    { u.line cycle with valid := true, payload := packDivIn g.bit n d } rfl hready
  rw [divSignField_packDivIn, DivSign.ofBit_bit, divLowField_packDivIn, divHighField_packDivIn] at hedge
  exact hedge ▸ MDivRegs.accept_divAccepted (u.now cycle) g n d

/-- Only the multipliers and the converter refuse (60_exceptions.md R262): if no port but another component's is handed a
reserved tag, the cycle is not refused. -/
theorem refusal_eq_none_of_noOtherRefused {c : Component} {s : State} (h : NoOtherRefused c s) (hp : c ≠ .pmul)
    (hm : c ≠ .mcmul) (hb : c ≠ .bcd) : s.refusal = none := by
  obtain ⟨hpmul, hmcmul, hbcd⟩ := h
  exact (refusal_eq_none_iff s).mpr ⟨(PMul.refusal_eq_none_iff _ _).mpr (hpmul hp),
    (MCMul.refusal_eq_none_iff _ _).mpr (hmcmul hm), (Bcd.refusal_eq_none_iff _ _).mpr (hbcd hb)⟩

/-- An operation of the non-restoring divider is the clock edge with its payload offered, whatever its tag. -/
theorem exec_nrdivOp (g : DivSign) (n d : Nat) (s : State) : exec (nrdivOp g n d) s = clock (s.offerNrdiv g n d) := by
  cases g <;> rfl

/-- The same for the restoring divider. -/
theorem exec_rdivOp (g : DivSign) (n d : Nat) (s : State) : exec (rdivOp g n d) s = clock (s.offerRdiv g n d) := by
  cases g <;> rfl

/-- "Otherwise no register named here changes" (41_multicycle_div.md R121): only a result that leaves goes. -/
theorem MDiv.edge_idleDividerKeeps (u : MDiv impl) (cycle : Nat) : IdleDividerKeeps impl u (u.edge cycle) cycle :=
  fun hidle hnone => ⟨_, _, rfl, MDivRegs.edge_idle impl (u.now cycle) (u.line cycle) hidle hnone, u.edge_portAfter cycle⟩

/-- Settles O9: the dividers are never refused an operation, so the block's edge is taken, and at it the divider offered the
operation accepts it; the offer leaves every other instance, and with it every refusal, as it was. -/
theorem dividerAcceptingEdge : Obligations.DividerAcceptingEdge := by
  refine ⟨?nrdiv, ?rdiv, ?idle⟩
  case nrdiv =>
    intro s g n d hfault hother hready
    have hrefusal : s.refusal = none := refusal_eq_none_of_noOtherRefused hother nofun nofun nofun
    have hedge : exec (nrdivOp g n d) s = .next (s.offerNrdiv g n d).edge :=
      (exec_nrdivOp g n d s).trans (clock_eq_next hfault hrefusal)
    have hframe : OthersAdvance .nrdiv s (s.offerNrdiv g n d).edge :=
      ⟨rfl, (absurd rfl ·), fun _ => rfl, fun _ => rfl, fun _ => rfl, fun _ => rfl, fun _ => rfl, fun _ => rfl⟩
    exact ⟨_, hedge, hframe, s.nrdiv.edge_offer s.cycle g _ _ hready⟩
  case rdiv =>
    intro s g n d hfault hother hready
    have hrefusal : s.refusal = none := refusal_eq_none_of_noOtherRefused hother nofun nofun nofun
    have hedge : exec (rdivOp g n d) s = .next (s.offerRdiv g n d).edge :=
      (exec_rdivOp g n d s).trans (clock_eq_next hfault hrefusal)
    have hframe : OthersAdvance .rdiv s (s.offerRdiv g n d).edge :=
      ⟨rfl, fun _ => rfl, (absurd rfl ·), fun _ => rfl, fun _ => rfl, fun _ => rfl, fun _ => rfl, fun _ => rfl⟩
    exact ⟨_, hedge, hframe, s.rdiv.edge_offer s.cycle g _ _ hready⟩
  case idle =>
    intro s t hstep
    obtain ⟨hnrdiv, hrdiv, -⟩ := step_instances hstep
    exact ⟨hnrdiv ▸ s.nrdiv.edge_idleDividerKeeps s.cycle, hrdiv ▸ s.rdiv.edge_idleDividerKeeps s.cycle⟩

/-! ### The edges of a transaction being computed -/

/-- Each working state's edge is its rule's, the output transfer of the edge beside it. -/
theorem MDivRegs.edge_dividerWorks (impl : Impl) (r : MDivRegs W) (l : Line (W + W + 1)) :
    DividerWorks impl r (r.edge impl l) (r.outValid && !l.ready) := by
  refine ⟨fun hf => ?divideIn, fun hf => ?divideLoop, fun hf _ => ?restore, fun hf => ?divideOut⟩
  case divideIn =>
    rw [r.edge_divideIn impl l hf]
    rfl
  case divideLoop =>
    rw [r.edge_divideLoop impl l hf]
    cases impl <;> simp [MDivRegs.iterate, loopBody, afterLoop, hf]
  case restore =>
    rw [r.edge_restore impl l hf]
    rfl
  case divideOut =>
    rw [r.edge_divideOut impl l hf, MDivRegs.present, negWhen_xor]
    rfl

/-- Settles O17: a step gives each divider its own edge, and the edge is that of its FSM state. -/
theorem dividerWorkingEdges : Obligations.DividerWorkingEdges := by
  intro s t hstep
  obtain ⟨hnrdiv, hrdiv, -⟩ := step_instances hstep
  exact ⟨⟨_, _, hnrdiv, MDivRegs.edge_dividerWorks _ _ _⟩, ⟨_, _, hrdiv, MDivRegs.edge_dividerWorks _ _ _⟩⟩

end Sys2Proof.Machine

/-! PROOFS. What a construction gives and why it fails, in any order of its checks (60_exceptions.md R258). -/

namespace Sys2Proof.Machine

open Sys2Proof.Claims

/-- A construction reports what is broken, if every error is a reason that holds and what is constructed has none. -/
theorem reportsBroken_of {broken : ConfigError → Prop} {r : Except ConfigError α} (herror : ∀ e, r = .error e → broken e)
    (hok : ∀ x, r = .ok x → ∀ e, ¬broken e) : ReportsBroken broken r := by
  refine ⟨herror, fun ⟨e, he⟩ => ?_⟩
  cases r with
  | error e' => exact ⟨e', rfl⟩
  | ok x => exact absurd he (hok x rfl e)

theorem not_narrow_integer {least w : Nat} (h : least ≤ w) : ¬Narrow least (.integer w) :=
  fun hn => absurd (hn w rfl) (by omega)

/-! ### The dividers and the multipliers (R115, R160, R185, R210) -/

theorem checkWidth_eq_ok_iff (W : WidthRequest) (w : Nat) : checkWidth W = .ok w ↔ W = .integer w ∧ 2 ≤ w :=
  checkWidthFrom_eq_ok_iff 2 W w

theorem checkWidth_eq_error_iff (W : WidthRequest) (e : ConfigError) :
    checkWidth W = .error e ↔ e = .badWidth ∧ Narrow 2 W :=
  checkWidthFrom_eq_error_iff 2 W e

theorem checkWidth_reportsBroken (W : WidthRequest) :
    ReportsBroken (fun e => e = .badWidth ∧ Narrow 2 W) (checkWidth W) := by
  refine reportsBroken_of (fun e => (checkWidth_eq_error_iff W e).mp) fun w hw e ⟨_, hn⟩ => ?_
  obtain ⟨rfl, hle⟩ := (checkWidth_eq_ok_iff W w).mp hw
  exact not_narrow_integer hle hn

theorem buildMulticycleDiv_eq_ok_iff (W : WidthRequest) (impl : Option Impl) (w : Nat) (i : Impl) :
    buildMulticycleDiv W impl = .ok (w, i) ↔ W = .integer w ∧ 2 ≤ w ∧ impl = some i := by
  rw [← and_assoc, ← checkWidth_eq_ok_iff]
  unfold buildMulticycleDiv
  cases checkWidth W <;> cases impl <;> simp

theorem divBroken_of_error {W : WidthRequest} {impl : Option Impl} {e : ConfigError}
    (h : buildMulticycleDiv W impl = .error e) : divBroken W impl e := by
  unfold buildMulticycleDiv at h
  split at h
  next e' hwidth =>
    obtain ⟨rfl, hn⟩ := (checkWidth_eq_error_iff W e').mp hwidth
    cases h
    exact hn
  next =>
    split at h
    · cases h
      exact rfl
    · cases h

theorem buildMulticycleDiv_reportsBroken (W : WidthRequest) (impl : Option Impl) :
    ReportsBroken (divBroken W impl) (buildMulticycleDiv W impl) := by
  refine reportsBroken_of (fun e => divBroken_of_error) fun ⟨w, i⟩ hok e hbroken => ?_
  obtain ⟨rfl, hle, rfl⟩ := (buildMulticycleDiv_eq_ok_iff W impl w i).mp hok
  cases e with
  | badWidth => exact not_narrow_integer hle hbroken
  | badImpl => cases hbroken
  | badLimit => exact hbroken
  | badStageCount => exact hbroken

/-! ### The converter (R230, R231, R233) -/

/-- What passes every check of the converter, and with which parameters. -/
theorem buildBinaryToBcd_eq_ok_iff (W : WidthRequest) (limit : LimitRequest) (impl : BcdImpl) (stages : Nat) (mode : BcdMode)
    (latency : Nat) (p : BcdParams) :
    buildBinaryToBcd W limit impl stages mode latency = .ok p ↔
      (W = .integer p.W ∧ 4 ≤ p.W) ∧ requestedLimit limit = .ok p.limit ∧ badStageCount impl stages = false ∧
        p.impl = impl ∧ p.stageCount = stages ∧ p.mode = mode ∧ p.latency = latency := by
  rw [← checkWidthFrom_eq_ok_iff 4]
  unfold buildBinaryToBcd
  obtain ⟨w, l, i, k, m, lat⟩ := p
  cases hwidth : checkWidthFrom 4 W with
  | error e => simp
  | ok w' =>
    cases hlimit : requestedLimit limit with
    | error e => simp
    | ok l' => cases hstages : badStageCount impl stages <;> simp [eq_comm]

theorem bcdBroken_of_error {W : WidthRequest} {limit : LimitRequest} {impl : BcdImpl} {stages : Nat} {mode : BcdMode}
    {latency : Nat} {e : ConfigError} (h : buildBinaryToBcd W limit impl stages mode latency = .error e) :
    bcdBroken W limit impl stages e := by
  unfold buildBinaryToBcd at h
  split at h
  next e' hwidth =>
    obtain ⟨rfl, hn⟩ := (checkWidthFrom_eq_error_iff 4 W e').mp hwidth
    cases h
    exact hn
  next =>
    split at h
    next e' hlimit =>
      obtain ⟨rfl, ho⟩ := (requestedLimit_eq_error_iff limit e').mp hlimit
      cases h
      exact ho
    next =>
      split at h
      next hstages =>
        cases h
        exact (badStageCount_iff impl stages).mp hstages
      next => cases h

theorem not_bcdBroken_of_ok {W : WidthRequest} {limit : LimitRequest} {impl : BcdImpl} {stages : Nat} {mode : BcdMode}
    {latency : Nat} {p : BcdParams} (h : buildBinaryToBcd W limit impl stages mode latency = .ok p) (e : ConfigError) :
    ¬bcdBroken W limit impl stages e := by
  obtain ⟨⟨rfl, hle⟩, hlimit, hstages, -⟩ := (buildBinaryToBcd_eq_ok_iff _ _ _ _ _ _ _).mp h
  intro hbroken
  cases e with
  | badWidth => exact not_narrow_integer hle hbroken
  | badImpl => exact hbroken
  | badLimit =>
    obtain rfl : limit = .otherValue := hbroken
    cases hlimit
  | badStageCount => exact absurd ((badStageCount_iff impl stages).mpr hbroken) (by simp [hstages])

theorem converterAsRequested_of_ok {W : WidthRequest} {limit : LimitRequest} {impl : BcdImpl} {stages : Nat} {mode : BcdMode}
    {latency : Nat} {p : BcdParams} (h : buildBinaryToBcd W limit impl stages mode latency = .ok p) :
    ConverterAsRequested W limit impl stages mode latency p := by
  obtain ⟨⟨hW, hle⟩, hlimit, -, hrest⟩ := (buildBinaryToBcd_eq_ok_iff _ _ _ _ _ _ _).mp h
  rcases (requestedLimit_eq_ok_iff limit p.limit).mp hlimit with ⟨rfl, hdefault⟩ | rfl
  · exact ⟨hW, hle, nofun, fun _ => hdefault, nofun, hrest⟩
  · exact ⟨hW, hle, nofun, nofun, fun _ hl => LimitRequest.given.inj hl, hrest⟩

/-! ### The block -/

/-- A sequence of constructions gives a result exactly if its first step gives one and the rest goes on from it. -/
theorem bind_eq_ok_iff (x : Except ε α) (f : α → Except ε β) (y : β) :
    (x >>= f) = .ok y ↔ ∃ a, x = .ok a ∧ f a = .ok y := by
  cases x with
  | error e => exact ⟨nofun, nofun⟩
  | ok a => exact ⟨fun h => ⟨a, rfl, h⟩, fun ⟨_, rfl, h⟩ => h⟩

/-- Every instance of a block that is constructed is constructed as its own request asks. -/
theorem buildParams_eq_ok {q : BlockRequest} {p : Params} (h : buildParams q = .ok p) :
    buildMulticycleDiv q.nrdivW (some .nonRestoring) = .ok (p.nrdivW, .nonRestoring) ∧
      buildMulticycleDiv q.rdivW (some .restoring) = .ok (p.rdivW, .restoring) ∧ buildLongDivider q.ldivW = .ok p.ldivW ∧
      buildPipelinedMul q.pmulW = .ok p.pmulW ∧ buildMulticycleMul q.mcmulW = .ok p.mcmulW ∧
      buildBinaryToBcd q.bcdW q.limit q.bcdImpl q.stageCount q.mode q.latency = .ok p.bcd ∧ q.magW = p.magW := by
  simp only [buildParams, bind_eq_ok_iff] at h
  obtain ⟨⟨nrdivW, i⟩, hnrdiv, ⟨rdivW, j⟩, hrdiv, ldivW, hldiv, pmulW, hpmul, mcmulW, hmcmul, bcd, hbcd, hp⟩ := h
  obtain ⟨-, -, ⟨⟩⟩ := (buildMulticycleDiv_eq_ok_iff _ _ _ _).mp hnrdiv
  obtain ⟨-, -, ⟨⟩⟩ := (buildMulticycleDiv_eq_ok_iff _ _ _ _).mp hrdiv
  cases hp
  exact ⟨hnrdiv, hrdiv, hldiv, hpmul, hmcmul, hbcd, rfl⟩

@[simp] theorem State.ofParams_params (p : Params) : (State.ofParams p).params = p := by
  obtain ⟨_, _, _, _, _, ⟨_, _, _, _, mode, _⟩, _⟩ := p
  cases mode <;> rfl

/-- A State that is constructed is the reset block of admitted parameters that every instance's request gives. -/
theorem State.construct_eq_ok {q : BlockRequest} {s : State} (h : State.construct q = .ok s) :
    ∃ p, buildParams q = .ok p ∧ blockFault p = none ∧ s = State.ofParams p := by
  unfold State.construct at h
  split at h
  next => cases h
  next p hparams =>
    unfold State.build at h
    split at h
    next => cases h
    next hfault =>
      cases h
      exact ⟨p, hparams, hfault, rfl⟩

/-- Settles O45: each builder's errors and results are those of its checks, and a block is built of its instances. -/
theorem constructionErrors : Obligations.ConstructionErrors := by
  refine ⟨?dividers, ?widths, ?converter, ?block⟩
  case dividers => exact fun W impl => ⟨buildMulticycleDiv_reportsBroken W impl, buildMulticycleDiv_eq_ok_iff W impl⟩
  case widths =>
    intro W b hb
    have hcheck : b W = checkWidth W := by
      simp only [List.mem_cons, List.not_mem_nil, or_false] at hb
      rcases hb with rfl | rfl | rfl <;> rfl
    rw [hcheck]
    exact ⟨checkWidth_reportsBroken W, checkWidth_eq_ok_iff W⟩
  case converter =>
    exact fun _ _ _ _ _ _ => ⟨reportsBroken_of (fun _ => bcdBroken_of_error) (fun _ => not_bcdBroken_of_ok),
      fun _ => converterAsRequested_of_ok⟩
  case block =>
    intro q s h
    obtain ⟨p, hparams, hfault, rfl⟩ := State.construct_eq_ok h
    obtain ⟨hnrdiv, hrdiv, hldiv, hpmul, hmcmul, hbcd, hmag⟩ := buildParams_eq_ok hparams
    have hconstructible : (State.ofParams p).Constructible := by
      rw [State.Constructible, State.fault, State.ofParams_params, hfault]
    refine ⟨hconstructible, ((buildMulticycleDiv_eq_ok_iff _ _ _ _).mp hnrdiv).1,
      ((buildMulticycleDiv_eq_ok_iff _ _ _ _).mp hrdiv).1, ((checkWidth_eq_ok_iff _ _).mp hldiv).1,
      ((checkWidth_eq_ok_iff _ _).mp hpmul).1, ((checkWidth_eq_ok_iff _ _).mp hmcmul).1, hmag,
      not_bcdBroken_of_ok hbcd, ?_⟩
    rw [State.ofParams_params]
    exact converterAsRequested_of_ok hbcd

end Sys2Proof.Machine

/-! PROOFS. When each component's input is open (41_multicycle_div.md R119, 42_long_divider.md R161, 43_pipelined_mul.md R190,
44_multicycle_mul.md R211, 45_bcd.md R245). -/

namespace Sys2Proof.Machine

/-- What holds of the default holds of the last stage exactly if it holds of stage `n-1`, or there is none. -/
theorem Stages.top_iff (s : Stages α n) (d : α) (P : α → Prop) (hd : P d) :
    P (s.top d) ↔ (∃ x ∈ s.items[n - 1]?, P x) ∨ s.items[n - 1]? = none := by
  rw [Stages.top_eq]
  cases s.items[n - 1]? <;> simp [hd]

/-- Readiness of a pipeline, by its last stage. -/
theorem Stages.pipeReady_top_iff (s : Stages α n) (d : α) (valid : α → Bool) (hd : valid d = false) (ready : Bool) :
    pipeReady (valid (s.top d)) ready = true ↔
      (∃ x ∈ s.items[n - 1]?, valid x = false) ∨ s.items[n - 1]? = none ∨ ready = true := by
  rw [pipeReady_iff, s.top_iff d (valid · = false) hd, or_assoc]

/-- The converter's readiness in a cycle is that of its registers in that cycle. -/
theorem Bcd.signals_inpReady_of_now {u : Bcd} {cycle : Nat} {r : BcdRegs u.W u.latency} (h : u.now cycle = r) :
    (u.signals cycle).inpReady = r.inpReady (u.line cycle).ready := h ▸ rfl

/-- Settles O33: the single-transaction components are ready when idle with their output free, the pipelines when their last
stage is free to move on. -/
theorem readinessRules : Obligations.ReadinessRules := by
  intro s
  refine ⟨MDivRegs.inpReady_iff _ _, MDivRegs.inpReady_iff _ _, LDivRegs.inpReady_iff _ _,
    Stages.pipeReady_top_iff _ _ MulStage.valid rfl _, MCMulRegs.inpReady_iff _ _, fun st h => ?pipelined, fun q h => ?sequential⟩
  case pipelined =>
    rw [Bcd.signals_inpReady_of_now h]
    exact st.pipeReady_top_iff _ BcdStage.valid rfl _
  case sequential =>
    rw [Bcd.signals_inpReady_of_now h, BcdRegs.inpReady, singleReady_iff, Bool.not_eq_true']

end Sys2Proof.Machine

/-! PROOFS. The edges of the long divider: its input transfer (42_long_divider.md R162) and its idle cycle. -/

namespace Sys2Proof.Machine

open Sys2Proof.Claims

/-! ### What the accepting edge prepares -/

theorem longDividend_eq (g : DivSign) (n : Word W) :
    longDividend g n = if g = .signed then n.signExtend (W + W) else n.setWidth (W + W) := by
  cases g <;> rfl

theorem longDivisor_eq (g : DivSign) (d : Word W) :
    longDivisor g d = if g = .signed then d.signExtend (W + 1) else d.setWidth (W + 1) := by
  cases g <;> rfl

/-- The remainder and the divisor are subtracted where the tag has no signs, the divisor is zero or the signs agree
(42_long_divider.md R170). -/
theorem sameSign_eq (g : DivSign) (n d : Word W) :
    sameSign g n d = decide (g = .unsigned ∨ d = 0#W ∨ n.msb = d.msb) := by
  cases g <;> simp [sameSign]

/-- The index register is wide enough for the weight after the first step. -/
theorem index_ofNat_toNat (hW : 2 ≤ W) : (BitVec.ofNat (clog2 W) (W - 2)).toNat = W - 2 := by
  have hfit := le_two_pow_clog2 W
  rw [BitVec.toNat_ofNat, Nat.mod_eq_of_lt (by omega)]

/-! ### The input transfer -/

/-- What the accepting edge writes, with a result that waited gone, is what R162 says. -/
theorem LDivRegs.accept_longAccepted (r : LDivRegs W) (g : DivSign) (n d : Word W) (hW : 2 ≤ W) :
    LongAccepted { r.accept g n d with outValid := false } g n d := by
  dsimp only [LongAccepted]
  rw [← longDividend_eq, ← longDivisor_eq, ← sameSign_eq]
  exact ⟨rfl, rfl, rfl, rfl, rfl, index_ofNat_toNat hW, rfl, rfl⟩

/-- The port of the long divider after its edge (40_handshake.md R100). -/
theorem LDiv.edge_portAfter (u : LDiv) (cycle : Nat) :
    PortAfter u.port (u.edge cycle).port cycle (u.now cycle).outValid (u.line cycle).ready (u.now cycle).outPayload :=
  ⟨rfl, Port.clocked_log_shown _ _ _ _ _ _⟩

/-- A long divider that is ready takes the operation it is offered; the result that leaves is the one of `u` itself. -/
theorem LDiv.edge_offer (u : LDiv) (cycle : Nat) (g : DivSign) (n d : Word u.W) (hW : 2 ≤ u.W)
    (hready : (u.signals cycle).inpReady = true) :
    ∃ r' p', (u.offer cycle (packDivIn g.bit n d)).edge cycle = ⟨u.W, r', p'⟩ ∧ LongAccepted r' g n d ∧
      PortAfter u.port p' cycle (u.now cycle).outValid (u.line cycle).ready (u.now cycle).outPayload := by
  refine ⟨_, _, rfl, ?written, LDiv.edge_portAfter (u.offer cycle (packDivIn g.bit n d)) cycle⟩
  have hedge := LDivRegs.edge_accept (u.now cycle)
    { u.line cycle with valid := true, payload := packDivIn g.bit n d } rfl hready
  rw [divSignField_packDivIn, DivSign.ofBit_bit, divLowField_packDivIn, divHighField_packDivIn] at hedge
  exact hedge ▸ LDivRegs.accept_longAccepted (u.now cycle) g n d hW

/-- An operation of the long divider is the clock edge with its payload offered, whatever its tag. -/
theorem exec_ldivOp (g : DivSign) (n d : Nat) (s : State) : exec (ldivOp g n d) s = clock (s.offerLdiv g n d) := by
  cases g <;> rfl

/-- Settles O10: the long divider is never refused an operation, so the block's edge is taken and the operation accepted; a
constructible block's width leaves room for the index. Idle, with no input transfer, only a result that leaves goes. -/
theorem longDividerAcceptingEdge : Obligations.LongDividerAcceptingEdge := by
  refine ⟨?accepts, ?idle⟩
  case accepts =>
    intro s g n d hfault hother hready
    obtain ⟨-, -, hW, -⟩ := widths_of_fault_none hfault
    have hrefusal : s.refusal = none := refusal_eq_none_of_noOtherRefused hother nofun nofun nofun
    have hedge : exec (ldivOp g n d) s = .next (s.offerLdiv g n d).edge :=
      (exec_ldivOp g n d s).trans (clock_eq_next hfault hrefusal)
    have hframe : OthersAdvance .ldiv s (s.offerLdiv g n d).edge :=
      ⟨rfl, fun _ => rfl, fun _ => rfl, (absurd rfl ·), fun _ => rfl, fun _ => rfl, fun _ => rfl, fun _ => rfl⟩
    exact ⟨_, hedge, hframe, s.ldiv.edge_offer s.cycle g _ _ hW hready⟩
  case idle =>
    intro s t hstep hidle hnone
    obtain ⟨-, -, hldiv, -⟩ := step_instances hstep
    exact ⟨_, _, hldiv, LDivRegs.edge_idle _ _ hidle hnone, s.ldiv.edge_portAfter s.cycle⟩

end Sys2Proof.Machine

/-! PROOFS. The busy edges of the long divider (42_long_divider.md R164), the multi-cycle multiplier (44_multicycle_mul.md
R215) and the sequential converter (45_bcd.md R242). -/

namespace Sys2Proof.Machine

open Sys2Proof.Claims

/-- How a busy edge of the long divider ends: the step of weight 1 presents, any other moves on to the weight below. -/
theorem LDivRegs.edge_busy_control (r : LDivRegs W) (l : Line (W + W + 1)) (hbusy : r.busy = true) :
    if r.i.toNat = 0 then (r.edge l).busy = false ∧ (r.edge l).outValid = true ∧ (r.edge l).i = r.i
    else (r.edge l).busy = true ∧ (r.edge l).i.toNat = r.i.toNat - 1 ∧ (r.edge l).outValid = (r.outValid && !l.ready) := by
  rw [r.edge_busy l hbusy]
  split
  next hlast => simp [hlast]
  next hmore =>
    have hindex : r.iterate.i.toNat = r.i.toNat - 1 := by
      rw [LDivRegs.iterate_i, if_neg hmore, index_pred_toNat r.i hmore]
    exact ⟨(if_neg hmore).trans hbusy, hindex, rfl⟩

/-- How a busy edge of the multi-cycle multiplier ends: the `W`-th step presents. -/
theorem MCMulRegs.edge_busy_control (r : MCMulRegs W) (l : Line (W + W + 2)) (hbusy : r.busy = true) :
    if r.cnt.toNat + 1 = W then (r.edge l).busy = false ∧ (r.edge l).outValid = true
    else (r.edge l).busy = true ∧ (r.edge l).outValid = (r.outValid && !l.ready) := by
  rw [r.edge_busy l hbusy]
  split
  next hlast => simp [hlast]
  next hmore => simp [hmore, hbusy]

/-- How a busy edge of the sequential converter ends: the one that completes `BCD_LATENCY` presents. -/
theorem BcdSeqRegs.edge_busy_control (r : BcdSeqRegs W L) (l : Line (W + 1)) (hbusy : r.busy = true) :
    if r.cnt.toNat + 1 = L then (r.edge l).busy = false ∧ (r.edge l).outValid = true
    else (r.edge l).busy = true ∧ (r.edge l).outValid = (r.outValid && !l.ready) := by
  rw [r.edge_busy l hbusy]
  split
  next hlast => simp [hlast]
  next hmore => simp [hmore, hbusy]

/-- The edge of a converter whose registers are the sequential ones. -/
theorem Bcd.edge_of_sequential {u : Bcd} {cycle : Nat} {r : BcdSeqRegs u.W u.latency} (h : u.now cycle = .sequential r) :
    u.edge cycle = { u with regs := .sequential (r.edge (u.line cycle)), port := (u.edge cycle).port } := by
  have hregs : (u.edge cycle).regs = .sequential (r.edge (u.line cycle)) := by
    rw [Bcd.edge_regs, h]
    rfl
  exact hregs ▸ rfl

/-- Settles O18: a step gives each unit its own edge; a busy unit's edge is its iteration, with the output transfer of the
edge beside it. -/
theorem busyEdges : Obligations.BusyEdges := by
  intro s t hstep
  obtain ⟨-, -, hldiv, -, hmcmul, hbcd, -⟩ := step_instances hstep
  refine ⟨fun hbusy => ?ldiv, fun hbusy => ?mcmul, fun r hnow hbusy => ?bcd⟩
  case ldiv =>
    have hcontrol := LDivRegs.edge_busy_control _ (s.ldiv.line s.cycle) hbusy
    have hedge := LDivRegs.edge_busy _ (s.ldiv.line s.cycle) hbusy
    refine ⟨_, _, hldiv, ?_, ?_, ?_, ?_, ?_, hcontrol⟩ <;> rw [hedge] <;> rfl
  case mcmul =>
    have hcontrol := MCMulRegs.edge_busy_control _ (s.mcmul.line s.cycle) hbusy
    have hedge := MCMulRegs.edge_busy _ (s.mcmul.line s.cycle) hbusy
    refine ⟨_, _, hmcmul, ?_, ?_, ?_, ?_, hcontrol⟩ <;> rw [hedge] <;> rfl
  case bcd =>
    have hcontrol := r.edge_busy_control (s.bcd.line s.cycle) hbusy
    have hedge := r.edge_busy (s.bcd.line s.cycle) hbusy
    refine ⟨_, _, hbcd.trans (Bcd.edge_of_sequential hnow), ?_, ?_, ?_, hcontrol⟩ <;> rw [hedge] <;> rfl

end Sys2Proof.Machine

/-! PROOFS. The comparator compares exact magnitudes (42_long_divider.md R168). -/

namespace Sys2Proof.Machine

theorem magCompare_lt_iff (a b : Word w) : (magCompare a b).lt = true ↔ |a.toInt| < |b.toInt| := by
  rw [magCompare, decide_eq_true_iff, Int.abs_eq_natAbs, Int.abs_eq_natAbs, Nat.cast_lt]

theorem magCompare_eq_iff (a b : Word w) : (magCompare a b).eq = true ↔ |a.toInt| = |b.toInt| := by
  rw [magCompare, decide_eq_true_iff, Int.abs_eq_natAbs, Int.abs_eq_natAbs, Nat.cast_inj]

theorem magCompare_gt_iff (a b : Word w) : (magCompare a b).gt = true ↔ |a.toInt| > |b.toInt| := by
  rw [magCompare, decide_eq_true_iff, Int.abs_eq_natAbs, Int.abs_eq_natAbs, gt_iff_lt, Nat.cast_lt]

/-- Exactly one output is 1: the magnitudes are linearly ordered. -/
theorem magCompare_exactly_one (a b : Word w) :
    (magCompare a b).lt.toNat + (magCompare a b).eq.toNat + (magCompare a b).gt.toNat = 1 := by
  unfold magCompare
  rcases lt_trichotomy a.toInt.natAbs b.toInt.natAbs with h | h | h
  · simp [h, h.ne, h.not_gt]
  · simp [h]
  · simp [h, h.ne', h.not_gt]

/-- `MIN_w` has the magnitude `2^(w-1)`, one more than the largest signed word of width `w`. -/
theorem abs_toInt_minWord (hw : 1 ≤ w) : |(minWord w).toInt| = 2 ^ (w - 1) := by
  rw [minWord, BitVec.toInt_intMin_of_pos hw, abs_neg, abs_of_pos (by positivity)]

/-- Settles O56: each output decides its comparison of natural magnitudes, in which `MIN_w` does not wrap. -/
theorem comparatorOutputs : Obligations.ComparatorOutputs := fun _ a b hw =>
  ⟨magCompare_lt_iff a b, magCompare_eq_iff a b, magCompare_gt_iff a b, magCompare_exactly_one a b, abs_toInt_minWord hw⟩

end Sys2Proof.Machine

/-! PROOFS. The edges of the pipelined multiplier: the advancing one, with its refusal (43_pipelined_mul.md R191), and the
frozen one (R192). -/

namespace Sys2Proof.Machine

open Sys2Proof.Claims

/-! ### What the advancing edge makes of the stages -/

/-- The partial product of bit 0 is the widened multiplicand itself: nothing is shifted. -/
theorem partialProduct_zero (a : BitVec (W + 1)) (b : Word W) :
    partialProduct 0 a b = if b.getLsbD 0 = true then a.signExtend (W + W) else 0#(W + W) := by
  rw [partialProduct, BitVec.shiftLeft_zero]

/-- The shift of a partial product, read as a product. -/
theorem partialProduct_eq_mul_twoPow (i : Nat) (a : BitVec (W + 1)) (b : Word W) :
    partialProduct i a b =
      if b.getLsbD i = true then a.signExtend (W + W) * BitVec.twoPow (W + W) i else 0#(W + W) := by
  rw [partialProduct, BitVec.shiftLeft_eq_mul_twoPow]

/-- The stages after an advancing edge are those of R191. -/
theorem mulEdge_pipelineAdvanced (st : Stages (MulStage W) W) (l : Line (W + W + 2)) (hW : 2 ≤ W)
    (hready : mulReady st l.ready = true) :
    PipelineAdvanced st (mulEdge st l) l.valid (mulSignField l.payload) (mulAField l.payload) (mulBField l.payload) := by
  refine ⟨?first, fun i hpos hlt => ?later⟩
  case first =>
    rw [mulEdge_getElem? st l hready, if_pos (by omega), if_pos rfl, MulStage.capture, partialProduct_zero]
  case later =>
    rw [mulEdge_getElem? st l hready, if_pos hlt, if_neg (by omega)]
    simp only [← partialProduct_eq_mul_twoPow]
    rfl

/-! ### The instance at an edge -/

/-- The port of the pipelined multiplier after its edge (40_handshake.md R100). -/
theorem PMul.edge_portAfter (u : PMul) (cycle : Nat) :
    PortAfter u.port (u.edge cycle).port cycle (mulTop (u.now cycle)).valid (u.line cycle).ready
      (packMulOut (mulTop (u.now cycle)).sign (mulTop (u.now cycle)).acc) :=
  ⟨rfl, Port.clocked_log_shown _ _ _ _ _ _⟩

/-- A pipeline that is ready advances, taking whatever its line drives. -/
theorem PMul.edge_advances (u : PMul) (cycle : Nat) (hW : 2 ≤ u.W) (hready : (u.signals cycle).inpReady = true) :
    ∃ st' p', u.edge cycle = ⟨u.W, st', p'⟩ ∧
      PortAfter u.port p' cycle (mulTop (u.now cycle)).valid (u.line cycle).ready
        (packMulOut (mulTop (u.now cycle)).sign (mulTop (u.now cycle)).acc) ∧
      PipelineAdvanced (u.now cycle) st' (u.line cycle).valid (mulSignField (u.line cycle).payload)
        (mulAField (u.line cycle).payload) (mulBField (u.line cycle).payload) :=
  ⟨_, _, rfl, u.edge_portAfter cycle, mulEdge_pipelineAdvanced (u.now cycle) (u.line cycle) hW hready⟩

/-- A pipeline that is ready takes the operation it is offered. An offer leaves `reset` and `outp.ready` of the line, so the
stages of the cycle and the result that leaves are those of `u` itself. -/
theorem PMul.edge_offer (u : PMul) (cycle : Nat) (g : MulSign) (a b : Word u.W) (hW : 2 ≤ u.W)
    (hready : (u.signals cycle).inpReady = true) :
    ∃ st' p', (u.offer cycle (packMulIn g.code a b)).edge cycle = ⟨u.W, st', p'⟩ ∧
      PortAfter u.port p' cycle (mulTop (u.now cycle)).valid (u.line cycle).ready
        (packMulOut (mulTop (u.now cycle)).sign (mulTop (u.now cycle)).acc) ∧
      PipelineAdvanced (u.now cycle) st' true g.code a b := by
  refine ⟨_, _, rfl, PMul.edge_portAfter (u.offer cycle (packMulIn g.code a b)) cycle, ?advanced⟩
  have hadvanced := mulEdge_pipelineAdvanced (u.now cycle)
    { u.line cycle with valid := true, payload := packMulIn g.code a b } hW hready
  rw [mulSignField_packMulIn, mulAField_packMulIn, mulBField_packMulIn] at hadvanced
  exact hadvanced

/-- A pipeline whose result waits for a consumer that is not ready is closed. -/
theorem PMul.inpReady_of_waiting {u : PMul} {cycle : Nat} (hvalid : (mulTop (u.now cycle)).valid = true)
    (hwait : (u.line cycle).ready = false) : (u.signals cycle).inpReady = false := by
  rw [Bool.eq_false_iff]
  intro hready
  simpa [hvalid, hwait] using (mulReady_iff (u.now cycle) (u.line cycle).ready).mp hready

/-! ### Offers and refusals -/

/-- An operation of the pipelined multiplier is the clock edge with its payload offered, whatever its tag. -/
theorem exec_pmulOp (g : MulSign) (a b : Nat) (s : State) : exec (pmulOp g a b) s = clock (s.offerPmul g a b) := by
  cases g <;> rfl

/-- An operation of the table is no reserved offer, and at the other ports it changes nothing. -/
theorem refusal_offerPmul_eq_none {s : State} (h : NoOtherRefused .pmul s) (g : MulSign) (a b : Nat) :
    (s.offerPmul g a b).refusal = none := by
  obtain ⟨-, hmcmul, hbcd⟩ := h
  exact (refusal_eq_none_iff _).mpr ⟨s.pmul.refusal_offer s.cycle g _ _,
    (MCMul.refusal_eq_none_iff s.mcmul s.cycle).mpr (hmcmul nofun), (Bcd.refusal_eq_none_iff s.bcd s.cycle).mpr (hbcd nofun)⟩

/-- A transfer with tag 3 is refused by the pipelined multiplier (60_exceptions.md R262). -/
theorem PMul.refusal_of_reservedPmul {s : State} (h : ReservedPmul s) : s.pmul.refusal s.cycle = some .reservedMulSign := by
  obtain ⟨hvalid, hready, htag⟩ := h
  exact (refusesWhen_eq_some _ _ _ _ _).mpr
    ⟨⟨hvalid, hready, Option.isNone_iff_eq_none.mpr (MulSign.ofCode_eq_none.mpr htag)⟩, rfl⟩

/-- A cycle with such a transfer is refused for the reason of this port, which is named before those of the others
(60_exceptions.md R261; log 14). -/
theorem step_of_reservedPmul {s : State} (hfault : s.Constructible) (h : ReservedPmul s) :
    step s = .refused .reservedMulSign := by
  have hrefusal : s.refusal = some .reservedMulSign := by
    rw [State.refusal, PMul.refusal_of_reservedPmul h, Option.some_or, Option.some_or]
  exact (step_eq_clock s).trans ((clock_refused_iff s _).mpr ⟨hfault, hrefusal⟩)

/-! ### The obligations -/

/-- Settles O11: an operation of the table is not refused, so the block's edge is taken, and at it the ready pipeline shifts
its stages and takes the payload in; the offer leaves every other instance as it was. A transfer with tag 3
is refused whatever the other ports do. -/
theorem pipelineAdvancingEdge : Obligations.PipelineAdvancingEdge := by
  refine ⟨?accepts, ?advances, ?refuses⟩
  case accepts =>
    intro s g a b hfault hother hready
    obtain ⟨-, -, -, hW, -⟩ := widths_of_fault_none hfault
    have hedge : exec (pmulOp g a b) s = .next (s.offerPmul g a b).edge :=
      (exec_pmulOp g a b s).trans (clock_eq_next hfault (refusal_offerPmul_eq_none hother g a b))
    have hframe : OthersAdvance .pmul s (s.offerPmul g a b).edge :=
      ⟨rfl, fun _ => rfl, fun _ => rfl, fun _ => rfl, (absurd rfl ·), fun _ => rfl, fun _ => rfl, fun _ => rfl⟩
    exact ⟨_, hedge, hframe, s.pmul.edge_offer s.cycle g _ _ hW hready⟩
  case advances =>
    intro s t hstep hready
    obtain ⟨hfault, -, rfl⟩ := step_next_elim hstep
    obtain ⟨-, -, -, hW, -⟩ := widths_of_fault_none hfault
    exact s.pmul.edge_advances s.cycle hW hready
  case refuses =>
    intro s hfault hreserved
    have hrefused := step_of_reservedPmul hfault hreserved
    exact ⟨⟨_, hrefused⟩, fun _ => hrefused⟩

/-- Settles O12: the pipeline is closed, so its edge is the frozen one; the result that waits is not taken, so none is
observed. -/
theorem pipelineFrozenEdge : Obligations.PipelineFrozenEdge := by
  intro s t hstep hvalid hwait
  obtain ⟨-, -, -, hpmul, -⟩ := step_instances hstep
  have hclosed := PMul.inpReady_of_waiting hvalid hwait
  have hstages : (s.pmul.edge s.cycle).stages = s.pmul.now s.cycle := mulEdge_frozen _ _ hclosed
  obtain ⟨-, hlog⟩ := s.pmul.edge_portAfter s.cycle
  rw [hwait, Bool.and_false, if_neg Bool.false_ne_true, List.append_nil] at hlog
  rw [hpmul]
  exact ⟨hclosed, congrArg List.length hlog, (s.pmul.edge s.cycle).port, hstages ▸ rfl⟩

end Sys2Proof.Machine

/-! PROOFS. The accepting and the idle edge of the multi-cycle multiplier (44_multicycle_mul.md R212), and its refusal. -/

namespace Sys2Proof.Machine

open Sys2Proof.Claims

/-! ### The input transfer -/

/-- `MulticycleMul` after an accepting edge (44_multicycle_mul.md R212): the normalised multiplicand and the first step are
in the registers, and no result waits. -/
abbrev ShiftAddAccepted (r' : MCMulRegs W) (g : MulSign) (a b : Word W) : Prop :=
  r'.a1 = normA g.code a b ∧ r'.signL = g.code ∧
    r'.X = mstep ((normB g.code b).setWidth (W + 1 + W)) r'.a1 g.code ∧
    r'.cnt.toNat = 1 ∧ r'.busy = true ∧ r'.outValid = false

/-- What the accepting edge writes, with a result that waited gone, is what R212 says; the counter has room for its 1. -/
theorem MCMulRegs.accept_shiftAddAccepted (r : MCMulRegs W) (g : MulSign) (a b : Word W) (hW : 1 ≤ W) :
    ShiftAddAccepted { r.accept g.code a b with outValid := false } g a b :=
  ⟨rfl, rfl, rfl, counter_ofNat_toNat hW, rfl, rfl⟩

/-- The port of the multi-cycle multiplier after its edge (40_handshake.md R100). -/
theorem MCMul.edge_portAfter (u : MCMul) (cycle : Nat) :
    PortAfter u.port (u.edge cycle).port cycle (u.now cycle).outValid (u.line cycle).ready (u.now cycle).outPayload :=
  ⟨rfl, Port.clocked_log_shown _ _ _ _ _ _⟩

/-- A multiplier that is ready takes the operation it is offered. An offer leaves `reset` and `outp.ready` of the line, so the
result that leaves is the one of `u` itself. -/
theorem MCMul.edge_offer (u : MCMul) (cycle : Nat) (g : MulSign) (a b : Word u.W) (hW : 1 ≤ u.W)
    (hready : (u.signals cycle).inpReady = true) :
    ∃ r' p', (u.offer cycle (packMulIn g.code a b)).edge cycle = ⟨u.W, r', p'⟩ ∧ ShiftAddAccepted r' g a b ∧
      PortAfter u.port p' cycle (u.now cycle).outValid (u.line cycle).ready (u.now cycle).outPayload := by
  refine ⟨_, _, rfl, ?written, MCMul.edge_portAfter (u.offer cycle (packMulIn g.code a b)) cycle⟩
  have hedge := MCMulRegs.edge_accept (u.now cycle)
    { u.line cycle with valid := true, payload := packMulIn g.code a b } rfl hready
  rw [mulSignField_packMulIn, mulAField_packMulIn, mulBField_packMulIn] at hedge
  exact hedge ▸ MCMulRegs.accept_shiftAddAccepted (u.now cycle) g a b hW

/-! ### Offers and refusals -/

/-- An operation of the multi-cycle multiplier is the clock edge with its payload offered, whatever its tag. -/
theorem exec_mcmulOp (g : MulSign) (a b : Nat) (s : State) : exec (mcmulOp g a b) s = clock (s.offerMcmul g a b) := by
  cases g <;> rfl

/-- An operation of the table is no reserved offer, and at the other ports it changes nothing. -/
theorem refusal_offerMcmul_eq_none {s : State} (h : NoOtherRefused .mcmul s) (g : MulSign) (a b : Nat) :
    (s.offerMcmul g a b).refusal = none := by
  obtain ⟨hpmul, -, hbcd⟩ := h
  exact (refusal_eq_none_iff _).mpr ⟨(PMul.refusal_eq_none_iff s.pmul s.cycle).mpr (hpmul nofun),
    s.mcmul.refusal_offer s.cycle g _ _, (Bcd.refusal_eq_none_iff s.bcd s.cycle).mpr (hbcd nofun)⟩

/-- A transfer with tag 3 is refused by the multi-cycle multiplier (60_exceptions.md R262). -/
theorem MCMul.refusal_of_reservedMcmul {s : State} (h : ReservedMcmul s) :
    s.mcmul.refusal s.cycle = some .reservedMulSign := by
  obtain ⟨hvalid, hready, htag⟩ := h
  exact (refusesWhen_eq_some _ _ _ _ _).mpr
    ⟨⟨hvalid, hready, Option.isNone_iff_eq_none.mpr (MulSign.ofCode_eq_none.mpr htag)⟩, rfl⟩

/-- A cycle with such a transfer is refused for a reserved tag of a multiplier: the converter's reason is named after this
port's, and where the pipelined multiplier refuses at the same edge, its reason is the same one (60_exceptions.md R261;
log 14). -/
theorem step_of_reservedMcmul {s : State} (hfault : s.Constructible) (h : ReservedMcmul s) :
    step s = .refused .reservedMulSign := by
  by_cases hpmul : ReservedPmul s
  case pos => exact step_of_reservedPmul hfault hpmul
  case neg =>
    have hrefusal : s.refusal = some .reservedMulSign := by
      rw [State.refusal, (PMul.refusal_eq_none_iff _ _).mpr hpmul, MCMul.refusal_of_reservedMcmul h, Option.none_or,
        Option.some_or]
    exact (step_eq_clock s).trans ((clock_refused_iff s _).mpr ⟨hfault, hrefusal⟩)

/-! ### The obligation -/

/-- Settles O13: an operation of the table is not refused, so the block's edge is taken and the operation accepted; the offer
leaves every other instance as it was. Idle, with no input transfer, only a result that leaves goes. A transfer with tag 3 is
refused whatever the other ports do. -/
theorem shiftAddAcceptingEdge : Obligations.ShiftAddAcceptingEdge := by
  refine ⟨?accepts, ?idle, ?refuses⟩
  case accepts =>
    intro s g a b hfault hother hready
    obtain ⟨-, -, -, -, hW, -⟩ := widths_of_fault_none hfault
    have hedge : exec (mcmulOp g a b) s = .next (s.offerMcmul g a b).edge :=
      (exec_mcmulOp g a b s).trans (clock_eq_next hfault (refusal_offerMcmul_eq_none hother g a b))
    have hframe : OthersAdvance .mcmul s (s.offerMcmul g a b).edge :=
      ⟨rfl, fun _ => rfl, fun _ => rfl, fun _ => rfl, fun _ => rfl, (absurd rfl ·), fun _ => rfl, fun _ => rfl⟩
    exact ⟨_, hedge, hframe, s.mcmul.edge_offer s.cycle g _ _ (Nat.one_le_of_lt hW) hready⟩
  case idle =>
    intro s t hstep hidle hnone
    obtain ⟨-, -, -, -, hmcmul, -⟩ := step_instances hstep
    exact ⟨_, _, hmcmul, MCMulRegs.edge_idle _ _ hidle hnone⟩
  case refuses =>
    intro s hfault hreserved
    have hrefused := step_of_reservedMcmul hfault hreserved
    exact ⟨⟨_, hrefused⟩, fun _ => hrefused⟩

end Sys2Proof.Machine

/-! PROOFS. The converter's digits: how many each limit gives (45_bcd.md R235), and where each stands in the result (R236,
R238). -/

namespace Sys2Proof.Machine

/-! ### The digit count -/

/-- The upward search finds the logarithm when it starts at or below it and has the fuel to reach it. -/
theorem largestPow10From_eq_log : ∀ {fuel k m : Nat}, 10 ^ k ≤ m → m < 10 ^ (k + fuel + 1) →
    largestPow10From fuel k m = Nat.log 10 m
  | 0, _, _, hle, hlt => (Nat.log_eq_of_pow_le_of_lt_pow hle hlt).symm
  | fuel + 1, k, m, hle, hlt => by
    rw [largestPow10From]
    split
    case isTrue hnext => exact largestPow10From_eq_log hnext (by rwa [Nat.add_right_comm k 1])
    case isFalse hstop => exact (Nat.log_eq_of_pow_le_of_lt_pow hle (Nat.not_le.mp hstop)).symm

/-- A number has one decimal digit more than its logarithm, if the fuel reaches its last digit. -/
theorem decimalDigits_eq_log_succ : ∀ {fuel m : Nat}, m < 10 ^ (fuel + 1) → decimalDigits fuel m = Nat.log 10 m + 1
  | 0, m, h => by rw [decimalDigits, Nat.log_of_lt (by rwa [Nat.pow_one] at h)]
  | fuel + 1, m, h => by
    rw [decimalDigits]
    split
    case isTrue hone => rw [Nat.log_of_lt hone]
    case isFalse hmore =>
      have hpos : 0 < Nat.log 10 m := Nat.log_pos (by decide) (Nat.not_lt.mp hmore)
      rw [decimalDigits_eq_log_succ (Nat.div_lt_of_lt_mul (by rwa [← Nat.pow_succ'])), Nat.log_div_base,
        Nat.sub_add_cancel hpos]

/-- The width is fuel enough for both counts: `2^W - 1` has no more decimal than binary digits. -/
theorem twoPow_sub_one_lt_tenPow (W : Nat) : 2 ^ W - 1 < 10 ^ (W + 1) :=
  calc 2 ^ W - 1 ≤ 2 ^ W := Nat.sub_le _ _
    _ ≤ 10 ^ W := Nat.pow_le_pow_left (by decide) W
    _ < 10 ^ (W + 1) := Nat.pow_lt_pow_succ (by decide)

/-- LARGEST_POWER_10 counts the digits below the largest power of ten in the range (45_bcd.md R235). -/
theorem bcdDigits_largestPower10 {W : Nat} (hW : 1 ≤ W) : bcdDigits W .largestPower10 = Nat.log 10 (2 ^ W - 1) :=
  largestPow10From_eq_log (Nat.le_sub_one_of_lt (Nat.one_lt_two_pow (Nat.ne_of_gt hW)))
    (by rw [Nat.zero_add]; exact twoPow_sub_one_lt_tenPow W)

/-- ENTIRE_RANGE counts the digits of the largest word (45_bcd.md R235). -/
theorem bcdDigits_entireRange (W : Nat) : bcdDigits W .entireRange = Nat.log 10 (2 ^ W - 1) + 1 :=
  decimalDigits_eq_log_succ (twoPow_sub_one_lt_tenPow W)

/-- ENTIRE_RANGE covers the largest word, hence every word (45_bcd.md R232). -/
theorem twoPow_sub_one_lt_entireRange (W : Nat) : 2 ^ W - 1 < 10 ^ bcdDigits W .entireRange := by
  rw [bcdDigits_entireRange]
  exact Nat.lt_pow_succ_log_self (by decide) _

/-- Both counts stay the same over a range of widths whose largest words lie between the same powers of ten. -/
theorem bcdDigits_of_width_range {lo hi D W : Nat} (hlo : 10 ^ D < 2 ^ lo) (hhi : 2 ^ hi ≤ 10 ^ (D + 1))
    (hW : lo ≤ W ∧ W ≤ hi) : bcdDigits W .largestPower10 = D ∧ bcdDigits W .entireRange = D + 1 := by
  have hbelow : 10 ^ D < 2 ^ W := hlo.trans_le (Nat.pow_le_pow_right (by decide) hW.1)
  have habove : 2 ^ W ≤ 10 ^ (D + 1) := (Nat.pow_le_pow_right (by decide) hW.2).trans hhi
  have hpos : W ≠ 0 := Nat.one_lt_two_pow_iff.mp ((Nat.one_le_pow D 10 (by decide)).trans_lt hbelow)
  have hlog : Nat.log 10 (2 ^ W - 1) = D :=
    Nat.log_eq_of_pow_le_of_lt_pow (Nat.le_sub_one_of_lt hbelow)
      ((Nat.sub_one_lt (Nat.two_pow_pos W).ne').trans_le habove)
  exact ⟨(bcdDigits_largestPower10 (Nat.pos_of_ne_zero hpos)).trans hlog, (bcdDigits_entireRange W).trans (congrArg (· + 1) hlog)⟩

/-- Settles O53: both counts are the decimal logarithm of the largest word, plus one for ENTIRE_RANGE; each line of R235's
table lies between two powers of ten. -/
theorem digitCounts : Obligations.DigitCounts := by
  refine ⟨fun W hW => ?rule, fun W => ?table, ?width32⟩
  case rule =>
    have hone : 1 ≤ W := Nat.one_le_of_lt hW
    have hword : 2 ^ W - 1 ≠ 0 := Nat.sub_ne_zero_of_lt (Nat.one_lt_two_pow (Nat.ne_of_gt hone))
    refine ⟨?largest, ⟨?atLeast, twoPow_sub_one_lt_entireRange W⟩, ?oneMore⟩
    case largest =>
      rw [bcdDigits_largestPower10 hone]
      exact ⟨Nat.pow_log_le_self 10 hword, fun k hk => Nat.le_log_of_pow_le (by decide) hk⟩
    case atLeast =>
      rw [bcdDigits_entireRange, Nat.add_sub_cancel]
      exact Nat.pow_log_le_self 10 hword
    case oneMore => rw [bcdDigits_entireRange, bcdDigits_largestPower10 hone]
  case table =>
    refine ⟨?_, ?_, ?_, ?_, ?_, ?_⟩ <;> exact bcdDigits_of_width_range (by decide) (by decide)
  case width32 => exact bcdDigits_of_width_range (lo := 32) (hi := 32) (by decide) (by decide) ⟨le_rfl, le_rfl⟩

/-! ### The digits of a result -/

/-- `D` packed digits fill `4D` bits and no more. -/
theorem packDigits_lt (D n : Nat) : packDigits D n < 16 ^ D := by
  induction D generalizing n with
  | zero => exact Nat.one_pos
  | succ D ih =>
    have hrest := ih (n / 10)
    rw [packDigits, Nat.pow_succ']
    omega

/-- Packing the digits in `4D` bits loses none of them. -/
theorem bcdResult_toNat (D n : Nat) : (bcdResult D n).toNat = packDigits D n := by
  rw [bcdResult, BitVec.toNat_ofNat, Nat.pow_mul]
  exact Nat.mod_eq_of_lt (packDigits_lt D n)

/-- Hexadecimal digit `j` of the packed number is decimal digit `j` of the number packed (45_bcd.md R238). -/
theorem packDigits_digit {D j : Nat} (hj : j < D) (n : Nat) : packDigits D n / 16 ^ j % 16 = n / 10 ^ j % 10 := by
  induction D generalizing j n with
  | zero => exact absurd hj (Nat.not_lt_zero j)
  | succ D ih =>
    rw [packDigits]
    cases j with
    | zero => simp only [Nat.pow_zero, Nat.div_one]; omega
    | succ j =>
      have hrest : (n % 10 + 16 * packDigits D (n / 10)) / 16 = packDigits D (n / 10) := by omega
      rw [Nat.pow_succ', Nat.pow_succ', ← Nat.div_div_eq_div_mul, ← Nat.div_div_eq_div_mul, hrest,
        ih (Nat.lt_of_succ_lt_succ hj)]

/-- Settles O54: four bits of the result are a hexadecimal digit of the packed number; a word is at most the largest one,
which ENTIRE_RANGE covers. -/
theorem digitsOfBcdresult : Obligations.DigitsOfBcdresult := by
  refine ⟨fun D n j hj => ?digit, fun W n _ => ?inRange⟩
  case digit =>
    rw [BitVec.extractLsb'_toNat, bcdResult_toNat, Nat.shiftRight_eq_div_pow, Nat.pow_mul]
    exact packDigits_digit hj n
  case inRange => exact (Nat.le_sub_one_of_lt n.isLt).trans_lt (twoPow_sub_one_lt_entireRange W)

end Sys2Proof.Machine

/-! PROOFS. Which cycles are refused, and for what reason (60_exceptions.md R259, R262). -/

namespace Sys2Proof.Machine

open Sys2Proof.Claims

/-- A transfer with tag `SIGNED` is refused by the converter (60_exceptions.md R262). -/
theorem Bcd.refusal_of_signedBcd {s : State} (h : SignedBcd s) : s.bcd.refusal s.cycle = some .bcdSignedUnspecified := by
  obtain ⟨hvalid, hready, htag⟩ := h
  exact (refusesWhen_eq_some _ _ _ _ _).mpr
    ⟨⟨hvalid, hready, decide_eq_true_iff.mpr ((DivSign.ofBit_eq_signed _).mpr htag)⟩, rfl⟩

/-- The converter's reason is the one named where no multiplier refuses at the same edge (60_exceptions.md R261; log 14). -/
theorem step_of_signedBcd {s : State} (hfault : s.Constructible) (h : SignedBcd s) (hpmul : ¬ReservedPmul s)
    (hmcmul : ¬ReservedMcmul s) : step s = .refused .bcdSignedUnspecified := by
  have hrefusal : s.refusal = some .bcdSignedUnspecified := by
    rw [State.refusal, (PMul.refusal_eq_none_iff _ _).mpr hpmul, (MCMul.refusal_eq_none_iff _ _).mpr hmcmul,
      Bcd.refusal_of_signedBcd h, Option.none_or, Option.none_or]
  exact (step_eq_clock s).trans ((clock_refused_iff s _).mpr ⟨hfault, hrefusal⟩)

/-- A cycle without a transfer of a reserved tag is the clock edge, whatever payloads are presented (60_exceptions.md R259,
R262). -/
theorem step_of_noReserved {s : State} (hfault : s.Constructible) (hpmul : ¬ReservedPmul s) (hmcmul : ¬ReservedMcmul s)
    (hbcd : ¬SignedBcd s) : step s = .next s.edge := by
  have hrefusal : s.refusal = none :=
    (refusal_eq_none_iff s).mpr ⟨(PMul.refusal_eq_none_iff _ _).mpr hpmul, (MCMul.refusal_eq_none_iff _ _).mpr hmcmul,
      (Bcd.refusal_eq_none_iff _ _).mpr hbcd⟩
  exact (step_eq_clock s).trans (clock_eq_next hfault hrefusal)

/-- All that a cycle of a constructible block can be: refused for a tag that is there, or the clock edge. -/
theorem step_cases_of_constructible {s : State} (hfault : s.Constructible) :
    (ReservedPmul s ∨ ReservedMcmul s) ∧ step s = .refused .reservedMulSign ∨
      SignedBcd s ∧ step s = .refused .bcdSignedUnspecified ∨
      ¬(ReservedPmul s ∨ ReservedMcmul s ∨ SignedBcd s) ∧ step s = .next s.edge := by
  by_cases hpmul : ReservedPmul s
  · exact .inl ⟨.inl hpmul, step_of_reservedPmul hfault hpmul⟩
  by_cases hmcmul : ReservedMcmul s
  · exact .inl ⟨.inr hmcmul, step_of_reservedMcmul hfault hmcmul⟩
  by_cases hbcd : SignedBcd s
  · exact .inr (.inl ⟨hbcd, step_of_signedBcd hfault hbcd hpmul hmcmul⟩)
  · exact .inr (.inr ⟨not_or.mpr ⟨hpmul, not_or.mpr ⟨hmcmul, hbcd⟩⟩, step_of_noReserved hfault hpmul hmcmul hbcd⟩)

/-- Settles O43: in each of the three things a cycle can be, the outcome and the tags that are there are both known, and every
clause is read off them. -/
theorem refusalsAreExactlyReservedTags : Obligations.RefusalsAreExactlyReservedTags := by
  intro s hfault
  rcases step_cases_of_constructible hfault with ⟨hmul, hstep⟩ | ⟨hbcd, hstep⟩ | ⟨hnone, hstep⟩ <;> rw [hstep]
  case inl =>
    have hreserved : ReservedPmul s ∨ ReservedMcmul s ∨ SignedBcd s := or_assoc.mp (.inl hmul)
    exact ⟨iff_of_true ⟨_, rfl⟩ hreserved, fun _ => hmul, nofun, fun _ h => .inl (Host.Outcome.refused.inj h).symm,
      absurd hreserved⟩
  case inr.inl =>
    have hreserved : ReservedPmul s ∨ ReservedMcmul s ∨ SignedBcd s := .inr (.inr hbcd)
    exact ⟨iff_of_true ⟨_, rfl⟩ hreserved, nofun, fun _ => hbcd, fun _ h => .inr (Host.Outcome.refused.inj h).symm,
      absurd hreserved⟩
  case inr.inr => exact ⟨iff_of_false nofun hnone, nofun, nofun, nofun, fun _ => ⟨_, rfl⟩⟩

end Sys2Proof.Machine

/-! PROOFS. Decoding and encoding payloads (30_encoding.md R75 to R90), and that a step runs the operation offered. -/

namespace Sys2Proof

/-! ### What each component decodes a payload of its own width to -/

theorem payload_fits {c : Component} (v : BitVec (payloadBits c W)) : ¬2 ^ payloadBits c W ≤ v.toNat :=
  Nat.not_le.mpr v.isLt

theorem decode_nrdiv (v : BitVec (W + W + 1)) : decode .nrdiv W v.toNat = .ok (decodeDiv .nrdivU .nrdivS v) :=
  (if_neg (payload_fits (c := .nrdiv) v)).trans (by rw [Machine.ofNat_payload])

theorem decode_rdiv (v : BitVec (W + W + 1)) : decode .rdiv W v.toNat = .ok (decodeDiv .rdivU .rdivS v) :=
  (if_neg (payload_fits (c := .rdiv) v)).trans (by rw [Machine.ofNat_payload])

theorem decode_ldiv (v : BitVec (W + W + 1)) : decode .ldiv W v.toNat = .ok (decodeDiv .ldivU .ldivS v) :=
  (if_neg (payload_fits (c := .ldiv) v)).trans (by rw [Machine.ofNat_payload])

theorem decode_pmul (v : BitVec (W + W + 2)) : decode .pmul W v.toNat = decodeMul .pmulU .pmulS .pmulSU v :=
  (if_neg (payload_fits (c := .pmul) v)).trans (by rw [Machine.ofNat_payload])

theorem decode_mcmul (v : BitVec (W + W + 2)) : decode .mcmul W v.toNat = decodeMul .mcmulU .mcmulS .mcmulSU v :=
  (if_neg (payload_fits (c := .mcmul) v)).trans (by rw [Machine.ofNat_payload])

theorem decode_bcd (v : BitVec (W + 1)) : decode .bcd W v.toNat = decodeBcd v :=
  (if_neg (payload_fits (c := .bcd) v)).trans (by rw [Machine.ofNat_payload])

theorem decode_mag (v : BitVec (W + W)) :
    decode .mag W v.toNat = .ok (.magcmp (magAField v).toNat (magBField v).toNat) :=
  (if_neg (payload_fits (c := .mag) v)).trans (by rw [Machine.ofNat_payload])

/-- A number below `2^bits` is a payload of `bits` bits. -/
theorem exists_payload_of_lt {bits p : Nat} (h : p < 2 ^ bits) : ∃ v : BitVec bits, v.toNat = p :=
  ⟨BitVec.ofNat bits p, by rw [BitVec.toNat_ofNat, Nat.mod_eq_of_lt h]⟩

/-- Only payloads of the format's width decode (30_encoding.md R88). -/
theorem exists_payload_of_decode {c : Component} {W p : Nat} {i : Instr} (h : decode c W p = .ok i) :
    ∃ v : BitVec (payloadBits c W), v.toNat = p := by
  unfold decode at h
  split at h
  next => cases h
  next hfits => exact exists_payload_of_lt (Nat.not_le.mp hfits)

/-! ### Packed fields decode to their operation -/

theorem decodeDiv_packDivIn (ofU ofS : Nat → Nat → Instr) (g : DivSign) (n d : Word W) :
    decodeDiv ofU ofS (packDivIn g.bit n d) = (match g with | .unsigned => ofU | .signed => ofS) n.toNat d.toNat := by
  rw [decodeDiv, divSignField_packDivIn, DivSign.ofBit_bit, divLowField_packDivIn, divHighField_packDivIn]
  cases g <;> rfl

theorem decodeMul_packMulIn (ofU ofS ofSU : Nat → Nat → Instr) (g : MulSign) (a b : Word W) :
    decodeMul ofU ofS ofSU (packMulIn g.code a b) =
      .ok ((match g with | .unsigned => ofU | .signed => ofS | .signedUnsigned => ofSU) a.toNat b.toNat) := by
  rw [decodeMul, mulSignField_packMulIn, MulSign.ofCode_code, mulAField_packMulIn, mulBField_packMulIn]
  cases g <;> rfl

theorem decodeBcd_packBcdIn (n : Word W) : decodeBcd (packBcdIn DivSign.unsigned.bit n) = .ok (.bcdU n.toNat) := by
  rw [decodeBcd, bcdSignField_packBcdIn, DivSign.ofBit_bit, bcdNField_packBcdIn]

/-- A field value that fits is the word it stands for. -/
theorem toNat_fieldWord_of_fits {W x : Nat} (h : fitsField W x = true) : (fieldWord W x).toNat = x := by
  rw [fieldWord, BitVec.toNat_ofNat, Nat.mod_eq_of_lt (of_decide_eq_true h)]

theorem fitsField_toNat (v : Word W) : fitsField W v.toNat = true := decide_eq_true v.isLt

/-- The two operands of a well-formed operation are the words they stand for. -/
theorem toNat_fieldWords_of_fits {W x y : Nat} (h : (fitsField W x && fitsField W y) = true) :
    (fieldWord W x).toNat = x ∧ (fieldWord W y).toNat = y := by
  obtain ⟨hx, hy⟩ := (Bool.and_eq_true _ _).mp h
  exact ⟨toNat_fieldWord_of_fits hx, toNat_fieldWord_of_fits hy⟩

/-- Settles O1: each payload is read by its component's format, whose fields give back the tag and the operand words. -/
theorem decodeOfEncode : Obligations.DecodeOfEncode := by
  intro W i hwf
  cases i with
  | bcdU n =>
    have hn : (fieldWord W n).toNat = n := toNat_fieldWord_of_fits hwf
    exact (decode_bcd _).trans ((decodeBcd_packBcdIn _).trans (by rw [hn]))
  | magcmp a b =>
    obtain ⟨ha, hb⟩ := toNat_fieldWords_of_fits hwf
    exact (decode_mag _).trans (by rw [magAField_packMag, magBField_packMag, ha, hb])
  | nrdivU n d | nrdivS n d =>
    obtain ⟨hn, hd⟩ := toNat_fieldWords_of_fits hwf
    exact (decode_nrdiv _).trans (by rw [decodeDiv_packDivIn, hn, hd])
  | rdivU n d | rdivS n d =>
    obtain ⟨hn, hd⟩ := toNat_fieldWords_of_fits hwf
    exact (decode_rdiv _).trans (by rw [decodeDiv_packDivIn, hn, hd])
  | ldivU n d | ldivS n d =>
    obtain ⟨hn, hd⟩ := toNat_fieldWords_of_fits hwf
    exact (decode_ldiv _).trans (by rw [decodeDiv_packDivIn, hn, hd])
  | pmulU a b | pmulS a b | pmulSU a b =>
    obtain ⟨ha, hb⟩ := toNat_fieldWords_of_fits hwf
    exact (decode_pmul _).trans (by rw [decodeMul_packMulIn, ha, hb])
  | mcmulU a b | mcmulS a b | mcmulSU a b =>
    obtain ⟨ha, hb⟩ := toNat_fieldWords_of_fits hwf
    exact (decode_mcmul _).trans (by rw [decodeMul_packMulIn, ha, hb])

/-! ### What decodes is an encoding -/

/-- Two words fit their fields. -/
theorem fitsField_toNat_and (x y : Word W) : (fitsField W x.toNat && fitsField W y.toNat) = true := by
  rw [fitsField_toNat, fitsField_toNat, Bool.and_self]

/-- Settles O2: a payload that decodes has its format's width, and packing the fields read from it gives it back. -/
theorem encodeOfDecode : Obligations.EncodeOfDecode := by
  intro c W p i hdecode
  obtain ⟨v, rfl⟩ := exists_payload_of_decode hdecode
  cases c with
  | nrdiv =>
    obtain ⟨g, rfl, hpack⟩ := Machine.decodeDiv_repacked _ _ _ _ (Except.ok.inj ((decode_nrdiv v).symm.trans hdecode))
    cases g <;> exact ⟨rfl, fitsField_toNat_and _ _, congrArg BitVec.toNat hpack⟩
  | rdiv =>
    obtain ⟨g, rfl, hpack⟩ := Machine.decodeDiv_repacked _ _ _ _ (Except.ok.inj ((decode_rdiv v).symm.trans hdecode))
    cases g <;> exact ⟨rfl, fitsField_toNat_and _ _, congrArg BitVec.toNat hpack⟩
  | ldiv =>
    obtain ⟨g, rfl, hpack⟩ := Machine.decodeDiv_repacked _ _ _ _ (Except.ok.inj ((decode_ldiv v).symm.trans hdecode))
    cases g <;> exact ⟨rfl, fitsField_toNat_and _ _, congrArg BitVec.toNat hpack⟩
  | pmul =>
    obtain ⟨g, rfl, hpack⟩ := Machine.decodeMul_repacked _ _ _ _ _ ((decode_pmul v).symm.trans hdecode)
    cases g <;> exact ⟨rfl, fitsField_toNat_and _ _, congrArg BitVec.toNat hpack⟩
  | mcmul =>
    obtain ⟨g, rfl, hpack⟩ := Machine.decodeMul_repacked _ _ _ _ _ ((decode_mcmul v).symm.trans hdecode)
    cases g <;> exact ⟨rfl, fitsField_toNat_and _ _, congrArg BitVec.toNat hpack⟩
  | bcd =>
    obtain ⟨rfl, hpack⟩ := Machine.decodeBcd_repacked _ _ ((decode_bcd v).symm.trans hdecode)
    exact ⟨rfl, fitsField_toNat _, congrArg BitVec.toNat hpack⟩
  | mag =>
    obtain rfl := Except.ok.inj ((decode_mag v).symm.trans hdecode)
    refine ⟨rfl, fitsField_toNat_and _ _, ?_⟩
    rw [encode, fieldWord_toNat, fieldWord_toNat]
    exact congrArg BitVec.toNat (packMag_fields v)

/-! ### The tag field -/

/-- The 1-bit tag is the lowest bit of the payload (30_encoding.md R76). -/
theorem divSignField_eq (v : BitVec (W + W + 1)) : divSignField v = BitVec.ofNat 1 (v.toNat % 2) :=
  BitVec.eq_of_toNat_eq (by simp [divSignField])

theorem bcdSignField_eq (v : BitVec (W + 1)) : bcdSignField v = BitVec.ofNat 1 (v.toNat % 2) :=
  BitVec.eq_of_toNat_eq (by simp [bcdSignField])

/-- The 2-bit tag is the two lowest bits of the payload (30_encoding.md R78). -/
theorem mulSignField_eq (v : BitVec (W + W + 2)) : mulSignField v = BitVec.ofNat 2 (v.toNat % 4) :=
  BitVec.eq_of_toNat_eq (by simp [mulSignField])

/-- The lowest bit selects between the two rows of a divider. -/
theorem decodeDiv_of_lowBit (ofU ofS : Nat → Nat → Instr) (v : BitVec (W + W + 1)) :
    ∃ n d, decodeDiv ofU ofS v = if v.toNat % 2 = 0 then ofU n d else ofS n d := by
  refine ⟨(divLowField v).toNat, (divHighField v).toNat, ?_⟩
  rw [decodeDiv, divSignField_eq]
  rcases Nat.mod_two_eq_zero_or_one v.toNat with h | h <;> rw [h] <;> rfl

/-- The two lowest bits select among the three rows of a multiplier. -/
theorem decodeMul_of_lowBits (ofU ofS ofSU : Nat → Nat → Instr) (v : BitVec (W + W + 2)) (h : v.toNat % 4 ≠ 3) :
    ∃ a b, decodeMul ofU ofS ofSU v =
      .ok (if v.toNat % 4 = 0 then ofU a b else if v.toNat % 4 = 1 then ofS a b else ofSU a b) := by
  refine ⟨(mulAField v).toNat, (mulBField v).toNat, ?_⟩
  have hcases : v.toNat % 4 = 0 ∨ v.toNat % 4 = 1 ∨ v.toNat % 4 = 2 := by omega
  rw [decodeMul, mulSignField_eq]
  rcases hcases with h | h | h <;> rw [h] <;> rfl

/-- Settles O3: the tag field is the payload's lowest bits, and the decoders look at nothing else to select the row. -/
theorem tagFieldSelectsOperation : Obligations.TagFieldSelectsOperation := by
  intro W p
  refine ⟨fun hp => ?dividers, fun hp htag => ?multipliers, fun hp htag => ?converter⟩ <;>
    obtain ⟨v, rfl⟩ := exists_payload_of_lt hp
  case dividers =>
    simp only [decode_nrdiv, decode_rdiv, decode_ldiv, Except.ok.injEq]
    exact ⟨decodeDiv_of_lowBit _ _ v, decodeDiv_of_lowBit _ _ v, decodeDiv_of_lowBit _ _ v⟩
  case multipliers =>
    simp only [decode_pmul, decode_mcmul]
    exact ⟨decodeMul_of_lowBits _ _ _ v htag, decodeMul_of_lowBits _ _ _ v htag⟩
  case converter => exact ⟨(bcdNField v).toNat, by rw [decode_bcd, decodeBcd, bcdSignField_eq, htag]; rfl⟩

/-- The code 3 of a multiplier's tag is no operation (30_encoding.md R87). -/
theorem decodeMul_of_reserved (ofU ofS ofSU : Nat → Nat → Instr) (v : BitVec (W + W + 2)) (h : v.toNat % 4 = 3) :
    decodeMul ofU ofS ofSU v = .error .reservedMulSign := by
  rw [decodeMul, mulSignField_eq, h]
  rfl

/-- Settles O4: with a reserved code in the lowest bits the decoders of the multipliers and the converter give an error. -/
theorem reservedTagsDecodeToNothing : Obligations.ReservedTagsDecodeToNothing := by
  intro W p
  refine ⟨fun hp htag => ?multipliers, fun hp htag => ?converter⟩ <;> obtain ⟨v, rfl⟩ := exists_payload_of_lt hp
  case multipliers => exact ⟨by rw [decode_pmul, decodeMul_of_reserved _ _ _ v htag],
    by rw [decode_mcmul, decodeMul_of_reserved _ _ _ v htag]⟩
  case converter => rw [decode_bcd, decodeBcd, bcdSignField_eq, htag]; rfl

/-- Settles O6: each word is a closed payload, decoded or packed by evaluation. -/
theorem specWordsDecode : Obligations.SpecWordsDecode := by
  refine ⟨?_, ?_, ?_, ?_, ?_, ?_, ?_, ?_, ?_, ?_, ?_, ?_⟩ <;> decide

end Sys2Proof

namespace Sys2Proof.Machine

/-! ### A step runs the operation offered -/

/-- An operation offered at a port is the step: both are the clock edge. -/
theorem step_eq_exec_of_fetchAt {s : State} {c : Component} {i : Instr} (h : s.fetchAt c = some i) : step s = exec i s :=
  (step_eq_clock s).trans (exec_of_fetchAt s c i h).symm

/-- Settles O7: whichever port it is, the operation offered there is run by the clock edge that the step is. -/
theorem stepRunsTheOfferedOperation : Obligations.StepRunsTheOfferedOperation :=
  fun _ _ _ => step_eq_exec_of_fetchAt

/-- A driven line offers the payload's operation. -/
theorem offeringLine_operation {c : Component} {W p : Nat} {i : Instr} (h : decode c W p = .ok i) :
    (offeringLine p : Line (payloadBits c W)).operation c W = some i := by
  obtain ⟨v, rfl⟩ := exists_payload_of_decode h
  refine (Line.operation_eq_some _ _ _ _).mpr ⟨rfl, ?_⟩
  rw [offeringLine, ofNat_payload, h]

/-- The port of a component that a payload is driven at is offered the operation it decodes to. -/
theorem State.fetchAt_drive {s : State} {c : Component} {p : Nat} {i : Instr} (h : decode c (s.width c) p = .ok i) :
    (s.drive c p).fetchAt c = some i := by
  cases c with
  | nrdiv | rdiv | ldiv | pmul | mcmul | bcd => exact offeringLine_operation h
  | mag =>
    obtain ⟨v, rfl⟩ := exists_payload_of_decode h
    have hi : i = .magcmp (magAField v).toNat (magBField v).toNat := (Except.ok.inj ((decode_mag v).symm.trans h)).symm
    have hv : BitVec.ofNat (s.mag.w + s.mag.w) v.toNat = v := ofNat_payload v
    show some (Instr.magcmp (magAField (BitVec.ofNat (s.mag.w + s.mag.w) v.toNat)).toNat
      (magBField (BitVec.ofNat (s.mag.w + s.mag.w) v.toNat)).toNat) = some i
    rw [hi, hv]
    rfl

/-- Settles O8: the word's component is driven its payload, so that port is offered the operation the word decodes to. -/
theorem tableWordRunsFirstAfterReset : Obligations.TableWordRunsFirstAfterReset := by
  intro nbits w i hdecode
  unfold decodeTableWord at hdecode
  cases hselector : Component.ofSelector (w / 2 ^ nbits) with
  | none =>
    rw [hselector] at hdecode
    cases hdecode
  | some c =>
    rw [hselector] at hdecode
    have hdrive : State.reset.withFetchWord nbits w = State.reset.drive c (w % 2 ^ nbits) := by
      rw [State.withFetchWord, State.driveTableWord, hselector]
    have hpayload : decode c (State.reset.width c) (w % 2 ^ nbits) = .ok i := by
      cases hd : decode c (Params.default.width c) (w % 2 ^ nbits) with
      | error e =>
        simp only [hd] at hdecode
        cases hdecode
      | ok j =>
        simp only [hd] at hdecode
        obtain rfl := Option.some.inj hdecode
        exact hd
    rw [hdrive]
    exact step_eq_exec_of_fetchAt (State.fetchAt_drive hpayload)

end Sys2Proof.Machine

/-! PROOFS. The divider cores (41_multicycle_div.md R124 to R129, R133): each loop body keeps its loop invariant, both cores end
in the same core result, and the core result determines the register. -/

namespace Sys2Proof.Machine

/-! ### The shift of the low half, as numbers -/

/-- One shift of a low half `L` that holds the last bits of `n` above `j` quotient bits: the bit that leaves is the next bit of
`n`, and with a quotient bit put in below, the low half holds one bit of `n` less and one quotient bit more (R129). -/
theorem shifted_low {W j L n q : Nat} (hj : j < W) (hrest : L / 2 ^ j = n % 2 ^ (W - j)) (hq : q ≤ 1) :
    n / 2 ^ (W - (j + 1)) = 2 * (n / 2 ^ (W - j)) + L / 2 ^ (W - 1) ∧
      (2 * L % 2 ^ W + q) / 2 ^ (j + 1) = n % 2 ^ (W - (j + 1)) ∧
      (2 * L % 2 ^ W + q) % 2 ^ (j + 1) = 2 * (L % 2 ^ j) + q := by
  obtain ⟨m, rfl⟩ : ∃ m, W = j + 1 + m := ⟨W - (j + 1), by omega⟩
  rw [show j + 1 + m - j = m + 1 by omega] at hrest ⊢
  rw [show j + 1 + m - (j + 1) = m by omega, show j + 1 + m - 1 = j + m by omega]
  have hhalf : n / 2 ^ (m + 1) = n / 2 ^ m / 2 := by rw [pow_succ, Nat.div_div_eq_div_mul]
  have hsplit : n % 2 ^ (m + 1) = n % 2 ^ m + 2 ^ m * (n / 2 ^ m % 2) := Nat.mod_pow_succ
  have hbit : n / 2 ^ m % 2 < 2 := Nat.mod_lt _ (by decide)
  have htail : n % 2 ^ m < 2 ^ m := Nat.mod_lt _ (by positivity)
  have hquo : L % 2 ^ j < 2 ^ j := Nat.mod_lt _ (by positivity)
  have hL := Nat.div_add_mod L (2 ^ j)
  have hleaving : L / 2 ^ (j + m) = n / 2 ^ m % 2 := by
    rw [pow_add, ← Nat.div_div_eq_div_mul, hrest, hsplit, Nat.add_mul_div_left _ _ (by positivity),
      Nat.div_eq_of_lt htail, Nat.zero_add]
  have hshift : 2 * L % 2 ^ (j + 1 + m) = 2 ^ (j + 1) * (n % 2 ^ m) + 2 * (L % 2 ^ j) := by
    have hsum : 2 * L =
        2 ^ (j + 1) * (n % 2 ^ m) + 2 * (L % 2 ^ j) + 2 ^ (j + 1 + m) * (n / 2 ^ m % 2) := by
      rw [← hL, hrest, hsplit, Nat.mul_add_mod, Nat.mod_mod]
      ring
    have hfit : 2 ^ (j + 1) * (n % 2 ^ m) + 2 * (L % 2 ^ j) < 2 ^ (j + 1 + m) := by
      have := Nat.mul_le_mul_left (2 ^ (j + 1)) (Nat.succ_le_of_lt htail)
      rw [pow_add 2 (j + 1) m]
      rw [Nat.mul_succ] at this
      have := pow_succ 2 j
      omega
    rw [hsum, Nat.add_mul_mod_self_left, Nat.mod_eq_of_lt hfit]
  have hlow : 2 * (L % 2 ^ j) + q < 2 ^ (j + 1) := by
    rw [pow_succ]
    omega
  refine ⟨?_, ?_, ?_⟩
  · rw [hleaving, hhalf]
    omega
  · rw [hshift, Nat.add_assoc, Nat.mul_add_div (by positivity), Nat.div_eq_of_lt hlow, Nat.add_zero]
  · rw [hshift, Nat.add_assoc, Nat.mul_add_mod, Nat.mod_eq_of_lt hlow]

theorem topBits_zero (n : Word W) : topBits 0 n = 0 := by
  rw [topBits, Nat.sub_zero, Nat.div_eq_of_lt n.isLt]

theorem topBits_all (n : Word W) : topBits W n = n.toNat := by
  rw [topBits, Nat.sub_self, pow_zero, Nat.div_one]

theorem topBits_lt (hj : j ≤ W) (n : Word W) : topBits j n < 2 ^ j := by
  have hn := n.isLt
  refine Nat.div_lt_of_lt_mul ?_
  rwa [← pow_add, Nat.sub_add_cancel hj]

/-- A divisor that is not zero is at least 1. -/
theorem divisor_pos {d : Word W} (h : d ≠ 0#W) : 0 < d.toNat :=
  Nat.pos_of_ne_zero fun h0 => h (BitVec.eq_of_toNat_eq (by simpa using h0))

/-- The bit that a shift moves out of a low half. -/
theorem leavingBit_lt (hW : 1 ≤ W) (x : Backing W) : (Backing.low x).toNat / 2 ^ (W - 1) < 2 := by
  refine Nat.div_lt_of_lt_mul ?_
  rw [← pow_succ, Nat.sub_add_cancel hW]
  exact (Backing.low x).isLt

/-- The loops begin with the dividend in the low half (R123). -/
theorem setWidth_halves (n : Word W) :
    (Backing.high (n.setWidth (W + 1 + W))).toNat = 0 ∧ (Backing.low (n.setWidth (W + 1 + W))).toNat = n.toNat := by
  have hn := n.isLt
  have hwide : (n.setWidth (W + 1 + W)).toNat = n.toNat := BitVec.toNat_setWidth_of_le (by omega)
  rw [high_toNat, low_toNat, hwide, Nat.mod_eq_of_lt hn, Nat.div_eq_of_lt hn]
  exact ⟨rfl, rfl⟩

/-! ### The restoring loop (R124, R129) -/

/-- The loop begins with no bit of the dividend taken (R123). -/
theorem restoringLoop_zero (n d : Word W) : RestoringLoop 0 n d (n.setWidth (W + 1 + W)) := by
  have hn := n.isLt
  obtain ⟨hhigh, hlow⟩ := setWidth_halves n
  rw [RestoringLoop, hlow, hhigh, topBits_zero]
  refine ⟨by rw [pow_zero, Nat.div_one, Nat.sub_zero, Nat.mod_eq_of_lt hn], ?_⟩
  split <;> simp [Nat.mod_one]

/-- One restoring iteration takes the next bit of the dividend (R129). -/
theorem restoringLoop_step {n d : Word W} {x : Backing W} (hj : j < W) (h : RestoringLoop j n d x) :
    RestoringLoop (j + 1) n d (rstep x d) := by
  obtain ⟨hrest, hcore⟩ := h
  have hd := d.isLt
  have htop : topBits (j + 1) n < 2 ^ (j + 1) := topBits_lt hj n
  have hwidth : 2 ^ (j + 1) ≤ 2 ^ W := Nat.pow_le_pow_right (by decide) hj
  have hpow : 2 ^ (W + 1) = 2 * 2 ^ W := by ring
  have hnext : topBits (j + 1) n = 2 * topBits j n + (Backing.low x).toNat / 2 ^ (W - 1) :=
    (shifted_low hj hrest (Nat.zero_le 1)).1
  have hbit := leavingBit_lt (by omega) x
  by_cases hzero : d = 0#W
  case pos =>
    rw [if_pos hzero] at hcore
    obtain ⟨hhigh, hquo⟩ := hcore
    obtain ⟨hh, hl⟩ := rstep_spec x d (topBits (j + 1) n) (by omega) (by rw [hhigh, hnext]) (by omega)
      (by omega)
    rw [if_pos (by simp [hzero])] at hh hl
    obtain ⟨-, hrest', hquo'⟩ := shifted_low hj hrest le_rfl
    rw [← hl] at hrest' hquo'
    refine ⟨hrest', ?_⟩
    rw [if_pos hzero, hh, hquo', hquo]
    have hpos : 0 < 2 ^ j := by positivity
    exact ⟨by simp [hzero], by rw [pow_succ]; omega⟩
  case neg =>
    have hdpos := divisor_pos hzero
    rw [if_neg hzero] at hcore
    obtain ⟨hhigh, hquo⟩ := hcore
    have hlt := Nat.mod_lt (topBits j n) hdpos
    have hdm := Nat.div_add_mod (topBits j n) d.toNat
    rw [← hhigh] at hlt hdm
    rw [← hquo] at hdm
    obtain ⟨hh, hl⟩ := rstep_spec x d _ (by omega) rfl (by omega) (by omega)
    have hq : (if d.toNat ≤ 2 * (Backing.high x).toNat + (Backing.low x).toNat / 2 ^ (W - 1) then 1 else 0) ≤ 1 := by
      split <;> omega
    obtain ⟨-, hrest', hquo'⟩ := shifted_low hj hrest hq
    rw [← hl] at hrest' hquo'
    refine ⟨hrest', ?_⟩
    rw [if_neg hzero, hh, hquo', hnext]
    refine ((Nat.div_mod_unique hdpos).mpr ?_).symm.imp Eq.symm Eq.symm
    split
    next hsub => exact ⟨by rw [← hdm, Nat.mul_add, Nat.mul_left_comm]; omega, by omega⟩
    next hkeep => exact ⟨by rw [← hdm, Nat.mul_add, Nat.mul_left_comm]; omega, by omega⟩

/-! ### The non-restoring loop (R125, R133) -/

/-- The loop begins with no bit of the dividend taken (R123). -/
theorem nonRestoringLoop_zero (n d : Word W) : NonRestoringLoop 0 n d (n.setWidth (W + 1 + W)) := by
  have hn := n.isLt
  obtain ⟨hhigh, hlow⟩ := setWidth_halves n
  have hhigh' : (Backing.high (n.setWidth (W + 1 + W))).toInt = 0 := by
    rw [BitVec.toInt_eq_toNat_bmod, hhigh]
    simp
  rw [NonRestoringLoop, hlow, hhigh', topBits_zero]
  refine ⟨by rw [pow_zero, Nat.div_one, Nat.sub_zero, Nat.mod_eq_of_lt hn], by simp [Nat.mod_one], ?_⟩
  split
  next => simp [Nat.mod_one]
  next hd =>
    have := divisor_pos hd
    omega

/-- One non-restoring iteration takes the next bit of the dividend (R133). -/
theorem nonRestoringLoop_step {n d : Word W} {x : Backing W} (hj : j < W) (h : NonRestoringLoop j n d x) :
    NonRestoringLoop (j + 1) n d (nrstep x d) := by
  obtain ⟨hrest, hexact, hcore⟩ := h
  have hd : (d.toNat : Int) < 2 ^ W := by exact_mod_cast d.isLt
  have htop : (topBits (j + 1) n : Int) < 2 ^ (j + 1) := by exact_mod_cast topBits_lt hj n
  have hwidth : (2 : Int) ^ (j + 1) ≤ 2 ^ W := pow_le_pow_right₀ (by norm_num) hj
  have hpow : (2 : Int) ^ (j + 1) = 2 * 2 ^ j := by ring
  have hbit := leavingBit_lt (by omega) x
  have hq : (if (Backing.high x).toInt < 0 then 0 else 1) ≤ 1 := by split <;> omega
  obtain ⟨hnext, hrest', hquo'⟩ := shifted_low hj hrest hq
  obtain ⟨b, hb⟩ : ∃ b, b = (Backing.low x).toNat / 2 ^ (W - 1) := ⟨_, rfl⟩
  have hnext : topBits (j + 1) n = 2 * topBits j n + b := by rw [hb]; exact hnext
  rw [← hb] at hbit
  obtain ⟨a, ha⟩ : ∃ a, a = 2 * (Backing.high x).toInt + (b : Int) +
    (if (Backing.high x).toInt < 0 then (d.toNat : Int) else -(d.toNat : Int)) := ⟨_, rfl⟩
  have hrange : if d = 0#W then (Backing.high x).toInt = topBits j n ∧ a = topBits (j + 1) n
      else -(d.toNat : Int) ≤ a ∧ a < d.toNat := by
    by_cases hzero : d = 0#W
    · rw [if_pos hzero] at hcore ⊢
      have hd0 : d.toNat = 0 := by simp [hzero]
      rw [ha, hd0, hcore.1]
      split <;> omega
    · rw [if_neg hzero] at hcore ⊢
      rw [ha]
      split <;> omega
  have hfit : -(2 : Int) ^ W ≤ a ∧ a < 2 ^ W := by split at hrange <;> omega
  obtain ⟨hh, hl⟩ := nrstep_spec x d a (by omega) (by rw [ha, hb]) hfit.1 hfit.2
  rw [← hl] at hrest' hquo'
  refine ⟨hrest', ?exact, ?range⟩
  case exact =>
    rw [hh, hquo', hnext, ha, hexact]
    split <;> (push_cast; ring)
  case range =>
    rw [hh, hquo']
    by_cases hzero : d = 0#W
    · rw [if_pos hzero] at hcore hrange ⊢
      obtain ⟨hhigh, hquo⟩ := hcore
      have hpos : 0 < 2 ^ j := by positivity
      have hpow' : 2 ^ (j + 1) = 2 * 2 ^ j := by ring
      rw [if_neg (by omega), hquo]
      exact ⟨hrange.2, by omega⟩
    · rwa [if_neg hzero] at hrange ⊢

/-! ### The core result (R127, R128) -/

/-- After `W` restoring iterations the register holds the core result. -/
theorem coreResult_of_restoringLoop {n d : Word W} {x : Backing W} (h : RestoringLoop W n d x) : CoreResult n d x := by
  obtain ⟨-, hcore⟩ := h
  have hl := (Backing.low x).isLt
  have hn := n.isLt
  rw [topBits_all, Nat.mod_eq_of_lt hl] at hcore
  unfold CoreResult
  split at hcore
  next hzero =>
    rw [if_pos hzero]
    refine ⟨BitVec.eq_of_toNat_eq ?_, BitVec.eq_of_toNat_eq ?_⟩
    · rw [hcore.2, onesWord, BitVec.toNat_allOnes]
    · rw [hcore.1, BitVec.toNat_setWidth_of_le (by omega)]
  next hzero =>
    rw [if_neg hzero]
    exact hcore.symm

/-- A word whose signed reading is not negative reads the same unsigned. -/
theorem toNat_of_toInt_nonneg {v : BitVec w} (h : 0 ≤ v.toInt) : (v.toNat : Int) = v.toInt := by
  have hv := v.isLt
  rw [BitVec.toInt_eq_toNat_cond] at h ⊢
  split at h <;> rename_i hc
  · rw [if_pos hc]
  · omega

/-- After `W` non-restoring iterations the restore step leaves the core result. -/
theorem coreResult_of_nonRestoringLoop {n d : Word W} {x : Backing W} (h : NonRestoringLoop W n d x) :
    CoreResult n d (nrfix x d) := by
  obtain ⟨-, hexact, hcore⟩ := h
  have hl := (Backing.low x).isLt
  have hn := n.isLt
  have hn' : (n.toNat : Int) < 2 ^ W := by exact_mod_cast hn
  have hnonneg : (0 : Int) ≤ n.toNat := Int.natCast_nonneg _
  rw [topBits_all, Nat.mod_eq_of_lt hl] at hexact hcore
  unfold CoreResult
  by_cases hzero : d = 0#W
  case pos =>
    rw [if_pos hzero] at hcore ⊢
    obtain ⟨hhigh, hquo⟩ := hcore
    have hd0 : d.toNat = 0 := by simp [hzero]
    obtain ⟨hh, hlow⟩ := nrfix_spec x d (by omega)
    rw [if_neg (by omega)] at hh hlow
    have hpos : 0 < 2 ^ W := by positivity
    constructor
    · apply BitVec.eq_of_toNat_eq
      rw [onesWord, BitVec.toNat_allOnes]
      have hval : (2 * ((Backing.low x).toNat : Int) + 1 - 0) % 2 ^ W = 2 ^ W - 1 := by
        rw [hquo, Nat.cast_sub hpos]
        push_cast
        rw [show 2 * ((2 : Int) ^ W - 1) + 1 - 0 = (2 ^ W - 1) + 2 ^ W by ring, Int.add_emod_right]
        exact Int.emod_eq_of_lt (by have : (1 : Int) ≤ 2 ^ W := one_le_pow₀ (by norm_num); omega) (by omega)
      rw [hval] at hlow
      zify [hpos]
      exact hlow
    · apply BitVec.eq_of_toInt_eq
      rw [hh, hhigh, setWidth_succ_toInt]
  case neg =>
    rw [if_neg hzero] at hcore ⊢
    obtain ⟨hge, hlt⟩ := hcore
    obtain ⟨hh, hlow⟩ := nrfix_spec x d hge
    have hdpos : (0 : Int) < d.toNat := by exact_mod_cast divisor_pos hzero
    obtain ⟨c, hc⟩ : ∃ c : Int, c = if (Backing.high x).toInt < 0 then 1 else 0 := ⟨_, rfl⟩
    have hdivmod : (n.toNat : Int) / d.toNat = 2 * ((Backing.low x).toNat : Int) + 1 - c - 2 ^ W ∧
        (n.toNat : Int) % d.toNat = (Backing.high x).toInt + d.toNat * c := by
      rw [Int.ediv_emod_unique hdpos]
      refine ⟨by rw [hexact]; ring, ?_⟩
      rw [hc]
      split <;> omega
    obtain ⟨hdiv, hmod⟩ := hdivmod
    have hq0 : 0 ≤ (n.toNat : Int) / d.toNat := Int.ediv_nonneg hnonneg hdpos.le
    have hqn : (n.toNat : Int) / d.toNat ≤ n.toNat := Int.ediv_le_self _ hnonneg
    have hlow' : (2 * ((Backing.low x).toNat : Int) + 1 - c) % 2 ^ W = (n.toNat : Int) / d.toNat := by
      rw [show 2 * ((Backing.low x).toNat : Int) + 1 - c = (n.toNat : Int) / d.toNat + 2 ^ W by omega, Int.add_emod_right]
      exact Int.emod_eq_of_lt hq0 (by omega)
    have hhigh : (Backing.high (nrfix x d)).toInt = (n.toNat : Int) % d.toNat := by
      rw [hh, hmod, hc]
      split <;> ring
    rw [← hc, hlow'] at hlow
    have hlt' : (n.toNat : Int) % d.toNat < d.toNat := Int.emod_lt_of_pos _ hdpos
    have hd : (d.toNat : Int) < 2 ^ W := by exact_mod_cast d.isLt
    have hr0 := Int.emod_nonneg (n.toNat : Int) hdpos.ne'
    refine ⟨by exact_mod_cast hlow, ?_⟩
    zify
    rw [← hhigh]
    exact toNat_of_toInt_nonneg (by omega)

end Sys2Proof.Machine

/-! PROOFS. The division contract (41_multicycle_div.md R117, R118), the sign shell's magnitudes (R122), and that both cores
with the sign shell compute it (R116, R128, R130). -/

namespace Sys2Proof.Machine

/-! ### The two cores are one function (R116, R128) -/

/-- The core result leaves no bit of the register open. -/
theorem coreResult_unique {n d : Word W} {x y : Backing W} (hx : CoreResult n d x) (hy : CoreResult n d y) : x = y := by
  unfold CoreResult at hx hy
  split at hx
  next hd =>
    rw [if_pos hd] at hy
    exact backing_ext (hx.2.trans hy.2.symm) (hx.1.trans hy.1.symm)
  next hd =>
    rw [if_neg hd] at hy
    exact backing_ext (BitVec.eq_of_toNat_eq (hx.2.trans hy.2.symm)) (BitVec.eq_of_toNat_eq (hx.1.trans hy.1.symm))

/-- What holds at first and is kept by each of the first `W` iterations holds after any number of them up to `W`. -/
theorem iterate_invariant {α : Type} {P : Nat → α → Prop} {f : α → α} {x : α} {W : Nat} (hzero : P 0 x)
    (hstep : ∀ k y, k < W → P k y → P (k + 1) (f y)) : ∀ k, k ≤ W → P k (f^[k] x)
  | 0, _ => hzero
  | k + 1, hk => by
    rw [Function.iterate_succ_apply']
    exact hstep k _ hk (iterate_invariant hzero hstep k (Nat.le_of_succ_le hk))

/-- Settles O46: `W` iterations of either loop end in the core result, the non-restoring one after the restore step, and the
core result determines the register. -/
theorem restoringEqualsNonRestoring : Obligations.RestoringEqualsNonRestoring := by
  intro W n d _
  have hrestoring := iterate_invariant (P := (RestoringLoop · n d)) (restoringLoop_zero n d)
    (fun _ _ hk h => restoringLoop_step hk h) W le_rfl
  have hnonRestoring := iterate_invariant (P := (NonRestoringLoop · n d)) (nonRestoringLoop_zero n d)
    (fun _ _ hk h => nonRestoringLoop_step hk h) W le_rfl
  exact coreResult_unique (coreResult_of_restoringLoop hrestoring) (coreResult_of_nonRestoringLoop hnonRestoring)

/-! ### Operands read with their tag -/

theorem ofInt_divOperand (g : DivSign) (v : Word W) : BitVec.ofInt W (divOperand g v) = v := by
  cases g
  · rw [divOperand, BitVec.ofInt_natCast, BitVec.ofNat_toNat, BitVec.setWidth_eq]
  · exact BitVec.ofInt_toInt

/-- A word is zero exactly if it is read as zero. -/
theorem divOperand_eq_zero_iff (g : DivSign) (v : Word W) : divOperand g v = 0 ↔ v = 0#W := by
  constructor
  · intro h
    rw [← ofInt_divOperand g v, h]
    rfl
  · rintro rfl
    cases g <;> simp [divOperand]

/-- The quadrant flag says that the operand is negative, unless the divisor is zero (R121). -/
theorem quadrant_iff_neg (g : DivSign) (v : Word W) {d : Word W} (hd : d ≠ 0#W) :
    quadrant g v d = true ↔ divOperand g v < 0 := by
  rw [quadrant_eq_true_iff]
  cases g with
  | unsigned => exact iff_of_false nofun (not_lt.mpr (Int.natCast_nonneg _))
  | signed => simp [divOperand, hd, BitVec.msb_eq_toInt]

theorem quadrant_zero (g : DivSign) (v : Word W) : quadrant g v 0#W = false := by
  simp [quadrant]

/-- The magnitude of a negative word of `W` bits fits `W` bits unsigned, `MIN_W`'s included (R122). -/
theorem negWhen_quadrant_toNat (g : DivSign) (v : Word W) {d : Word W} (hd : d ≠ 0#W) :
    ((negWhen (quadrant g v d) v).toNat : Int) = |divOperand g v| := by
  have hv := v.isLt
  have hneg := quadrant_iff_neg g v hd
  unfold negWhen
  cases g with
  | unsigned =>
    have hnonneg : ¬divOperand .unsigned v < 0 := not_lt.mpr (Int.natCast_nonneg _)
    rw [if_neg (mt hneg.mp hnonneg), abs_of_nonneg (not_lt.mp hnonneg)]
    rfl
  | signed =>
    have hread : divOperand .signed v = if 2 * v.toNat < 2 ^ W then (v.toNat : Int) else v.toNat - (2 ^ W : Nat) :=
      BitVec.toInt_eq_toNat_cond v
    split at hread
    next hsmall => rw [if_neg (mt hneg.mp (by omega)), abs_of_nonneg (by omega), hread]
    next hlarge =>
      rw [if_pos (hneg.mpr (by omega)), abs_of_neg (by omega), BitVec.toNat_neg, Nat.mod_eq_of_lt (by omega)]
      omega

/-- Settles O48: negating exactly the negative operands gives magnitudes; a zero divisor suppresses both negations. -/
theorem magnitudesAreExact : Obligations.MagnitudesAreExact := by
  intro W g n d _
  refine ⟨negWhen_quadrant_toNat g n, negWhen_quadrant_toNat g d, ?_⟩
  rintro rfl
  rw [quadrant_zero, quadrant_zero]
  exact ⟨rfl, rfl⟩

/-! ### DIVRESULT as exact integers (R117, R118) -/

theorem toInt_minWord (hW : 1 ≤ W) : (minWord W).toInt = -2 ^ (W - 1) := BitVec.toInt_intMin_of_pos hW

theorem toInt_onesWord (hW : 1 ≤ W) : (onesWord W).toInt = -1 := by
  rw [onesWord, BitVec.toInt_allOnes, if_pos (by omega)]

/-- By a divisor that is not zero DIVRESULT is the truncated quotient and remainder, cut to words; the overflow wraps by that. -/
theorem divResult_of_ne_zero (hW : 1 ≤ W) (g : DivSign) (n : Word W) {d : Word W} (hd : d ≠ 0#W) :
    divResult g n d = (BitVec.ofInt W ((divOperand g n).tdiv (divOperand g d)),
      BitVec.ofInt W ((divOperand g n).tmod (divOperand g d))) := by
  unfold divResult
  rw [if_neg hd]
  split
  next hoverflow =>
    obtain ⟨rfl, rfl, rfl⟩ := hoverflow
    rw [divOperand, divOperand, toInt_minWord hW, toInt_onesWord hW, Int.tdiv_neg, Int.tdiv_one, neg_neg, Int.tmod_neg,
      Int.tmod_one]
    have hmin : minWord W = BitVec.ofInt W (2 ^ (W - 1)) := by
      rw [minWord, show ((2 : Int) ^ (W - 1)) = ((2 ^ (W - 1) : Nat) : Int) by push_cast; rfl, BitVec.ofInt_natCast]
      exact BitVec.eq_of_toNat_eq (by rw [BitVec.toNat_intMin, BitVec.toNat_ofNat])
    rw [hmin]
    rfl
  next => rfl

/-- The numbers that the words of `W` bits stand for under a tag. -/
def InRange (g : DivSign) (W : Nat) (x : Int) : Prop :=
  match g with
  | .unsigned => 0 ≤ x ∧ x < 2 ^ W
  | .signed => -2 ^ (W - 1) ≤ x ∧ x < 2 ^ (W - 1)

theorem inRange_divOperand (g : DivSign) (v : Word W) : InRange g W (divOperand g v) := by
  cases g
  · have hv : (v.toNat : Int) < 2 ^ W := by exact_mod_cast v.isLt
    exact ⟨Int.natCast_nonneg _, hv⟩
  · exact ⟨BitVec.le_toInt v, BitVec.toInt_lt⟩

/-- A number in the range of the tag survives being cut to a word. -/
theorem divOperand_ofInt (hW : 1 ≤ W) {g : DivSign} {x : Int} (h : InRange g W x) :
    divOperand g (BitVec.ofInt W x) = x := by
  cases g with
  | unsigned =>
    obtain ⟨hl, hu⟩ := h
    rw [divOperand, BitVec.toNat_ofInt]
    push_cast
    rw [Int.emod_eq_of_lt hl hu]
    omega
  | signed =>
    obtain ⟨hl, hu⟩ := h
    exact BitVec.toInt_ofInt_eq_self hW hl hu

/-- The remainder is in the range: it is smaller than the divisor and has the dividend's sign. -/
theorem inRange_tmod (g : DivSign) (n d : Word W) (hd : d ≠ 0#W) :
    InRange g W ((divOperand g n).tmod (divOperand g d)) := by
  have hn := inRange_divOperand g n
  have hd' := inRange_divOperand g d
  have hne : divOperand g d ≠ 0 := mt (divOperand_eq_zero_iff g d).mp hd
  have hlt : ((divOperand g n).tmod (divOperand g d)).natAbs < (divOperand g d).natAbs := by
    rw [Int.natAbs_tmod]
    exact Nat.mod_lt _ (Int.natAbs_pos.mpr hne)
  cases g with
  | unsigned =>
    obtain ⟨hn0, -⟩ := hn
    have := Int.tmod_nonneg (divOperand .unsigned d) hn0
    obtain ⟨hd0, hdW⟩ := hd'
    exact ⟨this, by omega⟩
  | signed =>
    obtain ⟨hdl, hdu⟩ := hd'
    exact ⟨by omega, by omega⟩

/-- The quotient is in the range, but for the one overflow. -/
theorem inRange_tdiv (hW : 2 ≤ W) (g : DivSign) (n d : Word W) (hd : d ≠ 0#W)
    (hno : ¬(g = .signed ∧ n = minWord W ∧ d = onesWord W)) : InRange g W ((divOperand g n).tdiv (divOperand g d)) := by
  have hn := inRange_divOperand g n
  have hne : divOperand g d ≠ 0 := mt (divOperand_eq_zero_iff g d).mp hd
  have hle := Int.natAbs_tdiv_le_natAbs (divOperand g n) (divOperand g d)
  cases g with
  | unsigned =>
    obtain ⟨hn0, hnW⟩ := hn
    have hd0 : 0 ≤ divOperand .unsigned d := Int.natCast_nonneg _
    have := Int.tdiv_nonneg hn0 hd0
    exact ⟨this, by omega⟩
  | signed =>
    obtain ⟨hnl, hnu⟩ := hn
    refine ⟨by omega, ?_⟩
    by_contra hbig
    have hbig : (2 : Int) ^ (W - 1) ≤ (divOperand .signed n).tdiv (divOperand .signed d) := not_lt.mp hbig
    have hpow : (1 : Int) ≤ 2 ^ (W - 1) := one_le_pow₀ (by norm_num)
    have hmin : divOperand .signed n = -2 ^ (W - 1) := by
      rcases le_or_gt (2 ^ (W - 1)) (-divOperand .signed n) with h | h
      · omega
      · omega
    have hone : (divOperand .signed d).natAbs = 1 := by
      have habs := Int.natAbs_tdiv (divOperand .signed n) (divOperand .signed d)
      by_contra hne1
      have := Nat.div_lt_self (n := (divOperand .signed n).natAbs) (k := (divOperand .signed d).natAbs)
        (by omega) (by omega)
      have habs : ((divOperand .signed n).tdiv (divOperand .signed d)).natAbs =
        (divOperand .signed n).natAbs / (divOperand .signed d).natAbs := habs
      omega
    rcases Int.natAbs_eq_iff.mp hone with h1 | h1
    · rw [h1, hmin] at hbig
      simp at hbig
      omega
    · refine hno ⟨rfl, BitVec.eq_of_toInt_eq ?_, BitVec.eq_of_toInt_eq ?_⟩
      · rw [toInt_minWord (by omega)]; exact hmin
      · rw [toInt_onesWord (by omega)]; exact h1

/-- The remainder has the dividend's sign. -/
theorem tmod_mul_nonneg (a b : Int) : 0 ≤ a.tmod b * a := by
  rcases le_total 0 a with h | h
  · exact mul_nonneg (Int.tmod_nonneg b h) h
  · have := Int.tmod_nonneg b (neg_nonneg.mpr h)
    rw [Int.neg_tmod] at this
    exact mul_nonneg_of_nonpos_of_nonpos (by omega) h

/-- Settles O47: quotient and remainder are in the range of the tag, so the words of DIVRESULT stand for them exactly. -/
theorem divresultIsExactDivision : Obligations.DivresultIsExactDivision := by
  intro W g n d hW
  refine ⟨fun hd => if_pos hd, ?overflow, ?exact⟩
  case overflow =>
    rintro rfl rfl rfl
    have hones : onesWord W ≠ 0#W := by
      intro h
      have := congrArg BitVec.toInt h
      rw [toInt_onesWord (by omega)] at this
      simp at this
    rw [divResult, if_neg hones, if_pos ⟨rfl, rfl, rfl⟩]
  case exact =>
    intro hd hno
    have hne : divOperand g d ≠ 0 := mt (divOperand_eq_zero_iff g d).mp hd
    rw [divResult_of_ne_zero (by omega) g n hd, divOperand_ofInt (by omega) (inRange_tdiv hW g n d hd hno),
      divOperand_ofInt (by omega) (inRange_tmod g n d hd)]
    refine ⟨(Int.mul_comm _ _ ▸ (Int.mul_tdiv_add_tmod _ _).symm), ?_, tmod_mul_nonneg _ _⟩
    rw [Int.abs_eq_natAbs, Int.abs_eq_natAbs, Int.natAbs_tmod]
    exact_mod_cast Nat.mod_lt _ (Int.natAbs_pos.mpr hne)

/-! ### Both cores with the sign shell (R121, R128, R130) -/

/-- The truncated quotient and remainder from the magnitudes, for flags `s` and `t` that say which operands are negative. -/
theorem tdiv_tmod_of_magnitudes {a b : Int} {s t : Bool} (hs : s = true ↔ a < 0) (ht : t = true ↔ b < 0) :
    a.tdiv b = (if (s ^^ t) = true then -(|a| / |b|) else |a| / |b|) ∧
      a.tmod b = (if s = true then -(|a| % |b|) else |a| % |b|) := by
  have hdiv : |a| / |b| = |a|.tdiv |b| := (Int.tdiv_eq_ediv_of_nonneg (abs_nonneg a)).symm
  have hmod : |a| % |b| = |a|.tmod |b| := (Int.tmod_eq_emod_of_nonneg (abs_nonneg a)).symm
  have ha : |a| = if s = true then -a else a := by
    split
    next h => exact abs_of_neg (hs.mp h)
    next h => exact abs_of_nonneg (not_lt.mp (mt hs.mpr h))
  have hb : |b| = if t = true then -b else b := by
    split
    next h => exact abs_of_neg (ht.mp h)
    next h => exact abs_of_nonneg (not_lt.mp (mt ht.mpr h))
  rw [hdiv, hmod, ha, hb]
  cases s <;> cases t <;> simp [Int.neg_tdiv, Int.tdiv_neg, Int.neg_tmod, Int.tmod_neg]

theorem negWhen_eq_ofInt (b : Bool) (v : Word W) :
    negWhen b v = BitVec.ofInt W (if b = true then -(v.toNat : Int) else v.toNat) := by
  have hv : BitVec.ofInt W (v.toNat : Int) = v := by rw [BitVec.ofInt_natCast, BitVec.ofNat_toNat, BitVec.setWidth_eq]
  cases b
  · exact hv.symm
  · rw [if_pos rfl, BitVec.ofInt_neg, hv]
    rfl

/-- The last `W` bits of the high half. -/
theorem extract_high_toNat (x : Backing W) : (x.extractLsb' W W).toNat = (Backing.high x).toNat % 2 ^ W := by
  rw [BitVec.extractLsb'_toNat, Nat.shiftRight_eq_div_pow, high_toNat]

/-- The core result for the magnitudes, with the signs restored, is DIVRESULT. -/
theorem divResult_of_coreResult (hW : 1 ≤ W) (g : DivSign) (n d : Word W) {x : Backing W}
    (h : CoreResult (negWhen (quadrant g n d) n) (negWhen (quadrant g d d) d) x) :
    (negWhen (quadrant g n d ^^ quadrant g d d) (Backing.low x), negWhen (quadrant g n d) (x.extractLsb' W W)) =
      divResult g n d := by
  by_cases hd : d = 0#W
  case pos =>
    subst hd
    simp only [quadrant_zero, Bool.xor_false] at h ⊢
    unfold CoreResult at h
    rw [if_pos (show negWhen false 0#W = 0#W from rfl)] at h
    obtain ⟨hlow, hhigh⟩ := h
    have hrem : x.extractLsb' W W = n := by
      apply BitVec.eq_of_toNat_eq
      have hn := n.isLt
      rw [extract_high_toNat, hhigh, negWhen, if_neg Bool.false_ne_true, BitVec.toNat_setWidth_of_le (by omega),
        Nat.mod_eq_of_lt hn]
    rw [divResult, if_pos rfl, hlow, hrem]
    rfl
  case neg =>
    have hn := negWhen_quadrant_toNat g n hd
    have hdabs := negWhen_quadrant_toNat g d hd
    have hdne : negWhen (quadrant g d d) d ≠ 0#W := by
      intro h0
      rw [h0] at hdabs
      exact hd ((divOperand_eq_zero_iff g d).mp (abs_eq_zero.mp (by simpa using hdabs.symm)))
    unfold CoreResult at h
    rw [if_neg hdne] at h
    obtain ⟨hlow, hhigh⟩ := h
    have hfit : (Backing.high x).toNat < 2 ^ W :=
      hhigh ▸ (Nat.mod_lt _ (divisor_pos hdne)).trans (BitVec.isLt _)
    obtain ⟨hquo, hrem⟩ := tdiv_tmod_of_magnitudes (quadrant_iff_neg g n hd) (quadrant_iff_neg g d hd)
    rw [divResult_of_ne_zero hW g n hd, negWhen_eq_ofInt, negWhen_eq_ofInt, extract_high_toNat, Nat.mod_eq_of_lt hfit,
      hlow, hhigh, Int.natCast_div, Int.natCast_mod, hn, hdabs, hquo, hrem]

end Sys2Proof.Machine

/-! PROOFS. The control of the single-transaction units. Under its control invariant each of them (41_multicycle_div.md R131,
42_long_divider.md R167, 44_multicycle_mul.md R217, 45_bcd.md R242) is the same small machine, which counts the edges of work
left and remembers whether a result is held. -/

namespace Sys2Proof.Machine

/-! ### The load of a unit -/

/-- What a single-transaction unit is loaded with: the edges of work `left` on the transaction taken, and whether a result
is `shown`. -/
structure Workload where
  left : Nat
  shown : Bool

/-- A unit at work shows no result. -/
def Workload.Sound (x : Workload) : Prop := x.left ≠ 0 → x.shown = false

/-- The input of the unit is open (40_handshake.md R105). -/
def Workload.isOpen (x : Workload) (ready : Bool) : Bool := singleReady (decide (x.left = 0)) x.shown ready

/-- The transactions the unit holds. -/
def Workload.held (x : Workload) : Nat := (decide (x.left ≠ 0)).toNat + x.shown.toNat

/-- The load after a clock edge, for a unit that presents its result `latency` edges from the accepting one on. -/
def Workload.next (latency : Nat) (x : Workload) (valid ready : Bool) : Workload :=
  if x.left ≠ 0 then ⟨x.left - 1, decide (x.left = 1)⟩
  else if valid && x.isOpen ready then ⟨latency - 1, decide (latency = 1)⟩
  else ⟨0, x.shown && !ready⟩

theorem Workload.isOpen_iff (x : Workload) (ready : Bool) :
    x.isOpen ready = true ↔ x.left = 0 ∧ (x.shown = false ∨ ready = true) := by
  rw [Workload.isOpen, singleReady_iff, decide_eq_true_iff]

/-- The readiness of a unit, from any flag that says that no work is left. -/
theorem Workload.isOpen_eq {x : Workload} {idle : Bool} (h : x.left = 0 ↔ idle = true) (ready : Bool) :
    x.isOpen ready = singleReady idle x.shown ready := by
  have hidle : decide (x.left = 0) = idle := by cases idle <;> simpa using h
  rw [Workload.isOpen, hidle]

/-- What a unit holds, from any flag that says that work is left. -/
theorem Workload.held_eq {x : Workload} {busy : Bool} (h : x.left = 0 ↔ busy = false) :
    x.held = busy.toNat + x.shown.toNat := by
  have hbusy : decide (x.left ≠ 0) = busy := by cases busy <;> simpa using h
  rw [Workload.held, hbusy]

theorem Workload.next_of_working {x : Workload} (h : x.left ≠ 0) (latency : Nat) (valid ready : Bool) :
    x.next latency valid ready = ⟨x.left - 1, decide (x.left = 1)⟩ := if_pos h

theorem Workload.next_of_accepting {x : Workload} {valid ready : Bool} (h : (valid && x.isOpen ready) = true) (latency : Nat) :
    x.next latency valid ready = ⟨latency - 1, decide (latency = 1)⟩ := by
  obtain ⟨-, hopen⟩ := (Bool.and_eq_true _ _).mp h
  rw [Workload.next, if_neg (not_not.mpr ((x.isOpen_iff ready).mp hopen).1), if_pos h]

theorem Workload.next_of_resting {x : Workload} {valid ready : Bool} (hleft : x.left = 0) (h : (valid && x.isOpen ready) = false)
    (latency : Nat) : x.next latency valid ready = ⟨0, x.shown && !ready⟩ := by
  rw [Workload.next, if_neg (not_not.mpr hleft), h, if_neg Bool.false_ne_true]

/-- What an edge can do to a unit: go on working, take a transaction in, or rest. -/
theorem Workload.edge_cases (x : Workload) (valid ready : Bool) :
    x.left ≠ 0 ∨ (valid && x.isOpen ready) = true ∨ (x.left = 0 ∧ (valid && x.isOpen ready) = false) := by
  by_cases hleft : x.left = 0
  · cases h : valid && x.isOpen ready
    · exact .inr (.inr ⟨hleft, rfl⟩)
    · exact .inr (.inl rfl)
  · exact .inl hleft

/-- Every transaction taken in is held until its result leaves (20_memory.md R47). -/
theorem Workload.held_next {x : Workload} (hx : x.Sound) {latency : Nat} (hlat : 1 ≤ latency) (valid ready : Bool) :
    (x.next latency valid ready).held + (x.shown && ready).toNat = x.held + (valid && x.isOpen ready).toNat := by
  rcases x.edge_cases valid ready with hwork | htake | ⟨hleft, hrest⟩
  · rw [Workload.next_of_working hwork]
    have hshut : x.isOpen ready = false := by simp [Workload.isOpen, singleReady, hwork]
    have hone : (decide (x.left - 1 ≠ 0)).toNat + (decide (x.left = 1)).toNat = 1 := by
      by_cases h : x.left = 1
      · simp [h]
      · simp [h, show x.left - 1 ≠ 0 by omega]
    simp only [Workload.held, hx hwork, hshut, hone, Bool.false_and, Bool.and_false, decide_eq_true hwork]
    rfl
  · rw [Workload.next_of_accepting htake, htake]
    obtain ⟨-, hopen⟩ := (Bool.and_eq_true _ _).mp htake
    obtain ⟨hleft, hfree⟩ := (x.isOpen_iff ready).mp hopen
    have hout : (x.shown && ready) = x.shown := by rcases hfree with h | h <;> simp [h]
    have hone : (decide (latency - 1 ≠ 0)).toNat + (decide (latency = 1)).toNat = 1 := by
      by_cases h : latency = 1
      · simp [h]
      · simp [h, show latency - 1 ≠ 0 by omega]
    simp only [Workload.held, hleft, hout, hone]
    simp [Nat.add_comm]
  · rw [Workload.next_of_resting hleft hrest, hrest]
    simp only [Workload.held, hleft]
    cases x.shown <;> cases ready <;> rfl

/-! ### MulticycleDiv (41_multicycle_div.md R131, R134, R135) -/

/-- The edges from the last iteration to the result: DIVIDE_OUT, and RESTORE before it in the non-restoring divider. -/
def closingEdges : Impl → Nat
  | .restoring => 1
  | .nonRestoring => 2

theorem closingEdges_pos (impl : Impl) : 1 ≤ closingEdges impl := by cases impl <;> decide

/-- The workload of a divider, from its FSM state and its counter. -/
def MDivRegs.workload (impl : Impl) (r : MDivRegs W) : Workload where
  left := match r.fsm with
    | .idle => 0
    | .divideIn => W + closingEdges impl + 1
    | .divideLoop => W - r.cnt.toNat + closingEdges impl
    | .restore => 2
    | .divideOut => 1
  shown := r.outValid

/-- A divider is at work in every FSM state but IDLE. -/
theorem MDivRegs.workload_left_eq_zero_iff (impl : Impl) (r : MDivRegs W) : (r.workload impl).left = 0 ↔ r.fsm = .idle := by
  have := closingEdges_pos impl
  unfold MDivRegs.workload
  cases r.fsm <;> simp; omega

theorem MDivRegs.workload_sound {impl : Impl} {r : MDivRegs W} (h : r.Control impl) : (r.workload impl).Sound :=
  fun hleft => h.1 (mt (r.workload_left_eq_zero_iff impl).mpr hleft)

theorem MDivRegs.workload_isOpen (impl : Impl) (r : MDivRegs W) (ready : Bool) :
    (r.workload impl).isOpen ready = r.inpReady ready :=
  Workload.isOpen_eq (by rw [decide_eq_true_iff, r.workload_left_eq_zero_iff]) ready

theorem MDivRegs.workload_held (impl : Impl) (r : MDivRegs W) : (r.workload impl).held = r.held :=
  Workload.held_eq (by rw [decide_eq_false_iff_not, not_not, r.workload_left_eq_zero_iff])

/-- Every edge of a divider keeps its control invariant and is an edge of its workload, of latency `W+4` (non-restoring, R134)
or `W+3` (restoring, R135). -/
theorem MDivRegs.edge_workload (impl : Impl) (r : MDivRegs W) (l : Line (W + W + 1)) (hW : 1 ≤ W) (h : r.Control impl) :
    (r.edge impl l).Control impl ∧
      (r.edge impl l).workload impl = (r.workload impl).next (W + closingEdges impl + 2) l.valid l.ready := by
  obtain ⟨hfree, hcnt, hloop, hrestore, hout⟩ := h
  have hclosing := closingEdges_pos impl
  cases hfsm : r.fsm with
  | idle =>
    have hleft := (r.workload_left_eq_zero_iff impl).mpr hfsm
    by_cases htake : (l.valid && r.inpReady l.ready) = true
    · obtain ⟨hvalid, hready⟩ := (Bool.and_eq_true _ _).mp htake
      rw [r.edge_accept impl l hvalid hready, Workload.next_of_accepting (by rwa [r.workload_isOpen])]
      refine ⟨⟨fun _ => rfl, hcnt, nofun, nofun, nofun⟩, ?_⟩
      simp [MDivRegs.workload]
    · have htake := Bool.eq_false_iff.mpr htake
      rw [r.edge_idle impl l hfsm htake, Workload.next_of_resting hleft (by rwa [r.workload_isOpen])]
      refine ⟨⟨fun hf => absurd hfsm hf, hcnt, fun hf => ?_, fun hf => ?_, fun hf => ?_⟩, ?_⟩
      · exact hloop hf
      · exact hrestore hf
      · exact hout hf
      · simp [MDivRegs.workload, hfsm]
  | divideIn =>
    have hheld := hfree (by rw [hfsm]; nofun)
    rw [r.edge_divideIn impl l hfsm, Workload.next_of_working (by simp [MDivRegs.workload, hfsm])]
    refine ⟨⟨fun _ => by simp [hheld], by simp, fun _ => by simpa using Nat.lt_of_lt_of_le Nat.one_pos hW, nofun, nofun⟩, ?_⟩
    simp [MDivRegs.workload, hfsm, hheld]
    omega
  | divideLoop =>
    have hheld := hfree (by rw [hfsm]; nofun)
    have hlt := hloop hfsm
    have hsucc := counter_succ_toNat r.cnt hlt
    rw [r.edge_divideLoop impl l hfsm, Workload.next_of_working (by simp [MDivRegs.workload, hfsm]; omega)]
    have hheld' : ({ r.iterate impl with outValid := r.outValid && !l.ready } : MDivRegs W).outValid = false := by simp [hheld]
    have hcnt' : ({ r.iterate impl with outValid := r.outValid && !l.ready } : MDivRegs W).cnt.toNat = r.cnt.toNat + 1 := hsucc
    have hfsm' : ({ r.iterate impl with outValid := r.outValid && !l.ready } : MDivRegs W).fsm =
      if r.cnt.toNat = W - 1 then afterLoop impl else .divideLoop := hfsm ▸ rfl
    generalize ({ r.iterate impl with outValid := r.outValid && !l.ready } : MDivRegs W) = r' at hheld' hcnt' hfsm' ⊢
    by_cases hlast : r.cnt.toNat = W - 1
    · have hcnt' : r'.cnt.toNat = W := by omega
      rw [if_pos hlast] at hfsm'
      cases impl <;> simp [MDivRegs.Control, MDivRegs.workload, hfsm, hfsm', hcnt', hheld', afterLoop, closingEdges] <;> omega
    · rw [if_neg hlast] at hfsm'
      simp [MDivRegs.Control, MDivRegs.workload, hfsm, hfsm', hcnt', hheld']
      omega
  | restore =>
    have hheld := hfree (by rw [hfsm]; nofun)
    rw [r.edge_restore impl l hfsm, Workload.next_of_working (by simp [MDivRegs.workload, hfsm])]
    refine ⟨⟨fun _ => by simp [hheld], hcnt, nofun, nofun, fun _ => (hrestore hfsm).2⟩, ?_⟩
    simp [MDivRegs.workload, hfsm, hheld]
  | divideOut =>
    rw [r.edge_divideOut impl l hfsm, Workload.next_of_working (by simp [MDivRegs.workload, hfsm])]
    refine ⟨⟨fun hf => absurd rfl hf, hcnt, nofun, nofun, nofun⟩, ?_⟩
    simp [MDivRegs.workload, hfsm]

/-! ### LongDivider (42_long_divider.md R167, R171) -/

/-- The workload of the long divider: the weights still to come, the one of the index last. -/
def LDivRegs.workload (r : LDivRegs W) : Workload := ⟨if r.busy then r.i.toNat + 1 else 0, r.outValid⟩

theorem LDivRegs.workload_left_eq_zero_iff (r : LDivRegs W) : r.workload.left = 0 ↔ r.busy = false := by
  unfold LDivRegs.workload
  cases r.busy <;> simp

theorem LDivRegs.workload_sound {r : LDivRegs W} (h : r.Control) : r.workload.Sound := fun hleft =>
  (h ((Bool.not_eq_false _).mp (mt r.workload_left_eq_zero_iff.mpr hleft))).1

theorem LDivRegs.workload_isOpen (r : LDivRegs W) (ready : Bool) : r.workload.isOpen ready = r.inpReady ready :=
  Workload.isOpen_eq (by rw [Bool.not_eq_true', r.workload_left_eq_zero_iff]) ready

theorem LDivRegs.workload_held (r : LDivRegs W) : r.workload.held = r.held :=
  Workload.held_eq r.workload_left_eq_zero_iff

/-- Every edge of the long divider keeps its control invariant and is an edge of its workload, of latency `W`. -/
theorem LDivRegs.edge_workload (r : LDivRegs W) (l : Line (W + W + 1)) (hW : 2 ≤ W) (h : r.Control) :
    (r.edge l).Control ∧ (r.edge l).workload = r.workload.next W l.valid l.ready := by
  cases hbusy : r.busy with
  | true =>
    obtain ⟨hheld, hindex⟩ := h hbusy
    have hcontrol := r.edge_busy_control l hbusy
    rw [Workload.next_of_working (by simp [LDivRegs.workload, hbusy])]
    split at hcontrol
    next hlast =>
      obtain ⟨hbusy', hheld', -⟩ := hcontrol
      simp [LDivRegs.Control, LDivRegs.workload, hbusy, hbusy', hheld', hlast]
    next hmore =>
      obtain ⟨hbusy', hindex', hheld'⟩ := hcontrol
      simp [LDivRegs.Control, LDivRegs.workload, hbusy, hbusy', hheld', hheld, hindex', hmore]
      omega
  | false =>
    have hleft := r.workload_left_eq_zero_iff.mpr hbusy
    by_cases htake : (l.valid && r.inpReady l.ready) = true
    · obtain ⟨hvalid, hready⟩ := (Bool.and_eq_true _ _).mp htake
      have hindex : (BitVec.ofNat (clog2 W) (W - 2)).toNat = W - 2 := index_ofNat_toNat hW
      rw [r.edge_accept l hvalid hready, Workload.next_of_accepting (by rwa [r.workload_isOpen])]
      refine ⟨fun _ => ⟨rfl, hindex.le⟩, ?_⟩
      rw [LDivRegs.workload, LDivRegs.accept_busy, LDivRegs.accept_i, hindex, if_pos rfl, decide_eq_false (by omega)]
      congr 1
      omega
    · have htake := Bool.eq_false_iff.mpr htake
      rw [r.edge_idle l hbusy htake, Workload.next_of_resting hleft (by rwa [r.workload_isOpen])]
      simp [LDivRegs.Control, LDivRegs.workload, hbusy]

/-! ### MulticycleMul (44_multicycle_mul.md R217, R218) -/

/-- The workload of the multi-cycle multiplier: the steps that its counter has not counted. -/
def MCMulRegs.workload (r : MCMulRegs W) : Workload := ⟨if r.busy then W - r.cnt.toNat else 0, r.outValid⟩

theorem MCMulRegs.workload_left_eq_zero_iff {r : MCMulRegs W} (h : r.Control) : r.workload.left = 0 ↔ r.busy = false := by
  unfold MCMulRegs.workload
  cases hbusy : r.busy with
  | false => simp
  | true =>
    obtain ⟨-, -, hlt⟩ := h hbusy
    simp
    omega

theorem MCMulRegs.workload_sound {r : MCMulRegs W} (h : r.Control) : r.workload.Sound := fun hleft =>
  (h ((Bool.not_eq_false _).mp (mt (r.workload_left_eq_zero_iff h).mpr hleft))).1

theorem MCMulRegs.workload_isOpen {r : MCMulRegs W} (h : r.Control) (ready : Bool) :
    r.workload.isOpen ready = r.inpReady ready :=
  Workload.isOpen_eq (by rw [Bool.not_eq_true', (r.workload_left_eq_zero_iff h)]) ready

theorem MCMulRegs.workload_held {r : MCMulRegs W} (h : r.Control) : r.workload.held = r.held :=
  Workload.held_eq (r.workload_left_eq_zero_iff h)

/-- Every edge of the multi-cycle multiplier keeps its control invariant and is an edge of its workload, of latency `W`. -/
theorem MCMulRegs.edge_workload (r : MCMulRegs W) (l : Line (W + W + 2)) (hW : 2 ≤ W) (h : r.Control) :
    (r.edge l).Control ∧ (r.edge l).workload = r.workload.next W l.valid l.ready := by
  cases hbusy : r.busy with
  | true =>
    obtain ⟨hheld, hpos, hlt⟩ := h hbusy
    have hcnt' : (r.edge l).cnt.toNat = r.cnt.toNat + 1 := by
      rw [r.edge_busy l hbusy]
      exact counter_succ_toNat r.cnt hlt
    have hcontrol := r.edge_busy_control l hbusy
    rw [Workload.next_of_working (by simp [MCMulRegs.workload, hbusy]; omega)]
    split at hcontrol
    next hlast =>
      obtain ⟨hbusy', hheld'⟩ := hcontrol
      simp [MCMulRegs.Control, MCMulRegs.workload, hbusy, hbusy', hheld']
      omega
    next hmore =>
      obtain ⟨hbusy', hheld'⟩ := hcontrol
      simp [MCMulRegs.Control, MCMulRegs.workload, hbusy, hbusy', hheld', hheld, hcnt']
      omega
  | false =>
    have hleft := (r.workload_left_eq_zero_iff h).mpr hbusy
    by_cases htake : (l.valid && r.inpReady l.ready) = true
    · obtain ⟨hvalid, hready⟩ := (Bool.and_eq_true _ _).mp htake
      have hone : (1#(clog2 (W + 1))).toNat = 1 := counter_ofNat_toNat (by omega)
      rw [r.edge_accept l hvalid hready, Workload.next_of_accepting (by rwa [r.workload_isOpen h])]
      refine ⟨fun _ => ⟨rfl, hone.ge, hone.trans_lt hW⟩, ?_⟩
      rw [MCMulRegs.workload, MCMulRegs.accept_busy, MCMulRegs.accept_cnt, hone, if_pos rfl, decide_eq_false (by omega)]
    · have htake := Bool.eq_false_iff.mpr htake
      rw [r.edge_idle l hbusy htake, Workload.next_of_resting hleft (by rwa [r.workload_isOpen h])]
      simp [MCMulRegs.Control, MCMulRegs.workload, hbusy]

/-! ### The sequential converter (45_bcd.md R242) -/

/-- The workload of the sequential converter: the edges that its counter has not counted. -/
def BcdSeqRegs.workload (r : BcdSeqRegs W L) : Workload := ⟨if r.busy then L - r.cnt.toNat else 0, r.outValid⟩

/-- The control invariant of the sequential converter. -/
abbrev BcdSeqRegs.Control (r : BcdSeqRegs W L) : Prop := (BcdRegs.sequential r).Control

theorem BcdSeqRegs.workload_left_eq_zero_iff {r : BcdSeqRegs W L} (h : r.Control) :
    r.workload.left = 0 ↔ r.busy = false := by
  unfold BcdSeqRegs.workload
  cases hbusy : r.busy with
  | false => simp
  | true =>
    obtain ⟨-, -, hlt⟩ := h hbusy
    simp
    omega

theorem BcdSeqRegs.workload_sound {r : BcdSeqRegs W L} (h : r.Control) : r.workload.Sound := fun hleft =>
  (h ((Bool.not_eq_false _).mp (mt (r.workload_left_eq_zero_iff h).mpr hleft))).1

theorem BcdSeqRegs.workload_isOpen {r : BcdSeqRegs W L} (h : r.Control) (ready : Bool) :
    r.workload.isOpen ready = singleReady (!r.busy) r.outValid ready :=
  Workload.isOpen_eq (by rw [Bool.not_eq_true', (r.workload_left_eq_zero_iff h)]) ready

theorem BcdSeqRegs.workload_held {r : BcdSeqRegs W L} (h : r.Control) :
    r.workload.held = r.busy.toNat + r.outValid.toNat :=
  Workload.held_eq (r.workload_left_eq_zero_iff h)

/-- Every edge of the sequential converter keeps its control invariant and is an edge of its workload, of latency
`BCD_LATENCY`. -/
theorem BcdSeqRegs.edge_workload (r : BcdSeqRegs W L) (l : Line (W + 1)) (hL : 1 ≤ L) (h : r.Control) :
    (r.edge l).Control ∧ (r.edge l).workload = r.workload.next L l.valid l.ready := by
  cases hbusy : r.busy with
  | true =>
    obtain ⟨hheld, hpos, hlt⟩ := h hbusy
    have hcnt' : (r.edge l).cnt.toNat = r.cnt.toNat + 1 := by
      rw [r.edge_busy l hbusy]
      exact counter_succ_toNat r.cnt hlt
    have hcontrol := r.edge_busy_control l hbusy
    rw [Workload.next_of_working (by simp [BcdSeqRegs.workload, hbusy]; omega)]
    split at hcontrol
    next hlast =>
      obtain ⟨hbusy', hheld'⟩ := hcontrol
      simp [BcdSeqRegs.Control, BcdRegs.Control, BcdSeqRegs.workload, hbusy, hbusy', hheld']
      omega
    next hmore =>
      obtain ⟨hbusy', hheld'⟩ := hcontrol
      simp [BcdSeqRegs.Control, BcdRegs.Control, BcdSeqRegs.workload, hbusy, hbusy', hheld', hheld, hcnt']
      omega
  | false =>
    have hleft := (r.workload_left_eq_zero_iff h).mpr hbusy
    by_cases htake : (l.valid && singleReady (!r.busy) r.outValid l.ready) = true
    · obtain ⟨hvalid, hready⟩ := (Bool.and_eq_true _ _).mp htake
      have hone : (1#(clog2 (L + 1))).toNat = 1 := counter_ofNat_toNat hL
      rw [r.edge_accept l hvalid hready, Workload.next_of_accepting (by rwa [r.workload_isOpen h])]
      by_cases hL1 : L = 1
      · simp [BcdSeqRegs.Control, BcdRegs.Control, BcdSeqRegs.workload, hbusy, hL1]
      · simp [BcdSeqRegs.Control, BcdRegs.Control, BcdSeqRegs.workload, hL1, -BitVec.toNat_ofNat, hone]
        omega
    · have htake := Bool.eq_false_iff.mpr htake
      rw [r.edge_idle l hbusy htake, Workload.next_of_resting hleft (by rwa [r.workload_isOpen h])]
      simp [BcdSeqRegs.Control, BcdRegs.Control, BcdSeqRegs.workload, hbusy]

end Sys2Proof.Machine

/-! PROOFS. What both pipelines do at an edge (43_pipelined_mul.md R191, R192, 45_bcd.md R241): they are queues of the
transactions in their stages. -/

namespace Sys2Proof.Machine

/-! ### The transactions in a list of stages -/

/-- What the transactions in a list of stages will be presented as, the next to leave first (20_memory.md R47). -/
def pendingIn (valid : α → Bool) (out : α → β) (l : List α) : List β := (l.reverse.filter valid).map out

theorem pendingIn_cons (valid : α → Bool) (out : α → β) (x : α) (l : List α) :
    pendingIn valid out (x :: l) = pendingIn valid out l ++ pendingIn valid out [x] := by
  simp [pendingIn]

theorem pendingIn_singleton (valid : α → Bool) (out : α → β) (x : α) :
    pendingIn valid out [x] = if valid x then [out x] else [] := by
  cases h : valid x <;> simp [pendingIn, h]

theorem length_pendingIn (valid : α → Bool) (out : α → β) (l : List α) :
    (pendingIn valid out l).length = l.countP valid := by
  rw [pendingIn, List.length_map, ← List.countP_eq_length_filter, List.countP_reverse]

section

variable {valid : α → Bool} {out : α → β} {f : Nat → α → α}

/-- Moving on one place, the last stage's transaction leaves at the front and the new one enters at the far end; what a stage
does to its transaction changes neither its being there nor its result. -/
theorem pendingIn_shiftFrom (hvalid : ∀ i p, valid (f i p) = valid p) (hout : ∀ i p, out (f i p) = out p)
    (i : Nat) (new : α) {l : List α} (hl : l ≠ []) :
    pendingIn valid out [l.getLast hl] ++ pendingIn valid out (shiftFrom f i new l) =
      pendingIn valid out l ++ pendingIn valid out [new] := by
  induction l generalizing i new with
  | nil => exact absurd rfl hl
  | cons x rest ih =>
    cases rest with
    | nil => rfl
    | cons y rest =>
      have hrest := ih (i + 1) (f (i + 1) x) (List.cons_ne_nil y rest)
      have hx : pendingIn valid out [f (i + 1) x] = pendingIn valid out [x] := by
        rw [pendingIn_singleton, pendingIn_singleton, hvalid, hout]
      rw [shiftFrom, pendingIn_cons valid out new, ← List.append_assoc, List.getLast_cons (List.cons_ne_nil y rest), hrest,
        pendingIn_cons valid out x, hx]

/-! ### A pipeline's edge -/

/-- The edge of a pipeline whose last stage drives the output: every stage moves on, or none does. -/
def Stages.clocked (st : Stages α n) (valid : α → Bool) (d : α) (f : Nat → α → α) (new : α) (ready : Bool) : Stages α n :=
  if pipeReady (valid (st.top d)) ready then st.shift f new else st

/-- A pipeline is a queue: what leaves at the edge and what is in flight after it are what was in flight before it and what
is taken in. -/
theorem Stages.pending_clocked (hvalid : ∀ i p, valid (f i p) = valid p) (hout : ∀ i p, out (f i p) = out p)
    (st : Stages α n) (hn : 1 ≤ n) (d new : α) (ready : Bool) :
    (if valid (st.top d) && ready then [out (st.top d)] else []) ++
        pendingIn valid out (st.clocked valid d f new ready).items =
      pendingIn valid out st.items ++
        (if valid new && pipeReady (valid (st.top d)) ready then [out new] else []) := by
  have hne : st.items ≠ [] := by
    intro h
    have := st.length_eq
    rw [h] at this
    simp at this
    omega
  have htop : st.top d = st.items.getLast hne := by
    rw [Stages.top, List.getLastD_eq_getLast?, List.getLast?_eq_some_getLast hne, Option.getD_some]
  unfold Stages.clocked
  cases hready : pipeReady (valid (st.top d)) ready with
  | true =>
    have hleaves : (if valid (st.top d) && ready then [out (st.top d)] else []) = pendingIn valid out [st.top d] := by
      rw [pendingIn_singleton]
      rcases (pipeReady_iff _ _).mp hready with h | h <;> simp [h]
    rw [if_pos rfl, hleaves, Bool.and_true, ← pendingIn_singleton, htop]
    exact pendingIn_shiftFrom hvalid hout 0 new hne
  | false =>
    have hstays : (valid (st.top d) && ready) = false := by
      cases ready
      · exact Bool.and_false _
      · simp [pipeReady] at hready
    simp [hstays]

/-- Every transaction taken in is in a stage until it leaves. -/
theorem Stages.countP_clocked (hvalid : ∀ i p, valid (f i p) = valid p) (st : Stages α n) (hn : 1 ≤ n) (d new : α)
    (ready : Bool) :
    (st.clocked valid d f new ready).items.countP valid + (valid (st.top d) && ready).toNat =
      st.items.countP valid + (valid new && pipeReady (valid (st.top d)) ready).toNat := by
  have h := congrArg List.length (st.pending_clocked (out := fun _ => ()) hvalid (fun _ _ => rfl) hn d new ready)
  rw [List.length_append, List.length_append, length_pendingIn, length_pendingIn] at h
  have hlen : ∀ c : Bool, (if c then [()] else []).length = c.toNat := by decide
  rw [hlen, hlen] at h
  omega

/-- A pipeline whose result waits is left as it is (43_pipelined_mul.md R192). -/
theorem Stages.clocked_of_waiting (st : Stages α n) {d : α} (new : α) {ready : Bool} (hv : valid (st.top d) = true)
    (hr : ready = false) : st.clocked valid d f new ready = st := by
  rw [Stages.clocked, hv, hr]
  rfl

/-- An advancing edge carries what stage `j` holds to stage `j+1`. -/
theorem Stages.clocked_getElem?_succ (st : Stages α n) {d : α} (new : α) {ready : Bool}
    (hr : pipeReady (valid (st.top d)) ready = true) {j : Nat} (hj : j + 1 < n) :
    (st.clocked valid d f new ready).items[j + 1]? = (st.items[j]?).map (f (j + 1)) := by
  rw [Stages.clocked, if_pos hr, Stages.shift_getElem?, if_pos hj, if_neg (Nat.succ_ne_zero j), Nat.add_sub_cancel]

end

/-! ### The two pipelines -/

theorem mulEdge_eq_clocked (st : Stages (MulStage W) W) (l : Line (W + W + 2)) :
    mulEdge st l = st.clocked MulStage.valid (MulStage.reset W) MulStage.advance
      (MulStage.capture l.valid (mulSignField l.payload) (mulAField l.payload) (mulBField l.payload)) l.ready := rfl

theorem BcdRegs.edge_pipelined (st : Stages (BcdStage W) L) (l : Line (W + 1)) :
    (BcdRegs.pipelined st).edge l =
      .pipelined (st.clocked BcdStage.valid (BcdStage.reset W) (fun _ p => p) (BcdStage.capture l) l.ready) := rfl

theorem pipelinePending_eq (st : Stages (MulStage W) W) :
    pipelinePending st = pendingIn MulStage.valid MulStage.outcome st.items := rfl

theorem BcdRegs.pending_pipelined (st : Stages (BcdStage W) L) (D : Nat) :
    (BcdRegs.pipelined st).pending D =
      pendingIn BcdStage.valid (fun p => packBcdOut p.sign.bit (bcdOutput D p.n)) st.items := rfl

/-- No stage of an array built of stages without a transaction holds one. -/
theorem Stages.countP_generate (n : Nat) {g : Nat → α} {valid : α → Bool} (h : ∀ i, valid (g i) = false) :
    (Stages.generate n g).items.countP valid = 0 := by
  rw [List.countP_eq_zero]
  intro x hx
  obtain ⟨i, -, rfl⟩ := List.mem_map.mp hx
  rw [h]
  exact Bool.false_ne_true

/-- The last stage of an array without a transaction shows none. -/
theorem Stages.valid_top_of_countP {st : Stages α n} {valid : α → Bool} {d : α} (hd : valid d = false)
    (h : st.items.countP valid = 0) : valid (st.top d) = false := by
  rw [Stages.top, List.getLastD_eq_getLast?]
  cases hlast : st.items.getLast? with
  | none => exact hd
  | some x => exact Bool.eq_false_iff.mpr (List.countP_eq_zero.mp h x (List.mem_of_getLast? hlast))

end Sys2Proof.Machine

/-! PROOFS. The control invariant along a run (O29), what every component holds (O28), and what `reset()` discards
(70_reset_and_hazards.md R280 to R282, R286). -/

namespace Sys2Proof.Machine

open Sys2Proof.Claims

/-! ### The registers of a cycle that begins without or with `reset()` -/

theorem MDiv.now_of_noReset {u : MDiv impl} {cycle : Nat} (h : (u.line cycle).reset = false) : u.now cycle = u.regs := by
  rw [MDiv.now, h, if_neg Bool.false_ne_true]

theorem LDiv.now_of_noReset {u : LDiv} {cycle : Nat} (h : (u.line cycle).reset = false) : u.now cycle = u.regs := by
  rw [LDiv.now, h, if_neg Bool.false_ne_true]

theorem PMul.now_of_noReset {u : PMul} {cycle : Nat} (h : (u.line cycle).reset = false) : u.now cycle = u.stages := by
  rw [PMul.now, h, if_neg Bool.false_ne_true]

theorem MCMul.now_of_noReset {u : MCMul} {cycle : Nat} (h : (u.line cycle).reset = false) : u.now cycle = u.regs := by
  rw [MCMul.now, h, if_neg Bool.false_ne_true]

theorem Bcd.now_of_noReset {u : Bcd} {cycle : Nat} (h : (u.line cycle).reset = false) : u.now cycle = u.regs := by
  rw [Bcd.now, h, if_neg Bool.false_ne_true]

theorem MDiv.now_of_reset {u : MDiv impl} {cycle : Nat} (h : (u.line cycle).reset = true) :
    u.now cycle = MDivRegs.afterReset u.W (dividerOf impl) cycle := if_pos h

theorem LDiv.now_of_reset {u : LDiv} {cycle : Nat} (h : (u.line cycle).reset = true) :
    u.now cycle = LDivRegs.afterReset u.W cycle := if_pos h

theorem PMul.now_of_reset {u : PMul} {cycle : Nat} (h : (u.line cycle).reset = true) :
    u.now cycle = Stages.generate u.W (MulStage.afterReset u.W cycle) := if_pos h

theorem MCMul.now_of_reset {u : MCMul} {cycle : Nat} (h : (u.line cycle).reset = true) :
    u.now cycle = MCMulRegs.afterReset u.W cycle := if_pos h

theorem Bcd.now_of_reset {u : Bcd} {cycle : Nat} (h : (u.line cycle).reset = true) :
    u.now cycle = u.regs.afterReset cycle := if_pos h

/-! ### The control invariant after `reset()` and in every cycle -/

theorem MDivRegs.afterReset_control (impl : Impl) (W : Nat) (c : Component) (cycle : Nat) :
    (MDivRegs.afterReset W c cycle).Control impl :=
  ⟨fun h => absurd rfl h, by simp [MDivRegs.afterReset], nofun, nofun, nofun⟩

theorem LDivRegs.afterReset_control (W cycle : Nat) : (LDivRegs.afterReset W cycle).Control := nofun

theorem MCMulRegs.afterReset_control (W cycle : Nat) : (MCMulRegs.afterReset W cycle).Control := nofun

theorem BcdRegs.afterReset_control (r : BcdRegs W L) (cycle : Nat) : (r.afterReset cycle).Control := by
  cases r with
  | pipelined st => trivial
  | sequential r => exact nofun

theorem MDiv.now_control {u : MDiv impl} (h : u.regs.Control impl) (cycle : Nat) : (u.now cycle).Control impl := by
  cases hreset : (u.line cycle).reset with
  | false => rwa [MDiv.now_of_noReset hreset]
  | true => rw [MDiv.now_of_reset hreset]; exact MDivRegs.afterReset_control _ _ _ _

theorem LDiv.now_control {u : LDiv} (h : u.regs.Control) (cycle : Nat) : (u.now cycle).Control := by
  cases hreset : (u.line cycle).reset with
  | false => rwa [LDiv.now_of_noReset hreset]
  | true => rw [LDiv.now_of_reset hreset]; exact LDivRegs.afterReset_control _ _

theorem MCMul.now_control {u : MCMul} (h : u.regs.Control) (cycle : Nat) : (u.now cycle).Control := by
  cases hreset : (u.line cycle).reset with
  | false => rwa [MCMul.now_of_noReset hreset]
  | true => rw [MCMul.now_of_reset hreset]; exact MCMulRegs.afterReset_control _ _

theorem Bcd.now_control {u : Bcd} (h : u.regs.Control) (cycle : Nat) : (u.now cycle).Control := by
  cases hreset : (u.line cycle).reset with
  | false => rwa [Bcd.now_of_noReset hreset]
  | true => rw [Bcd.now_of_reset hreset]; exact BcdRegs.afterReset_control _ _

theorem BcdRegs.edge_control {r : BcdRegs W L} (hL : 1 ≤ L) (h : r.Control) (l : Line (W + 1)) : (r.edge l).Control := by
  cases r with
  | pipelined st => trivial
  | sequential r => exact (r.edge_workload l hL h).1

/-- Settles O29: each unit keeps its own invariant at its edge, from the registers of the cycle, which `reset()` leaves sound. -/
theorem stepKeepsControl : Obligations.StepKeepsControl := by
  rintro s t ⟨hnrdiv, hrdiv, hldiv, hmcmul, hbcd⟩ hstep
  obtain ⟨hfault, -, rfl⟩ := step_next_elim hstep
  obtain ⟨hWn, hWr, hWl, -, hWm, -, hL, -⟩ := widths_of_fault_none hfault
  exact ⟨(MDivRegs.edge_workload _ _ _ (by omega) (MDiv.now_control hnrdiv s.cycle)).1,
    (MDivRegs.edge_workload _ _ _ (by omega) (MDiv.now_control hrdiv s.cycle)).1,
    (LDivRegs.edge_workload _ _ hWl (LDiv.now_control hldiv s.cycle)).1,
    (MCMulRegs.edge_workload _ _ hWm (MCMul.now_control hmcmul s.cycle)).1,
    BcdRegs.edge_control hL (Bcd.now_control hbcd s.cycle) _⟩

/-! ### What a unit holds, and what was observed of it -/

/-- An edge observes one transfer more exactly if a result is shown and taken (40_handshake.md R100). -/
theorem length_log_of_portAfter {p p' : Port inBits outBits} {cycle : Nat} {valid ready : Bool} {payload : BitVec outBits}
    (h : PortAfter p p' cycle valid ready payload) : p'.log.length = p.log.length + (valid && ready).toNat := by
  rw [h.2, List.length_append]
  cases valid && ready <;> rfl

/-- The port of the converter after its edge (40_handshake.md R100). -/
theorem Bcd.edge_portAfter (u : Bcd) (cycle : Nat) :
    PortAfter u.port (u.edge cycle).port cycle (u.now cycle).outValid (u.line cycle).ready
      ((u.now cycle).outPayload u.digits) :=
  ⟨rfl, Port.clocked_log_shown _ _ _ _ _ _⟩

theorem MDivRegs.held_edge {impl : Impl} {r : MDivRegs W} (hW : 1 ≤ W) (h : r.Control impl) (l : Line (W + W + 1)) :
    (r.edge impl l).held + (r.outValid && l.ready).toNat = r.held + (l.valid && r.inpReady l.ready).toNat := by
  have hheld := Workload.held_next (MDivRegs.workload_sound h) (latency := W + closingEdges impl + 2) (by omega)
    l.valid l.ready
  rwa [← (r.edge_workload impl l hW h).2, MDivRegs.workload_held, MDivRegs.workload_held, MDivRegs.workload_isOpen] at hheld

theorem LDivRegs.held_edge {r : LDivRegs W} (hW : 2 ≤ W) (h : r.Control) (l : Line (W + W + 1)) :
    (r.edge l).held + (r.outValid && l.ready).toNat = r.held + (l.valid && r.inpReady l.ready).toNat := by
  have hheld := Workload.held_next (LDivRegs.workload_sound h) (latency := W) (by omega) l.valid l.ready
  rwa [← (r.edge_workload l hW h).2, LDivRegs.workload_held, LDivRegs.workload_held, LDivRegs.workload_isOpen] at hheld

theorem MCMulRegs.held_edge {r : MCMulRegs W} (hW : 2 ≤ W) (h : r.Control) (l : Line (W + W + 2)) :
    (r.edge l).held + (r.outValid && l.ready).toNat = r.held + (l.valid && r.inpReady l.ready).toNat := by
  have hedge := r.edge_workload l hW h
  have hheld := Workload.held_next (MCMulRegs.workload_sound h) (latency := W) (by omega) l.valid l.ready
  rwa [← hedge.2, MCMulRegs.workload_held h, MCMulRegs.workload_held hedge.1, MCMulRegs.workload_isOpen h] at hheld

theorem pipelineHeld_mulEdge (hW : 1 ≤ W) (st : Stages (MulStage W) W) (l : Line (W + W + 2)) :
    pipelineHeld (mulEdge st l) + ((mulTop st).valid && l.ready).toNat =
      pipelineHeld st + (l.valid && mulReady st l.ready).toNat :=
  st.countP_clocked (valid := MulStage.valid) (f := MulStage.advance) (fun _ _ => rfl) hW (MulStage.reset W)
    (MulStage.capture l.valid (mulSignField l.payload) (mulAField l.payload) (mulBField l.payload)) l.ready

theorem BcdRegs.held_edge {r : BcdRegs W L} (hL : 1 ≤ L) (h : r.Control) (l : Line (W + 1)) :
    (r.edge l).held + (r.outValid && l.ready).toNat = r.held + (l.valid && r.inpReady l.ready).toNat := by
  cases r with
  | pipelined st =>
    exact st.countP_clocked (valid := BcdStage.valid) (fun _ _ => rfl) hL (BcdStage.reset W) (BcdStage.capture l) l.ready
  | sequential r =>
    have hedge := r.edge_workload l hL h
    have hheld := Workload.held_next (BcdSeqRegs.workload_sound h) hL l.valid l.ready
    rwa [← hedge.2, BcdSeqRegs.workload_held h, BcdSeqRegs.workload_held hedge.1, BcdSeqRegs.workload_isOpen h] at hheld

/-- What an instance holds and what was observed of it, over an edge from the registers of the cycle. -/
theorem MDiv.held_edge {u : MDiv impl} (hW : 1 ≤ u.W) {cycle : Nat} (h : (u.now cycle).Control impl) :
    (u.edge cycle).regs.held + (u.edge cycle).port.log.length =
      (u.now cycle).held + u.port.log.length + ((u.line cycle).valid && (u.signals cycle).inpReady).toNat := by
  have hheld : (u.edge cycle).regs.held + _ = _ + ((u.line cycle).valid && (u.signals cycle).inpReady).toNat :=
    MDivRegs.held_edge hW h (u.line cycle)
  have hlog : (u.edge cycle).port.log.length = u.port.log.length + _ := length_log_of_portAfter (u.edge_portAfter cycle)
  omega

theorem LDiv.held_edge {u : LDiv} (hW : 2 ≤ u.W) {cycle : Nat} (h : (u.now cycle).Control) :
    (u.edge cycle).regs.held + (u.edge cycle).port.log.length =
      (u.now cycle).held + u.port.log.length + ((u.line cycle).valid && (u.signals cycle).inpReady).toNat := by
  have hheld : (u.edge cycle).regs.held + _ = _ + ((u.line cycle).valid && (u.signals cycle).inpReady).toNat :=
    LDivRegs.held_edge hW h (u.line cycle)
  have hlog : (u.edge cycle).port.log.length = u.port.log.length + _ := length_log_of_portAfter (u.edge_portAfter cycle)
  omega

theorem PMul.held_edge {u : PMul} (hW : 1 ≤ u.W) (cycle : Nat) :
    pipelineHeld (u.edge cycle).stages + (u.edge cycle).port.log.length =
      pipelineHeld (u.now cycle) + u.port.log.length + ((u.line cycle).valid && (u.signals cycle).inpReady).toNat := by
  have hheld : pipelineHeld (u.edge cycle).stages + _ = _ + ((u.line cycle).valid && (u.signals cycle).inpReady).toNat :=
    pipelineHeld_mulEdge hW (u.now cycle) (u.line cycle)
  have hlog : (u.edge cycle).port.log.length = u.port.log.length + _ := length_log_of_portAfter (u.edge_portAfter cycle)
  omega

theorem MCMul.held_edge {u : MCMul} (hW : 2 ≤ u.W) {cycle : Nat} (h : (u.now cycle).Control) :
    (u.edge cycle).regs.held + (u.edge cycle).port.log.length =
      (u.now cycle).held + u.port.log.length + ((u.line cycle).valid && (u.signals cycle).inpReady).toNat := by
  have hheld : (u.edge cycle).regs.held + _ = _ + ((u.line cycle).valid && (u.signals cycle).inpReady).toNat :=
    MCMulRegs.held_edge hW h (u.line cycle)
  have hlog : (u.edge cycle).port.log.length = u.port.log.length + _ := length_log_of_portAfter (u.edge_portAfter cycle)
  omega

theorem Bcd.held_edge {u : Bcd} (hL : 1 ≤ u.latency) {cycle : Nat} (h : (u.now cycle).Control) :
    (u.edge cycle).regs.held + (u.edge cycle).port.log.length =
      (u.now cycle).held + u.port.log.length + ((u.line cycle).valid && (u.signals cycle).inpReady).toNat := by
  have hheld : (u.edge cycle).regs.held + _ = _ + ((u.line cycle).valid && (u.signals cycle).inpReady).toNat :=
    BcdRegs.held_edge hL h (u.line cycle)
  have hlog : (u.edge cycle).port.log.length = u.port.log.length + _ := length_log_of_portAfter (u.edge_portAfter cycle)
  omega

/-- Settles O28: without `reset()` the registers of the cycle are those held, and each instance's edge neither loses nor makes
a transaction. -/
theorem everyTransactionIsHeldOrObserved : Obligations.EveryTransactionIsHeldOrObserved := by
  rintro s t ⟨hnrdiv, hrdiv, hldiv, hmcmul, hbcd⟩ ⟨rnrdiv, rrdiv, rldiv, rpmul, rmcmul, rbcd⟩ hstep
  obtain ⟨hfault, -, rfl⟩ := step_next_elim hstep
  obtain ⟨hWn, hWr, hWl, hWp, hWm, -, hL, -⟩ := widths_of_fault_none hfault
  refine ⟨?_, ?_, ?_, ?_, ?_, ?_⟩
  · rw [← MDiv.now_of_noReset rnrdiv] at hnrdiv ⊢
    exact MDiv.held_edge (by omega) hnrdiv
  · rw [← MDiv.now_of_noReset rrdiv] at hrdiv ⊢
    exact MDiv.held_edge (by omega) hrdiv
  · rw [← LDiv.now_of_noReset rldiv] at hldiv ⊢
    exact LDiv.held_edge hWl hldiv
  · rw [← PMul.now_of_noReset rpmul]
    exact PMul.held_edge (by omega) s.cycle
  · rw [← MCMul.now_of_noReset rmcmul] at hmcmul ⊢
    exact MCMul.held_edge hWm hmcmul
  · rw [← Bcd.now_of_noReset rbcd] at hbcd ⊢
    exact Bcd.held_edge hL hbcd

end Sys2Proof.Machine

/-! PROOFS. What `reset()` discards (70_reset_and_hazards.md R280 to R282, R286), what a waiting result does to its component
(40_handshake.md R102, R105), and the idle cycle (R110). -/

namespace Sys2Proof.Machine

open Sys2Proof.Claims

/-! ### A cycle that begins with `reset()` -/

/-- What O42 says of one instance, from its output signals, readiness and counts. -/
theorem discards_of {valid ready : Bool} {held held' log log' : Nat} {offered : Bool} (hvalid : valid = false)
    (hready : ready = true) (hheld : held = 0) (hlog : log' = log)
    (hedge : held' + log' = held + log + (offered && ready).toNat) :
    valid = false ∧ ready = true ∧ log' = log ∧ held' = offered.toNat := by
  rw [hready, Bool.and_true] at hedge
  exact ⟨hvalid, hready, hlog, by omega⟩

/-- An edge at which no result is shown observes nothing. -/
theorem length_log_of_notShown {p p' : Port inBits outBits} {cycle : Nat} {valid ready : Bool} {payload : BitVec outBits}
    (h : PortAfter p p' cycle valid ready payload) (hvalid : valid = false) : p'.log.length = p.log.length := by
  rw [length_log_of_portAfter h, hvalid]
  rfl

theorem MDiv.discards_of_reset {u : MDiv impl} (hW : 1 ≤ u.W) {cycle : Nat} (hreset : (u.line cycle).reset = true) :
    (u.signals cycle).outpValid = false ∧ (u.signals cycle).inpReady = true ∧
      (u.edge cycle).port.log.length = u.port.log.length ∧ (u.edge cycle).regs.held = (u.line cycle).valid.toNat := by
  have hnow := MDiv.now_of_reset hreset
  have hvalid : (u.now cycle).outValid = false := hnow ▸ rfl
  have hready : (u.signals cycle).inpReady = true := (MDivRegs.inpReady_iff _ _).mpr ⟨hnow ▸ rfl, .inl hvalid⟩
  exact discards_of hvalid hready (hnow ▸ rfl) (length_log_of_notShown (u.edge_portAfter cycle) hvalid)
    (MDiv.held_edge hW (hnow ▸ MDivRegs.afterReset_control _ _ _ _))

theorem LDiv.discards_of_reset {u : LDiv} (hW : 2 ≤ u.W) {cycle : Nat} (hreset : (u.line cycle).reset = true) :
    (u.signals cycle).outpValid = false ∧ (u.signals cycle).inpReady = true ∧
      (u.edge cycle).port.log.length = u.port.log.length ∧ (u.edge cycle).regs.held = (u.line cycle).valid.toNat := by
  have hnow := LDiv.now_of_reset hreset
  have hvalid : (u.now cycle).outValid = false := hnow ▸ rfl
  have hready : (u.signals cycle).inpReady = true := (LDivRegs.inpReady_iff _ _).mpr ⟨hnow ▸ rfl, .inl hvalid⟩
  exact discards_of hvalid hready (hnow ▸ rfl) (length_log_of_notShown (u.edge_portAfter cycle) hvalid)
    (LDiv.held_edge hW (hnow ▸ LDivRegs.afterReset_control _ _))

theorem PMul.discards_of_reset {u : PMul} (hW : 1 ≤ u.W) {cycle : Nat} (hreset : (u.line cycle).reset = true) :
    (u.signals cycle).outpValid = false ∧ (u.signals cycle).inpReady = true ∧
      (u.edge cycle).port.log.length = u.port.log.length ∧
      pipelineHeld (u.edge cycle).stages = (u.line cycle).valid.toNat := by
  have hheld : pipelineHeld (u.now cycle) = 0 := by
    rw [PMul.now_of_reset hreset]
    exact Stages.countP_generate _ fun _ => rfl
  have hvalid : (mulTop (u.now cycle)).valid = false := Stages.valid_top_of_countP rfl hheld
  have hready : (u.signals cycle).inpReady = true := (mulReady_iff _ _).mpr (.inl hvalid)
  exact discards_of hvalid hready hheld (length_log_of_notShown (u.edge_portAfter cycle) hvalid) (PMul.held_edge hW cycle)

theorem MCMul.discards_of_reset {u : MCMul} (hW : 2 ≤ u.W) {cycle : Nat} (hreset : (u.line cycle).reset = true) :
    (u.signals cycle).outpValid = false ∧ (u.signals cycle).inpReady = true ∧
      (u.edge cycle).port.log.length = u.port.log.length ∧ (u.edge cycle).regs.held = (u.line cycle).valid.toNat := by
  have hnow := MCMul.now_of_reset hreset
  have hvalid : (u.now cycle).outValid = false := hnow ▸ rfl
  have hready : (u.signals cycle).inpReady = true := (MCMulRegs.inpReady_iff _ _).mpr ⟨hnow ▸ rfl, .inl hvalid⟩
  exact discards_of hvalid hready (hnow ▸ rfl) (length_log_of_notShown (u.edge_portAfter cycle) hvalid)
    (MCMul.held_edge hW (hnow ▸ MCMulRegs.afterReset_control _ _))

/-- After `reset()` the converter holds nothing, shows nothing and is open, in either mode. -/
theorem BcdRegs.afterReset_empty (r : BcdRegs W L) (cycle : Nat) (ready : Bool) :
    (r.afterReset cycle).held = 0 ∧ (r.afterReset cycle).outValid = false ∧ (r.afterReset cycle).inpReady ready = true := by
  cases r with
  | sequential r => exact ⟨rfl, rfl, rfl⟩
  | pipelined st =>
    have hheld : (Stages.generate L (BcdStage.afterReset W cycle)).items.countP BcdStage.valid = 0 :=
      Stages.countP_generate _ fun _ => rfl
    have hvalid : (bcdTop (Stages.generate L (BcdStage.afterReset W cycle))).valid = false :=
      Stages.valid_top_of_countP rfl hheld
    exact ⟨hheld, hvalid, (pipeReady_iff _ _).mpr (.inl hvalid)⟩

theorem Bcd.discards_of_reset {u : Bcd} (hL : 1 ≤ u.latency) {cycle : Nat} (hreset : (u.line cycle).reset = true) :
    (u.signals cycle).outpValid = false ∧ (u.signals cycle).inpReady = true ∧
      (u.edge cycle).port.log.length = u.port.log.length ∧ (u.edge cycle).regs.held = (u.line cycle).valid.toNat := by
  obtain ⟨hheld, hvalid, hready⟩ := u.regs.afterReset_empty cycle (u.line cycle).ready
  rw [← Bcd.now_of_reset hreset] at hheld hvalid hready
  exact discards_of hvalid hready hheld (length_log_of_notShown (u.edge_portAfter cycle) hvalid)
    (Bcd.held_edge hL (Bcd.now_of_reset hreset ▸ BcdRegs.afterReset_control _ _))

/-- Settles O42: after `reset()` an instance holds and shows nothing and is open, so it takes what it is offered, and by the
count of O28 it holds just that. -/
theorem resetDiscardsTransactions : Obligations.ResetDiscardsTransactions := by
  intro s t hstep
  obtain ⟨hfault, -, rfl⟩ := step_next_elim hstep
  obtain ⟨hWn, hWr, hWl, hWp, hWm, -, hL, -⟩ := widths_of_fault_none hfault
  exact ⟨MDiv.discards_of_reset (by omega), MDiv.discards_of_reset (by omega), LDiv.discards_of_reset hWl,
    PMul.discards_of_reset (by omega), MCMul.discards_of_reset hWm, Bcd.discards_of_reset hL⟩

/-! ### A waiting result -/

theorem MDivRegs.inpReady_of_waiting {r : MDivRegs W} {ready : Bool} (hv : r.outValid = true) (hr : ready = false) :
    r.inpReady ready = false := by
  rw [Bool.eq_false_iff, Ne, MDivRegs.inpReady_iff, hv, hr]
  simp

theorem LDivRegs.inpReady_of_waiting {r : LDivRegs W} {ready : Bool} (hv : r.outValid = true) (hr : ready = false) :
    r.inpReady ready = false := by
  rw [Bool.eq_false_iff, Ne, LDivRegs.inpReady_iff, hv, hr]
  simp

theorem MCMulRegs.inpReady_of_waiting {r : MCMulRegs W} {ready : Bool} (hv : r.outValid = true) (hr : ready = false) :
    r.inpReady ready = false := by
  rw [Bool.eq_false_iff, Ne, MCMulRegs.inpReady_iff, hv, hr]
  simp

theorem BcdRegs.inpReady_of_waiting {r : BcdRegs W L} {ready : Bool} (hv : r.outValid = true) (hr : ready = false) :
    r.inpReady ready = false := by
  cases r with
  | pipelined st => rw [BcdRegs.inpReady, show (bcdTop st).valid = true from hv, hr]; rfl
  | sequential r => rw [BcdRegs.inpReady, show r.outValid = true from hv, hr]; exact Bool.and_false _

/-- Settles O36: each rule of readiness asks for a free or a leaving result. -/
theorem waitingResultClosesInput : Obligations.WaitingResultClosesInput := fun _ =>
  ⟨MDivRegs.inpReady_of_waiting, MDivRegs.inpReady_of_waiting, LDivRegs.inpReady_of_waiting, PMul.inpReady_of_waiting,
    MCMulRegs.inpReady_of_waiting, BcdRegs.inpReady_of_waiting⟩

/-! A unit whose result waits is left as it is: it is idle and closed. -/

theorem MDivRegs.edge_of_waiting {impl : Impl} {r : MDivRegs W} (h : r.Control impl) {l : Line (W + W + 1)}
    (hv : r.outValid = true) (hr : l.ready = false) : r.edge impl l = r := by
  have hidle : r.fsm = .idle := by
    by_contra hf
    rw [h.1 hf] at hv
    cases hv
  rw [r.edge_idle impl l hidle (by rw [MDivRegs.inpReady_of_waiting hv hr, Bool.and_false]), hr, Bool.not_false,
    Bool.and_true]

theorem LDivRegs.edge_of_waiting {r : LDivRegs W} (h : r.Control) {l : Line (W + W + 1)}
    (hv : r.outValid = true) (hr : l.ready = false) : r.edge l = r := by
  have hidle : r.busy = false := by
    by_contra hbusy
    rw [(h ((Bool.not_eq_false _).mp hbusy)).1] at hv
    cases hv
  rw [r.edge_idle l hidle (by rw [LDivRegs.inpReady_of_waiting hv hr, Bool.and_false]), hr, Bool.not_false,
    Bool.and_true]

theorem mulEdge_of_waiting {st : Stages (MulStage W) W} {l : Line (W + W + 2)} (hv : (mulTop st).valid = true)
    (hr : l.ready = false) : mulEdge st l = st := by
  rw [mulEdge_eq_clocked, st.clocked_of_waiting _ hv hr]

theorem MCMulRegs.edge_of_waiting {r : MCMulRegs W} (h : r.Control) {l : Line (W + W + 2)}
    (hv : r.outValid = true) (hr : l.ready = false) : r.edge l = r := by
  have hidle : r.busy = false := by
    by_contra hbusy
    rw [(h ((Bool.not_eq_false _).mp hbusy)).1] at hv
    cases hv
  rw [r.edge_idle l hidle (by rw [MCMulRegs.inpReady_of_waiting hv hr, Bool.and_false]), hr, Bool.not_false,
    Bool.and_true]

theorem BcdRegs.edge_of_waiting {r : BcdRegs W L} (h : r.Control) {l : Line (W + 1)} (hv : r.outValid = true)
    (hr : l.ready = false) : r.edge l = r := by
  have hclosed := BcdRegs.inpReady_of_waiting hv hr
  cases r with
  | pipelined st =>
    rw [BcdRegs.edge_pipelined, st.clocked_of_waiting _ hv hr]
  | sequential r =>
    have hidle : r.busy = false := by
      by_contra hbusy
      have hv : r.outValid = true := hv
      rw [(h ((Bool.not_eq_false _).mp hbusy)).1] at hv
      cases hv
    have hclosed : singleReady (!r.busy) r.outValid l.ready = false := hclosed
    rw [BcdRegs.edge, r.edge_idle l hidle (by rw [hclosed, Bool.and_false]), hr, Bool.not_false, Bool.and_true]

/-- The same registers show the same result, whatever else a cycle brings. -/
theorem sameResult_of_shown {outBits : Nat} {v v' ready ready' : Bool} {x x' : BitVec outBits} (hv : v = true) (hv' : v' = v)
    (hx : x' = x) : SameResult (showSignals ready v x) (showSignals ready' v' x') :=
  ⟨hv'.trans hv, by rw [hv', hx]; rfl⟩

theorem MDiv.sameResult_of_waiting {u : MDiv impl} {cycle : Nat} (h : u.regs.Control impl)
    (hreset : ((u.edge cycle).line (cycle + 1)).reset = false) (hv : (u.signals cycle).outpValid = true)
    (hr : (u.line cycle).ready = false) : SameResult (u.signals cycle) ((u.edge cycle).signals (cycle + 1)) := by
  have hregs : (u.edge cycle).now (cycle + 1) = u.now cycle :=
    (MDiv.now_of_noReset hreset).trans (MDivRegs.edge_of_waiting (MDiv.now_control h cycle) hv hr)
  exact sameResult_of_shown hv (congrArg MDivRegs.outValid hregs) (congrArg MDivRegs.outPayload hregs)

theorem LDiv.sameResult_of_waiting {u : LDiv} {cycle : Nat} (h : u.regs.Control)
    (hreset : ((u.edge cycle).line (cycle + 1)).reset = false) (hv : (u.signals cycle).outpValid = true)
    (hr : (u.line cycle).ready = false) : SameResult (u.signals cycle) ((u.edge cycle).signals (cycle + 1)) := by
  have hregs : (u.edge cycle).now (cycle + 1) = u.now cycle :=
    (LDiv.now_of_noReset hreset).trans (LDivRegs.edge_of_waiting (LDiv.now_control h cycle) hv hr)
  exact sameResult_of_shown hv (congrArg LDivRegs.outValid hregs) (congrArg LDivRegs.outPayload hregs)

theorem PMul.sameResult_of_waiting {u : PMul} {cycle : Nat}
    (hreset : ((u.edge cycle).line (cycle + 1)).reset = false) (hv : (u.signals cycle).outpValid = true)
    (hr : (u.line cycle).ready = false) : SameResult (u.signals cycle) ((u.edge cycle).signals (cycle + 1)) := by
  have hstages : (u.edge cycle).now (cycle + 1) = u.now cycle :=
    (PMul.now_of_noReset hreset).trans (mulEdge_of_waiting hv hr)
  exact sameResult_of_shown hv (congrArg (fun st => (mulTop st).valid) hstages) (congrArg pipelinePayload hstages)

theorem MCMul.sameResult_of_waiting {u : MCMul} {cycle : Nat} (h : u.regs.Control)
    (hreset : ((u.edge cycle).line (cycle + 1)).reset = false) (hv : (u.signals cycle).outpValid = true)
    (hr : (u.line cycle).ready = false) : SameResult (u.signals cycle) ((u.edge cycle).signals (cycle + 1)) := by
  have hregs : (u.edge cycle).now (cycle + 1) = u.now cycle :=
    (MCMul.now_of_noReset hreset).trans (MCMulRegs.edge_of_waiting (MCMul.now_control h cycle) hv hr)
  exact sameResult_of_shown hv (congrArg MCMulRegs.outValid hregs) (congrArg MCMulRegs.outPayload hregs)

theorem Bcd.sameResult_of_waiting {u : Bcd} {cycle : Nat} (h : u.regs.Control)
    (hreset : ((u.edge cycle).line (cycle + 1)).reset = false) (hv : (u.signals cycle).outpValid = true)
    (hr : (u.line cycle).ready = false) : SameResult (u.signals cycle) ((u.edge cycle).signals (cycle + 1)) := by
  have hregs : (u.edge cycle).now (cycle + 1) = u.now cycle :=
    (Bcd.now_of_noReset hreset).trans (BcdRegs.edge_of_waiting (Bcd.now_control h cycle) hv hr)
  exact sameResult_of_shown hv (congrArg BcdRegs.outValid hregs) (congrArg (BcdRegs.outPayload · u.digits) hregs)

/-- Settles O34: a component whose result waits keeps its registers over the edge, so it shows the same in the next cycle. -/
theorem waitingResultIsStable : Obligations.WaitingResultIsStable := by
  rintro s t ⟨hnrdiv, hrdiv, hldiv, hmcmul, hbcd⟩ hstep ⟨rnrdiv, rrdiv, rldiv, rpmul, rmcmul, rbcd⟩
  obtain ⟨-, -, rfl⟩ := step_next_elim hstep
  exact ⟨MDiv.sameResult_of_waiting hnrdiv rnrdiv, MDiv.sameResult_of_waiting hrdiv rrdiv,
    LDiv.sameResult_of_waiting hldiv rldiv, PMul.sameResult_of_waiting rpmul, MCMul.sameResult_of_waiting hmcmul rmcmul,
    Bcd.sameResult_of_waiting hbcd rbcd⟩

end Sys2Proof.Machine

/-! PROOFS. Cycles in which nothing happens, parameters that never change, the block after construction, and the outcomes of a
cycle. -/

namespace Sys2Proof.Machine

open Sys2Proof.Claims

/-! ### The parameters (00_scope.md R9) -/

theorem Bcd.edge_regs_mode (u : Bcd) (cycle : Nat) : (u.edge cycle).regs.mode = u.regs.mode := by
  have hnow : (u.now cycle).mode = u.regs.mode := by
    cases hreset : (u.line cycle).reset with
    | false => rw [Bcd.now_of_noReset hreset]
    | true => rw [Bcd.now_of_reset hreset, BcdRegs.afterReset_mode]
  exact (BcdRegs.edge_mode _ _).trans hnow

theorem State.edge_params (s : State) : s.edge.params = s.params := by
  have hmode : s.edge.bcd.regs.mode = s.bcd.regs.mode := s.bcd.edge_regs_mode s.cycle
  rw [State.params, hmode]
  rfl

/-- Settles O41: an edge writes registers and ports, and a converter's registers keep their mode. -/
theorem parametersNeverChange : Obligations.ParametersNeverChange := by
  intro s t hstep
  obtain ⟨-, -, rfl⟩ := step_next_elim hstep
  exact s.edge_params

/-! ### The idle cycle (40_handshake.md R110) -/

theorem MDivRegs.held_eq_zero_iff (r : MDivRegs W) : r.held = 0 ↔ r.fsm = .idle ∧ r.outValid = false := by
  unfold MDivRegs.held
  by_cases hf : r.fsm = .idle <;> cases r.outValid <;> simp [hf]

theorem LDivRegs.held_eq_zero_iff (r : LDivRegs W) : r.held = 0 ↔ r.busy = false ∧ r.outValid = false := by
  unfold LDivRegs.held
  cases r.busy <;> cases r.outValid <;> simp

theorem MCMulRegs.held_eq_zero_iff (r : MCMulRegs W) : r.held = 0 ↔ r.busy = false ∧ r.outValid = false := by
  unfold MCMulRegs.held
  cases r.busy <;> cases r.outValid <;> simp

/-! A unit that holds nothing and is offered nothing keeps its registers. -/

theorem MDivRegs.edge_of_drained {impl : Impl} {r : MDivRegs W} (h : r.held = 0) {l : Line (W + W + 1)}
    (hv : l.valid = false) : r.edge impl l = r := by
  obtain ⟨hidle, hfree⟩ := r.held_eq_zero_iff.mp h
  rw [r.edge_idle impl l hidle (by rw [hv, Bool.false_and]), hfree, Bool.false_and, ← hfree]

theorem LDivRegs.edge_of_drained {r : LDivRegs W} (h : r.held = 0) {l : Line (W + W + 1)} (hv : l.valid = false) :
    r.edge l = r := by
  obtain ⟨hidle, hfree⟩ := r.held_eq_zero_iff.mp h
  rw [r.edge_idle l hidle (by rw [hv, Bool.false_and]), hfree, Bool.false_and, ← hfree]

theorem MCMulRegs.edge_of_drained {r : MCMulRegs W} (h : r.held = 0) {l : Line (W + W + 2)} (hv : l.valid = false) :
    r.edge l = r := by
  obtain ⟨hidle, hfree⟩ := r.held_eq_zero_iff.mp h
  rw [r.edge_idle l hidle (by rw [hv, Bool.false_and]), hfree, Bool.false_and, ← hfree]

theorem BcdSeqRegs.edge_of_drained {r : BcdSeqRegs W L} (h : r.busy.toNat + r.outValid.toNat = 0) {l : Line (W + 1)}
    (hv : l.valid = false) : r.edge l = r := by
  obtain ⟨hidle, hfree⟩ : r.busy = false ∧ r.outValid = false := by
    revert h
    cases r.busy <;> cases r.outValid <;> simp
  rw [r.edge_idle l hidle (by rw [hv, Bool.false_and]), hfree, Bool.false_and, ← hfree]

/-- The valid bits of stages without a transaction are all 0. -/
theorem map_valid_of_countP {valid : α → Bool} {l : List α} (h : l.countP valid = 0) :
    l.map valid = List.replicate l.length false := by
  rw [List.map_eq_replicate_iff]
  exact fun x hx => Bool.eq_false_iff.mpr (List.countP_eq_zero.mp h x hx)

/-- A pipeline without a transaction, offered none, keeps its valid bits. -/
theorem Stages.map_valid_clocked_of_drained {valid : α → Bool} {f : Nat → α → α} (hvalid : ∀ i p, valid (f i p) = valid p)
    {st : Stages α n} (hn : 1 ≤ n) (h : st.items.countP valid = 0) (d : α) {new : α} (hnew : valid new = false)
    (ready : Bool) :
    (st.clocked valid d f new ready).items.countP valid = 0 ∧
      (st.clocked valid d f new ready).items.map valid = st.items.map valid := by
  have hcount := st.countP_clocked hvalid hn d new ready
  rw [hnew, h, Bool.false_and] at hcount
  have hzero : (st.clocked valid d f new ready).items.countP valid = 0 :=
    Nat.le_zero.mp (Nat.le_of_add_right_le hcount.le)
  refine ⟨hzero, ?_⟩
  rw [map_valid_of_countP hzero, map_valid_of_countP h, Stages.length_eq, Stages.length_eq]

/-- A converter that holds nothing and is offered nothing keeps its control registers, and holds nothing. -/
theorem BcdRegs.edge_of_drained {r : BcdRegs W L} (hL : 1 ≤ L) (h : r.held = 0) {l : Line (W + 1)} (hv : l.valid = false) :
    (r.edge l).held = 0 ∧ (r.edge l).controlView = r.controlView := by
  cases r with
  | pipelined st =>
    obtain ⟨hheld, hmap⟩ := Stages.map_valid_clocked_of_drained (valid := BcdStage.valid) (f := fun _ p => p)
      (fun _ _ => rfl) hL h (BcdStage.reset W) (new := BcdStage.capture l) hv l.ready
    exact ⟨hheld, congrArg (·, 0) hmap⟩
  | sequential r =>
    have hedge : (BcdRegs.sequential r).edge l = .sequential r := congrArg BcdRegs.sequential (r.edge_of_drained h hv)
    rw [hedge]
    exact ⟨h, rfl⟩

/-- Settles O37: nothing is in flight and nothing enters, so the single-transaction units keep all registers and the pipelines
their valid bits, which are all 0. -/
theorem idleCycleChangesNoControl : Obligations.IdleCycleChangesNoControl := by
  rintro s t ⟨hnrdiv, hrdiv, hldiv, hpmul, hmcmul, hbcd⟩ ⟨rnrdiv, rrdiv, rldiv, rpmul, rmcmul, rbcd⟩
    ⟨vnrdiv, vrdiv, vldiv, vpmul, vmcmul, vbcd⟩ hstep
  obtain ⟨hfault, -, rfl⟩ := step_next_elim hstep
  obtain ⟨-, -, -, hW, -, -, hL, -⟩ := widths_of_fault_none hfault
  have enrdiv : s.edge.nrdiv.regs = s.nrdiv.regs := by
    rw [← MDiv.now_of_noReset rnrdiv] at hnrdiv ⊢
    exact MDivRegs.edge_of_drained hnrdiv vnrdiv
  have erdiv : s.edge.rdiv.regs = s.rdiv.regs := by
    rw [← MDiv.now_of_noReset rrdiv] at hrdiv ⊢
    exact MDivRegs.edge_of_drained hrdiv vrdiv
  have eldiv : s.edge.ldiv.regs = s.ldiv.regs := by
    rw [← LDiv.now_of_noReset rldiv] at hldiv ⊢
    exact LDivRegs.edge_of_drained hldiv vldiv
  have emcmul : s.edge.mcmul.regs = s.mcmul.regs := by
    rw [← MCMul.now_of_noReset rmcmul] at hmcmul ⊢
    exact MCMulRegs.edge_of_drained hmcmul vmcmul
  have epmul : pipelineHeld s.edge.pmul.stages = 0 ∧
      s.edge.pmul.stages.items.map (·.valid) = s.pmul.stages.items.map (·.valid) := by
    rw [← PMul.now_of_noReset rpmul] at hpmul ⊢
    exact Stages.map_valid_clocked_of_drained (valid := MulStage.valid) (f := MulStage.advance) (fun _ _ => rfl)
      (Nat.one_le_of_lt hW) hpmul (MulStage.reset _) (new := MulStage.capture _ _ _ _) vpmul (s.pmul.line s.cycle).ready
  have ebcd : s.edge.bcd.regs.held = 0 ∧ s.edge.bcd.regs.controlView = s.bcd.regs.controlView := by
    rw [← Bcd.now_of_noReset rbcd] at hbcd ⊢
    exact BcdRegs.edge_of_drained hL hbcd vbcd
  constructor
  · exact ⟨enrdiv ▸ hnrdiv, erdiv ▸ hrdiv, eldiv ▸ hldiv, epmul.1, emcmul ▸ hmcmul, ebcd.1⟩
  · simp only [State.controlView, ControlView.mk.injEq, and_true, true_and]
    exact ⟨s.edge_params, congrArg (fun r : MDivRegs s.nrdiv.W => (r.fsm, r.cnt.toNat, r.outValid)) enrdiv,
      congrArg (fun r : MDivRegs s.rdiv.W => (r.fsm, r.cnt.toNat, r.outValid)) erdiv,
      congrArg (fun r : LDivRegs s.ldiv.W => (r.busy, if r.busy then r.i.toNat else 0, r.outValid)) eldiv, epmul.2,
      congrArg (fun r : MCMulRegs s.mcmul.W => (r.busy, if r.busy then r.cnt.toNat else 0, r.outValid)) emcmul, ebcd.2⟩

/-! ### Output signals (41_multicycle_div.md R120, 42_long_divider.md R166, 43_pipelined_mul.md R193, 44_multicycle_mul.md R214,
45_bcd.md R241, R242) -/

/-- Cutting a word to its low part, in the two ways that the model and the claims write it. -/
theorem setWidth_eq_extractLsb' (x : BitVec w) (v : Nat) : x.setWidth v = x.extractLsb' 0 v :=
  BitVec.eq_of_toNat_eq (by simp)

theorem LDivRegs.outPayload_eq (r : LDivRegs W) : r.outPayload = longPayload r := by
  rw [LDivRegs.outPayload, setWidth_eq_extractLsb']

theorem MCMulRegs.outPayload_eq (r : MCMulRegs W) : r.outPayload = shiftAddPayload r := by
  rw [MCMulRegs.outPayload, setWidth_eq_extractLsb']

theorem BcdRegs.outValid_eq (r : BcdRegs W L) : r.outValid = converterValid r := by cases r <;> rfl

theorem BcdRegs.outPayload_eq (r : BcdRegs W L) (D : Nat) : r.outPayload D = converterPayload D r := by cases r <;> rfl

/-- Settles O59: the signals of a cycle are built of the valid register and the packed output registers. -/
theorem outputSignalsAreTheRegisters : Obligations.OutputSignalsAreTheRegisters := by
  intro s
  refine ⟨⟨rfl, rfl⟩, ⟨rfl, rfl⟩, ⟨rfl, ?ldiv⟩, ⟨rfl, rfl⟩, ⟨rfl, ?mcmul⟩, ?bcd⟩
  case ldiv => rw [← LDivRegs.outPayload_eq]; rfl
  case mcmul => rw [← MCMulRegs.outPayload_eq]; rfl
  case bcd =>
    rw [← BcdRegs.outValid_eq, ← BcdRegs.outPayload_eq]
    exact ⟨rfl, rfl⟩

/-- Settles O38: each port observes what its instance shows and its consumer takes. -/
theorem outputTransferIsObserved : Obligations.OutputTransferIsObserved := by
  intro s t hstep
  obtain ⟨hnrdiv, hrdiv, hldiv, hpmul, hmcmul, hbcd, -⟩ := step_instances hstep
  rw [← LDivRegs.outPayload_eq, ← MCMulRegs.outPayload_eq, ← BcdRegs.outValid_eq, ← BcdRegs.outPayload_eq]
  exact ⟨⟨_, _, hnrdiv, s.nrdiv.edge_portAfter s.cycle⟩, ⟨_, _, hrdiv, s.rdiv.edge_portAfter s.cycle⟩,
    ⟨_, _, hldiv, s.ldiv.edge_portAfter s.cycle⟩, ⟨_, _, hpmul, s.pmul.edge_portAfter s.cycle⟩,
    ⟨_, _, hmcmul, s.mcmul.edge_portAfter s.cycle⟩, ⟨_, _, hbcd, s.bcd.edge_portAfter s.cycle⟩⟩

/-! ### Outcomes of a cycle -/

/-- Settles O57: a multiplier's reason is the one named, and the converter's where no multiplier refuses. -/
theorem refusalOrder : Obligations.RefusalOrder := fun _ hfault =>
  ⟨fun h => h.elim (step_of_reservedPmul hfault) (step_of_reservedMcmul hfault),
    fun hbcd hmul => step_of_signedBcd hfault hbcd (fun h => hmul (.inl h)) (fun h => hmul (.inr h))⟩

/-- Settles O44: a cycle faults only with the reason that the parameters give. -/
theorem faultsMeanNoBlock : Obligations.FaultsMeanNoBlock := by
  intro s f hstep
  have hfault : blockFault s.params = some f := (clock_fault_iff s f).mp ((step_eq_clock s).symm.trans hstep)
  unfold blockFault at hfault
  split at hfault
  next hwidth => exact .inl ⟨(Option.some.inj hfault).symm, hwidth⟩
  next =>
    split at hfault
    next hstages => exact .inr (.inl ⟨(Option.some.inj hfault).symm, (badStageCount_iff _ _).mp hstages⟩)
    next =>
      split at hfault
      next hzero => exact .inr (.inr ⟨(Option.some.inj hfault).symm, hzero⟩)
      next => cases hfault

/-- A width that is too small is reported, and no other is. -/
theorem checkWidthFrom_of_narrow {least : Int} {W : WidthRequest} (h : Narrow least W) :
    checkWidthFrom least W = .error .badWidth := (checkWidthFrom_eq_error_iff least W _).mpr ⟨rfl, h⟩

/-- Settles O58: the first check of each builder is the width's, and the converter's second one the limit's. -/
theorem constructionCheckOrder : Obligations.ConstructionCheckOrder := by
  refine ⟨fun W impl hn => ?dividers, fun W limit impl stages mode latency => ⟨fun hn => ?width, fun hwide hlimit => ?limit⟩⟩
  case dividers => rw [buildMulticycleDiv, checkWidth, checkWidthFrom_of_narrow hn]
  case width => rw [buildBinaryToBcd, checkWidthFrom_of_narrow hn]
  case limit =>
    rw [buildBinaryToBcd]
    split
    next e herror => exact absurd ((checkWidthFrom_eq_error_iff 4 W e).mp herror).2 hwide
    next => rw [(requestedLimit_eq_error_iff limit .badLimit).mpr ⟨rfl, hlimit⟩]

/-- A coming line that offers something is listed, so it is among the next lines. -/
theorem Port.line_mem_take {p : Port inBits outBits} {c : Component} {cycle k : Nat} (hv : (p.line c cycle).valid = true) :
    p.line c cycle ∈ p.script.take (k + 1) := by
  have hlisted := Port.listed_of_valid p c cycle hv
  unfold Port.line
  cases hscript : p.script with
  | nil => exact absurd hscript hlisted
  | cons l rest => simp

/-- The lines of the cycles after the coming one are among the next lines. -/
theorem mem_take_of_tail {l : α} {script : List α} {k : Nat} (h : l ∈ script.tail.take k) : l ∈ script.take (k + 1) := by
  cases script with
  | nil => simp at h
  | cons x rest => exact List.mem_cons_of_mem x h

/-- A run of a block that can be constructed and is offered no reserved tag goes on: the premises hold again after a cycle. -/
theorem exists_run {k : Nat} {s : State} (hfault : s.Constructible) (hoffer : s.NoReservedOffer k) : ∃ t, RunsTo k s t := by
  induction k generalizing s with
  | zero => exact ⟨s, rfl⟩
  | succ k ih =>
    obtain ⟨hpmul, hmcmul, hbcd⟩ := hoffer
    have hstep : step s = .next s.edge := by
      refine step_of_noReserved hfault ?_ ?_ ?_
      · rintro ⟨hv, -, htag⟩
        exact hpmul _ (Port.line_mem_take hv) hv htag
      · rintro ⟨hv, -, htag⟩
        exact hmcmul _ (Port.line_mem_take hv) hv htag
      · rintro ⟨hv, -, htag⟩
        exact hbcd _ (Port.line_mem_take hv) hv htag
    have hfault' : s.edge.Constructible := by rw [State.Constructible, State.fault, s.edge_params]; exact hfault
    obtain ⟨t, ht⟩ := ih hfault' ⟨fun l hl => hpmul l (mem_take_of_tail hl), fun l hl => hmcmul l (mem_take_of_tail hl),
      fun l hl => hbcd l (mem_take_of_tail hl)⟩
    exact ⟨t, (runsTo_succ_iff k s t).mpr ⟨_, hstep, ht⟩⟩

/-- Settles O25. -/
theorem runsGoOn : Obligations.RunsGoOn := fun _ _ => exists_run

end Sys2Proof.Machine

/-! PROOFS. The input transfer of the converter (45_bcd.md R241, R242, R246), the comparator's cycle (42_long_divider.md R177),
offers that are not taken (20_memory.md R46), and the block after construction (70_reset_and_hazards.md R285). -/

namespace Sys2Proof.Machine

open Sys2Proof.Claims

/-! ### BCD.U -/

/-- What an accepting edge makes of the converter's registers in either mode. -/
abbrev ConverterAccepted (r r' : BcdRegs W L) (n : Word W) : Prop :=
  (∀ st, r = .pipelined st →
      ∃ st', r' = .pipelined st' ∧ st'.items[0]? = some ⟨true, .unsigned, n⟩ ∧
        ∀ j, 1 ≤ j → j < L → st'.items[j]? = st.items[j - 1]?) ∧
    (∀ q, r = .sequential q →
      ∃ q', r' = .sequential q' ∧ q'.signL = .unsigned ∧ q'.nL = n ∧ q'.cnt.toNat = 1 ∧
        q'.outValid = decide (L = 1) ∧ q'.busy = decide (L ≠ 1))

/-- An open converter takes the number it is offered with tag `UNSIGNED`. -/
theorem BcdRegs.edge_accept {r : BcdRegs W L} (hL : 1 ≤ L) {l : Line (W + 1)} {n : Word W}
    (hpayload : l.payload = packBcdIn DivSign.unsigned.bit n) (hvalid : l.valid = true) (hready : r.inpReady l.ready = true) :
    ConverterAccepted r (r.edge l) n := by
  constructor
  · rintro st rfl
    have hready : pipeReady (st.top (BcdStage.reset W)).valid l.ready = true := hready
    have hcapture : BcdStage.capture l = ⟨true, .unsigned, n⟩ := by
      rw [BcdStage.capture, hpayload, bcdSignField_packBcdIn, bcdNField_packBcdIn, DivSign.ofBit_bit, hvalid]
    refine ⟨_, BcdRegs.edge_pipelined st l, ?_, fun j hpos hlt => ?_⟩
    · rw [Stages.clocked, if_pos hready, Stages.shift_getElem?, if_pos (show 0 < L from hL), if_pos rfl, hcapture]
    · obtain ⟨i, rfl⟩ : ∃ i, j = i + 1 := ⟨j - 1, by omega⟩
      rw [st.clocked_getElem?_succ _ hready hlt, Option.map_id', Nat.add_sub_cancel]
  · rintro q rfl
    have hready : singleReady (!q.busy) q.outValid l.ready = true := hready
    have hidle : q.busy = false := by simpa using ((singleReady_iff _ _ _).mp hready).1
    refine ⟨_, rfl, ?_⟩
    rw [q.edge_accept l hvalid hready, hpayload, bcdSignField_packBcdIn, bcdNField_packBcdIn, DivSign.ofBit_bit]
    refine ⟨rfl, rfl, counter_ofNat_toNat hL, rfl, ?_⟩
    rw [BcdSeqRegs.accept_busy, hidle]
    by_cases h : L = 1 <;> simp [h]

/-- An operation of the converter is no reserved offer, and at the other ports it changes nothing. -/
theorem refusal_offerBcd_eq_none {s : State} (h : NoOtherRefused .bcd s) (n : Nat) : (s.offerBcd n).refusal = none := by
  obtain ⟨hpmul, hmcmul, -⟩ := h
  exact (refusal_eq_none_iff _).mpr ⟨(PMul.refusal_eq_none_iff s.pmul s.cycle).mpr (hpmul nofun),
    (MCMul.refusal_eq_none_iff s.mcmul s.cycle).mpr (hmcmul nofun), s.bcd.refusal_offer s.cycle _⟩

/-- Settles O14: BCD.U is not refused, so the block's edge is taken and the open converter takes the number in; the offer
leaves every other instance, and the result that leaves, as they were. -/
theorem converterAcceptingEdge : Obligations.ConverterAcceptingEdge := by
  intro s n hfault hother hready
  obtain ⟨-, -, -, -, -, -, hL, -⟩ := widths_of_fault_none hfault
  have hedge : exec (.bcdU n) s = .next (s.offerBcd n).edge :=
    clock_eq_next (s := s.offerBcd n) hfault (refusal_offerBcd_eq_none hother n)
  have hframe : OthersAdvance .bcd s (s.offerBcd n).edge :=
    ⟨rfl, fun _ => rfl, fun _ => rfl, fun _ => rfl, fun _ => rfl, fun _ => rfl, (absurd rfl ·), fun _ => rfl⟩
  exact ⟨_, hedge, hframe, _, _, rfl, Bcd.edge_portAfter (s.bcd.offer s.cycle _) s.cycle,
    BcdRegs.edge_accept (l := (s.bcd.offer s.cycle _).line s.cycle) hL rfl rfl hready⟩

/-! ### MAGCMP -/

/-- Settles O15: the comparator's outputs of a cycle compare its inputs of that cycle, and the edge samples them. -/
theorem comparatorComparesMagnitudes : Obligations.ComparatorComparesMagnitudes := by
  intro s a b hfault hother
  have hedge : exec (.magcmp a b) s = .next (s.offerMag a b).edge :=
    clock_eq_next (s := s.offerMag a b) hfault (refusal_eq_none_of_noOtherRefused hother nofun nofun nofun)
  have hframe : OthersAdvance .mag s (s.offerMag a b).edge :=
    ⟨rfl, fun _ => rfl, fun _ => rfl, fun _ => rfl, fun _ => rfl, fun _ => rfl, fun _ => rfl, (absurd rfl ·)⟩
  exact ⟨_, _, _, _, hedge, hframe, rfl, magCompare_lt_iff _ _, magCompare_eq_iff _ _, magCompare_gt_iff _ _,
    magCompare_exactly_one _ _⟩

/-! ### Offers that are not taken

While its input is closed, the edge of a component does not look at what it is offered. -/

theorem MDivRegs.edge_of_closed {impl : Impl} {r : MDivRegs W} {l l' : Line (W + W + 1)} (h : r.inpReady l.ready = false)
    (hl : l'.ready = l.ready) : r.edge impl l = r.edge impl l' := by
  cases hfsm : r.fsm with
  | idle =>
    rw [r.edge_idle impl l hfsm (by rw [h, Bool.and_false]), r.edge_idle impl l' hfsm (by rw [hl, h, Bool.and_false]), hl]
  | divideIn => rw [r.edge_divideIn impl l hfsm, r.edge_divideIn impl l' hfsm, hl]
  | divideLoop => rw [r.edge_divideLoop impl l hfsm, r.edge_divideLoop impl l' hfsm, hl]
  | restore => rw [r.edge_restore impl l hfsm, r.edge_restore impl l' hfsm, hl]
  | divideOut => rw [r.edge_divideOut impl l hfsm, r.edge_divideOut impl l' hfsm]

theorem LDivRegs.edge_of_closed {r : LDivRegs W} {l l' : Line (W + W + 1)} (h : r.inpReady l.ready = false)
    (hl : l'.ready = l.ready) : r.edge l = r.edge l' := by
  cases hbusy : r.busy with
  | true => rw [r.edge_busy l hbusy, r.edge_busy l' hbusy, hl]
  | false =>
    rw [r.edge_idle l hbusy (by rw [h, Bool.and_false]), r.edge_idle l' hbusy (by rw [hl, h, Bool.and_false]), hl]

theorem mulEdge_of_closed {st : Stages (MulStage W) W} {l l' : Line (W + W + 2)} (h : mulReady st l.ready = false)
    (hl : l'.ready = l.ready) : mulEdge st l = mulEdge st l' := by
  rw [mulEdge_frozen st l h, mulEdge_frozen st l' (hl ▸ h)]

theorem MCMulRegs.edge_of_closed {r : MCMulRegs W} {l l' : Line (W + W + 2)} (h : r.inpReady l.ready = false)
    (hl : l'.ready = l.ready) : r.edge l = r.edge l' := by
  cases hbusy : r.busy with
  | true => rw [r.edge_busy l hbusy, r.edge_busy l' hbusy, hl]
  | false =>
    rw [r.edge_idle l hbusy (by rw [h, Bool.and_false]), r.edge_idle l' hbusy (by rw [hl, h, Bool.and_false]), hl]

theorem BcdRegs.edge_of_closed {r : BcdRegs W L} {l l' : Line (W + 1)} (h : r.inpReady l.ready = false)
    (hl : l'.ready = l.ready) : r.edge l = r.edge l' := by
  cases r with
  | pipelined st =>
    have h : pipeReady (st.top (BcdStage.reset W)).valid l.ready = false := h
    rw [BcdRegs.edge_pipelined, BcdRegs.edge_pipelined, Stages.clocked, Stages.clocked, hl, h,
      if_neg Bool.false_ne_true, if_neg Bool.false_ne_true]
  | sequential r =>
    have h : singleReady (!r.busy) r.outValid l.ready = false := h
    cases hbusy : r.busy with
    | true => rw [BcdRegs.edge, BcdRegs.edge, r.edge_busy l hbusy, r.edge_busy l' hbusy, hl]
    | false =>
      rw [BcdRegs.edge, BcdRegs.edge, r.edge_idle l hbusy (by rw [h, Bool.and_false]),
        r.edge_idle l' hbusy (by rw [hl, h, Bool.and_false]), hl]

/-- A clock edge is determined by the fault, the refusal and the block after it. -/
theorem clock_congr {s s' : State} (hfault : s.fault = s'.fault) (hrefusal : s.refusal = s'.refusal)
    (hedge : s.edge = s'.edge) : clock s = clock s' := by
  rw [clock, clock, hfault, hrefusal, hedge]

/-- Two instances of a divider with one state and output side, but different offers to a closed input, become the same. -/
theorem MDiv.edge_offer_of_closed {u : MDiv impl} {cycle : Nat} (payload : BitVec (u.W + u.W + 1))
    (h : (u.signals cycle).inpReady = false) :
    (u.offer cycle payload).edge cycle =
      ({ u with port := silent u.port (dividerOf impl) cycle } : MDiv impl).edge cycle := by
  have hregs := MDivRegs.edge_of_closed (impl := impl) (r := u.now cycle)
    (l := { u.line cycle with valid := true, payload := payload }) (l' := { u.line cycle with valid := false }) h rfl
  exact congrArg (MDiv.mk u.W · ((u.offer cycle payload).edge cycle).port) hregs

theorem LDiv.edge_offer_of_closed {u : LDiv} {cycle : Nat} (payload : BitVec (u.W + u.W + 1))
    (h : (u.signals cycle).inpReady = false) :
    (u.offer cycle payload).edge cycle = ({ u with port := silent u.port .ldiv cycle } : LDiv).edge cycle := by
  have hregs := LDivRegs.edge_of_closed (r := u.now cycle)
    (l := { u.line cycle with valid := true, payload := payload }) (l' := { u.line cycle with valid := false }) h rfl
  exact congrArg (LDiv.mk u.W · ((u.offer cycle payload).edge cycle).port) hregs

theorem PMul.edge_offer_of_closed {u : PMul} {cycle : Nat} (payload : BitVec (u.W + u.W + 2))
    (h : (u.signals cycle).inpReady = false) :
    (u.offer cycle payload).edge cycle = ({ u with port := silent u.port .pmul cycle } : PMul).edge cycle := by
  have hstages := mulEdge_of_closed (st := u.now cycle)
    (l := { u.line cycle with valid := true, payload := payload }) (l' := { u.line cycle with valid := false }) h rfl
  exact congrArg (PMul.mk u.W · ((u.offer cycle payload).edge cycle).port) hstages

theorem MCMul.edge_offer_of_closed {u : MCMul} {cycle : Nat} (payload : BitVec (u.W + u.W + 2))
    (h : (u.signals cycle).inpReady = false) :
    (u.offer cycle payload).edge cycle = ({ u with port := silent u.port .mcmul cycle } : MCMul).edge cycle := by
  have hregs := MCMulRegs.edge_of_closed (r := u.now cycle)
    (l := { u.line cycle with valid := true, payload := payload }) (l' := { u.line cycle with valid := false }) h rfl
  exact congrArg (MCMul.mk u.W · ((u.offer cycle payload).edge cycle).port) hregs

theorem Bcd.edge_offer_of_closed {u : Bcd} {cycle : Nat} (payload : BitVec (u.W + 1))
    (h : (u.signals cycle).inpReady = false) :
    (u.offer cycle payload).edge cycle = ({ u with port := silent u.port .bcd cycle } : Bcd).edge cycle := by
  have hregs := BcdRegs.edge_of_closed (r := u.now cycle)
    (l := { u.line cycle with valid := true, payload := payload }) (l' := { u.line cycle with valid := false }) h rfl
  exact congrArg (Bcd.mk u.W u.limit u.impl u.stageCount u.latency · ((u.offer cycle payload).edge cycle).port) hregs

/-! What a closed port is offered does not reach the block's edge: no other instance sees it, and no instance refuses it. -/

theorem clock_offerNrdiv_of_closed {s : State} (h : portReady s .nrdiv = false) (g : DivSign) (n d : Nat) :
    clock (s.offerNrdiv g n d) = clock (withoutOffer s .nrdiv) :=
  clock_congr rfl rfl (congrArg (fun u => { s.edge with nrdiv := u }) (MDiv.edge_offer_of_closed _ h))

theorem clock_offerRdiv_of_closed {s : State} (h : portReady s .rdiv = false) (g : DivSign) (n d : Nat) :
    clock (s.offerRdiv g n d) = clock (withoutOffer s .rdiv) :=
  clock_congr rfl rfl (congrArg (fun u => { s.edge with rdiv := u }) (MDiv.edge_offer_of_closed _ h))

theorem clock_offerLdiv_of_closed {s : State} (h : portReady s .ldiv = false) (g : DivSign) (n d : Nat) :
    clock (s.offerLdiv g n d) = clock (withoutOffer s .ldiv) :=
  clock_congr rfl rfl (congrArg (fun u => { s.edge with ldiv := u }) (LDiv.edge_offer_of_closed _ h))

theorem clock_offerPmul_of_closed {s : State} (h : portReady s .pmul = false) (g : MulSign) (a b : Nat) :
    clock (s.offerPmul g a b) = clock (withoutOffer s .pmul) :=
  clock_congr rfl (congrArg (fun r => (Option.or r (s.mcmul.refusal s.cycle)).or (s.bcd.refusal s.cycle))
    (s.pmul.refusal_offer s.cycle g _ _)) (congrArg (fun u => { s.edge with pmul := u }) (PMul.edge_offer_of_closed _ h))

theorem clock_offerMcmul_of_closed {s : State} (h : portReady s .mcmul = false) (g : MulSign) (a b : Nat) :
    clock (s.offerMcmul g a b) = clock (withoutOffer s .mcmul) :=
  clock_congr rfl (congrArg (fun r => (Option.or (s.pmul.refusal s.cycle) r).or (s.bcd.refusal s.cycle))
    (s.mcmul.refusal_offer s.cycle g _ _)) (congrArg (fun u => { s.edge with mcmul := u }) (MCMul.edge_offer_of_closed _ h))

theorem clock_offerBcd_of_closed {s : State} (h : portReady s .bcd = false) (n : Nat) :
    clock (s.offerBcd n) = clock (withoutOffer s .bcd) :=
  clock_congr rfl (congrArg ((s.pmul.refusal s.cycle).or (s.mcmul.refusal s.cycle)).or (s.bcd.refusal_offer s.cycle _))
    (congrArg (fun u => { s.edge with bcd := u }) (Bcd.edge_offer_of_closed _ h))

/-- Settles O16: an operation is the clock edge with its payload offered, and a closed port's offer does not reach it. -/
theorem untakenOfferHasNoEffect : Obligations.UntakenOfferHasNoEffect := by
  intro i s hclosed
  cases i with
  | nrdivU n d => exact clock_offerNrdiv_of_closed hclosed .unsigned n d
  | nrdivS n d => exact clock_offerNrdiv_of_closed hclosed .signed n d
  | rdivU n d => exact clock_offerRdiv_of_closed hclosed .unsigned n d
  | rdivS n d => exact clock_offerRdiv_of_closed hclosed .signed n d
  | ldivU n d => exact clock_offerLdiv_of_closed hclosed .unsigned n d
  | ldivS n d => exact clock_offerLdiv_of_closed hclosed .signed n d
  | pmulU a b => exact clock_offerPmul_of_closed hclosed .unsigned a b
  | pmulS a b => exact clock_offerPmul_of_closed hclosed .signed a b
  | pmulSU a b => exact clock_offerPmul_of_closed hclosed .signedUnsigned a b
  | mcmulU a b => exact clock_offerMcmul_of_closed hclosed .unsigned a b
  | mcmulS a b => exact clock_offerMcmul_of_closed hclosed .signed a b
  | mcmulSU a b => exact clock_offerMcmul_of_closed hclosed .signedUnsigned a b
  | bcdU n => exact clock_offerBcd_of_closed hclosed n
  | magcmp a b => cases hclosed

/-! ### The block after construction -/

/-- No stage of an array of equal stages is valid, if that one is not. -/
theorem Stages.valid_of_mem_replicate {n : Nat} {x y : α} {valid : α → Bool} (h : valid x = false)
    (hy : y ∈ (Stages.replicate n x).items) : valid y = false := by
  rw [List.eq_of_mem_replicate hy, h]

/-- No stage of an array of equal stages holds a transaction, if that one does not. -/
theorem Stages.countP_replicate (n : Nat) {x : α} {valid : α → Bool} (h : valid x = false) :
    (Stages.replicate n x).items.countP valid = 0 :=
  List.countP_eq_zero.mpr fun _ hy => Bool.eq_false_iff.mp (Stages.valid_of_mem_replicate h hy)

/-- The converter after the first `reset()` holds nothing and is open, in either mode. -/
theorem BcdRegs.reset_empty (mode : BcdMode) (W L : Nat) (ready : Bool) :
    (BcdRegs.reset mode W L).Control ∧ (BcdRegs.reset mode W L).held = 0 ∧
      (BcdRegs.reset mode W L).inpReady ready = true ∧ (BcdRegs.reset mode W L).outValid = false := by
  cases mode with
  | sequential => exact ⟨nofun, rfl, rfl, rfl⟩
  | pipelined =>
    have hheld : (Stages.replicate L (BcdStage.reset W)).items.countP BcdStage.valid = 0 := Stages.countP_replicate L rfl
    have hvalid : (bcdTop (Stages.replicate L (BcdStage.reset W))).valid = false := Stages.valid_top_of_countP rfl hheld
    exact ⟨trivial, hheld, (pipeReady_iff _ _).mpr (.inl hvalid), hvalid⟩

/-- The block after construction is at its reset values (10_state.md R39). -/
theorem State.ofParams_atReset (p : Params) : (State.ofParams p).AtReset := by
  obtain ⟨_, _, _, _, _, ⟨_, _, _, _, mode, _⟩, _⟩ := p
  refine ⟨⟨rfl, rfl, rfl⟩, ⟨rfl, rfl, rfl⟩, ⟨rfl, rfl⟩, fun _ hx => Stages.valid_of_mem_replicate rfl hx, ⟨rfl, rfl⟩, ?_⟩
  cases mode with
  | pipelined => exact fun _ hx => Stages.valid_of_mem_replicate rfl hx
  | sequential => exact ⟨rfl, rfl⟩

/-- Settles O32: a block that is built is the reset state of its parameters, whose registers are those of `reset()`. -/
theorem resetStateIsIdle : Obligations.ResetStateIsIdle := by
  intro p s hbuild
  unfold State.build at hbuild
  split at hbuild
  next => cases hbuild
  next hfault =>
    obtain rfl := Except.ok.inj hbuild
    have hparams := State.ofParams_params p
    have hpmul : pipelineHeld (State.ofParams p).pmul.stages = 0 := Stages.countP_replicate p.pmulW rfl
    have htop : (mulTop (State.ofParams p).pmul.stages).valid = false := Stages.valid_top_of_countP rfl hpmul
    have hready : mulReady (State.ofParams p).pmul.stages true = true := (mulReady_iff _ _).mpr (.inl htop)
    obtain ⟨hcontrol, hheld, hopen, hfree⟩ := BcdRegs.reset_empty p.bcd.mode p.bcd.W p.bcd.latency true
    have hdivider : ∀ impl W, (MDivRegs.reset W).Control impl ∧ (MDivRegs.reset W).Core impl := fun _ _ =>
      ⟨⟨nofun, Nat.zero_le _, nofun, nofun, nofun⟩, nofun, nofun, nofun⟩
    refine ⟨hparams, (congrArg blockFault hparams).trans hfault, State.ofParams_atReset p,
      ⟨(hdivider _ _).1, (hdivider _ _).1, nofun, nofun, hcontrol⟩,
      ⟨(hdivider _ _).1, (hdivider _ _).2, (hdivider _ _).1, (hdivider _ _).2⟩, fun i hi hv => ?good,
      ⟨rfl, rfl, rfl, hpmul, rfl, hheld⟩, ?handshakes⟩
    case good =>
      rw [Stages.valid_of_mem_replicate (valid := MulStage.valid) rfl (List.getElem_mem hi)] at hv
      cases hv
    case handshakes =>
      have hp : ((State.ofParams p).pmul.signals 0).inpReady = true := hready
      have hpv : ((State.ofParams p).pmul.signals 0).outpValid = false := htop
      have hb : ((State.ofParams p).bcd.signals 0).inpReady = true := hopen
      have hbv : ((State.ofParams p).bcd.signals 0).outpValid = false := hfree
      show [(true, false), (true, false), (true, false), (_, _), (true, false), (_, _)] = _
      rw [show (State.ofParams p).cycle = 0 from rfl, hp, hpv, hb, hbv]

end Sys2Proof.Machine

/-! PROOFS. The dividers along a run: the core of both (41_multicycle_div.md R128, R129, R133), and the division that each of
them presents at its latency and not before (R117, R134, R135). -/

namespace Sys2Proof.Machine

open Sys2Proof.Claims

/-! ### The core register (R128, R129, R133) -/

/-- The loop begins with no bit of the dividend taken (R123). -/
theorem loopInvariant_zero (impl : Impl) (n d : Word W) : LoopInvariant impl 0 n d (n.setWidth (W + 1 + W)) :=
  ⟨fun _ => restoringLoop_zero n d, fun _ => nonRestoringLoop_zero n d⟩

/-- The loop body that `impl` selects takes the next bit of the dividend (R126). -/
theorem loopInvariant_step {impl : Impl} {n d : Word W} {x : Backing W} (hj : j < W) (h : LoopInvariant impl j n d x) :
    LoopInvariant impl (j + 1) n d (loopBody impl x d) := by
  obtain ⟨hrestoring, hnonRestoring⟩ := h
  cases impl with
  | restoring => exact ⟨fun _ => restoringLoop_step hj (hrestoring rfl), nofun⟩
  | nonRestoring => exact ⟨nofun, fun _ => nonRestoringLoop_step hj (hnonRestoring rfl)⟩

/-- Every edge of a divider keeps what its core register is for the magnitudes latched. -/
theorem MDivRegs.edge_core {impl : Impl} {r : MDivRegs W} (h : r.fsm ≠ .divideIn → r.Control impl) (hcore : r.Core impl)
    (l : Line (W + W + 1)) : (r.edge impl l).Core impl := by
  obtain ⟨hloop, hrestore, hout⟩ := hcore
  cases hfsm : r.fsm with
  | idle =>
    by_cases htake : (l.valid && r.inpReady l.ready) = true
    · obtain ⟨hvalid, hready⟩ := (Bool.and_eq_true _ _).mp htake
      rw [r.edge_accept impl l hvalid hready]
      exact ⟨nofun, nofun, nofun⟩
    · rw [r.edge_idle impl l hfsm (Bool.eq_false_iff.mpr htake)]
      exact ⟨hloop, hrestore, hout⟩
  | divideIn =>
    rw [r.edge_divideIn impl l hfsm]
    have hzero : (0#(clog2 (W + 1))).toNat = 0 := rfl
    exact ⟨fun _ => ⟨rfl, hzero ▸ loopInvariant_zero impl r.nIn r.dIn⟩, nofun, nofun⟩
  | divideLoop =>
    obtain ⟨-, -, hlt, -⟩ := h (by rw [hfsm]; nofun)
    have hlt := hlt hfsm
    obtain ⟨hdc, hinv⟩ := hloop hfsm
    have hnext := loopInvariant_step hlt hinv
    rw [r.edge_divideLoop impl l hfsm]
    have hfsm' : (r.iterate impl).fsm = if r.cnt.toNat = W - 1 then afterLoop impl else .divideLoop := hfsm ▸ rfl
    by_cases hlast : r.cnt.toNat = W - 1
    · rw [if_pos hlast] at hfsm'
      rw [show r.cnt.toNat + 1 = W by omega] at hnext
      cases impl with
      | restoring => exact ⟨fun hf => absurd (hfsm'.symm.trans hf) nofun, fun hf => absurd (hfsm'.symm.trans hf) nofun,
          fun _ => ⟨hdc, coreResult_of_restoringLoop (hnext.1 rfl)⟩⟩
      | nonRestoring => exact ⟨fun hf => absurd (hfsm'.symm.trans hf) nofun, fun _ => ⟨hdc, hnext.2 rfl⟩,
          fun hf => absurd (hfsm'.symm.trans hf) nofun⟩
    · rw [if_neg hlast] at hfsm'
      rw [← counter_succ_toNat r.cnt hlt] at hnext
      exact ⟨fun _ => ⟨hdc, hnext⟩, fun hf => absurd (hfsm'.symm.trans hf) nofun,
        fun hf => absurd (hfsm'.symm.trans hf) nofun⟩
  | restore =>
    obtain ⟨hdc, hinv⟩ := hrestore hfsm
    rw [r.edge_restore impl l hfsm]
    exact ⟨nofun, nofun, fun _ => ⟨hdc, coreResult_of_nonRestoringLoop hinv⟩⟩
  | divideOut =>
    rw [r.edge_divideOut impl l hfsm]
    exact ⟨nofun, nofun, nofun⟩

theorem MDiv.now_core {u : MDiv impl} (h : u.regs.Core impl) (cycle : Nat) : (u.now cycle).Core impl := by
  cases hreset : (u.line cycle).reset with
  | false => rwa [MDiv.now_of_noReset hreset]
  | true =>
    rw [MDiv.now_of_reset hreset]
    exact ⟨nofun, nofun, nofun⟩

/-- Settles O30: control by O29, the cores by the edge of each FSM state. -/
theorem stepKeepsDividerCores : Obligations.StepKeepsDividerCores := by
  rintro s t ⟨hcontrolN, hcoreN, hcontrolR, hcoreR⟩ hstep
  obtain ⟨hfault, -, rfl⟩ := step_next_elim hstep
  obtain ⟨hWn, hWr, -⟩ := widths_of_fault_none hfault
  have hcontrolN := MDiv.now_control hcontrolN s.cycle
  have hcontrolR := MDiv.now_control hcontrolR s.cycle
  exact ⟨(MDivRegs.edge_workload .nonRestoring _ (s.nrdiv.line s.cycle) (by omega) hcontrolN).1,
    MDivRegs.edge_core (fun _ => hcontrolN) (MDiv.now_core hcoreN s.cycle) (s.nrdiv.line s.cycle),
    (MDivRegs.edge_workload .restoring _ (s.rdiv.line s.cycle) (by omega) hcontrolR).1,
    MDivRegs.edge_core (fun _ => hcontrolR) (MDiv.now_core hcoreR s.cycle) (s.rdiv.line s.cycle)⟩

/-! ### A run, seen from one instance -/

/-- What each edge of an instance brings one nearer to, a run brings as many nearer to as it has cycles. -/
theorem runsTo_countdown {ι : Type} {get : State → ι} {edge : ι → Nat → ι}
    (hget : ∀ s : State, get s.edge = edge (get s) s.cycle) {Q : Nat → ι → Prop}
    (hedge : ∀ left u cycle, Q (left + 1) u → Q left (edge u cycle)) {left k : Nat} {s t : State} (hrun : RunsTo k s t) (h : Q (left + k) (get s)) : Q left (get t) := by
  induction k generalizing s with
  | zero => rwa [(runsTo_zero_iff s t).mp hrun] at h
  | succ k ih =>
    obtain ⟨u, hstep, hrun⟩ := (runsTo_succ_iff k s t).mp hrun
    obtain ⟨-, -, rfl⟩ := step_next_elim hstep
    exact ih hrun (hget s ▸ hedge (left + k) (get s) s.cycle h)

/-- The coming line of a port whose next lines ask for no `reset()`. -/
theorem Port.reset_line_of_noResetIn {p : Port inBits outBits} (h : NoResetIn (k + 1) p.script) (c : Component) (cycle : Nat) :
    (p.line c cycle).reset = false := by
  unfold Port.line
  cases hscript : p.script with
  | nil => rfl
  | cons l rest => exact h l (by simp [hscript])

/-- After an edge, one line fewer is known to ask for no `reset()`. -/
theorem noResetIn_tail {script : List (Line bits)} (h : NoResetIn (k + 1) script) : NoResetIn k script.tail :=
  fun l hl => h l (mem_take_of_tail hl)

/-! ### A division on its way (R117) -/

/-- The division that a divider has latched (R121). -/
def MDivRegs.Latched (r : MDivRegs W) (g : DivSign) (n d : Word W) : Prop :=
  r.signL = g ∧ r.nNeg = quadrant g n d ∧ r.dNeg = quadrant g d d ∧ r.nIn = negWhen (quadrant g n d) n ∧
    r.dIn = negWhen (quadrant g d d) d

/-- A divider `left` edges before it presents the division latched. The counter is not known before DIVIDE_IN writes it. -/
structure MDivRegs.Computing (impl : Impl) (g : DivSign) (n d : Word W) (left : Nat) (r : MDivRegs W) : Prop where
  unshown : r.outValid = false
  left_eq : (r.workload impl).left = left
  control : r.fsm ≠ .divideIn → r.Control impl
  core : r.Core impl
  latched : r.Latched g n d

/-- A divider that presents a division. -/
abbrev MDivRegs.Presents (g : DivSign) (n d : Word W) (r : MDivRegs W) : Prop :=
  r.outValid = true ∧ r.outSign = g ∧ r.fsm = .idle ∧ (r.outQ, r.outR) = divResult g n d

/-- A divider `left` edges before it presents, or presenting. -/
def MDivRegs.Serves (impl : Impl) (g : DivSign) (n d : Word W) : Nat → MDivRegs W → Prop
  | 0, r => r.Presents g n d
  | left + 1, r => r.Computing impl g n d (left + 1)

/-- The accepting edge latches the division and leaves all of its work to do. -/
theorem MDivRegs.computing_of_accept (impl : Impl) (r : MDivRegs W) (g : DivSign) (n d : Word W) :
    ({ r.accept g n d with outValid := false } : MDivRegs W).Computing impl g n d (W + closingEdges impl + 1) where
  unshown := rfl
  left_eq := rfl
  control := fun hf => absurd rfl hf
  core := ⟨nofun, nofun, nofun⟩
  latched := ⟨rfl, rfl, rfl, rfl, rfl⟩

/-- The edges of a division write none of what was latched. -/
theorem MDivRegs.edge_latched {impl : Impl} {r : MDivRegs W} (hwork : r.fsm ≠ .idle) (h : r.Latched g n d)
    (l : Line (W + W + 1)) : (r.edge impl l).Latched g n d := by
  cases hfsm : r.fsm with
  | idle => exact absurd hfsm hwork
  | divideIn => rw [r.edge_divideIn impl l hfsm]; exact h
  | divideLoop => rw [r.edge_divideLoop impl l hfsm]; exact h
  | restore => rw [r.edge_restore impl l hfsm]; exact h
  | divideOut => rw [r.edge_divideOut impl l hfsm]; exact h

/-- The last edge of a division is that of DIVIDE_OUT. -/
theorem MDivRegs.Computing.fsm_of_last {impl : Impl} {r : MDivRegs W} (hW : 1 ≤ W) (h : r.Computing impl g n d 1) :
    r.fsm = .divideOut := by
  have hleft := h.left_eq
  have hclosing := closingEdges_pos impl
  unfold MDivRegs.workload at hleft
  cases hfsm : r.fsm with
  | divideOut => rfl
  | divideLoop =>
    obtain ⟨-, -, hlt, -⟩ := h.control (by rw [hfsm]; nofun)
    have := hlt hfsm
    rw [hfsm] at hleft
    simp only at hleft
    omega
  | _ =>
    rw [hfsm] at hleft
    simp only at hleft
    omega

/-- DIVIDE_OUT presents DIVRESULT: the core result with the signs restored (R128, R130). -/
theorem MDivRegs.Computing.present {impl : Impl} {r : MDivRegs W} (hW : 1 ≤ W) (h : r.Computing impl g n d 1)
    (l : Line (W + W + 1)) : (r.edge impl l).Presents g n d := by
  have hfsm := h.fsm_of_last hW
  obtain ⟨-, -, hout⟩ := h.core
  obtain ⟨hdc, hresult⟩ := hout hfsm
  obtain ⟨hsign, hnNeg, hdNeg, hnIn, hdIn⟩ := h.latched
  rw [hdc, hnIn, hdIn] at hresult
  rw [r.edge_divideOut impl l hfsm]
  refine ⟨rfl, hsign, rfl, ?_⟩
  rw [← divResult_of_coreResult hW g n d hresult, ← hnNeg, ← hdNeg]
  rfl

/-- Every edge before the last brings the division one edge nearer. -/
theorem MDivRegs.Computing.edge {impl : Impl} {r : MDivRegs W} (hW : 1 ≤ W) (h : r.Computing impl g n d (left + 2))
    (l : Line (W + W + 1)) : (r.edge impl l).Computing impl g n d (left + 1) := by
  have hleft := h.left_eq
  have hwork : r.fsm ≠ .idle := mt (r.workload_left_eq_zero_iff impl).mpr (by omega)
  have hcore := MDivRegs.edge_core h.control h.core l
  have hlatched := r.edge_latched (impl := impl) hwork h.latched l
  by_cases hfsm : r.fsm = .divideIn
  case pos =>
    have hload := r.edge_divideIn impl l hfsm
    rw [h.unshown, Bool.false_and] at hload
    rw [MDivRegs.workload, hfsm] at hleft
    have hzero : (0#(clog2 (W + 1))).toNat = 0 := rfl
    refine ⟨hload ▸ rfl, ?_, fun _ => ?_, hcore, hlatched⟩
    · rw [hload]
      show W - (0#(clog2 (W + 1))).toNat + closingEdges impl = left + 1
      simp only at hleft
      omega
    · rw [hload]
      exact ⟨fun _ => rfl, hzero ▸ Nat.zero_le W, fun _ => hzero ▸ hW, nofun, nofun⟩
  case neg =>
    obtain ⟨hcontrol, hworkload⟩ := r.edge_workload impl l hW (h.control hfsm)
    rw [Workload.next_of_working (by omega), hleft] at hworkload
    refine ⟨?_, congrArg Workload.left hworkload, fun _ => hcontrol, hcore, hlatched⟩
    exact (congrArg Workload.shown hworkload).trans (decide_eq_false (Nat.succ_ne_succ_iff.mpr (Nat.succ_ne_zero left)))

/-- A divider on its way shows nothing and is closed. -/
theorem MDivRegs.Computing.closed {impl : Impl} {r : MDivRegs W} (h : r.Computing impl g n d (left + 1)) (ready : Bool) :
    r.outValid = false ∧ r.inpReady ready = false := by
  refine ⟨h.unshown, Bool.eq_false_iff.mpr fun hopen => ?_⟩
  have := (r.workload_left_eq_zero_iff impl).mpr ((r.inpReady_iff ready).mp hopen).1
  rw [h.left_eq] at this
  exact Nat.succ_ne_zero _ this

/-- A divider of width `W`, `left` cycles without `reset()` before it presents the division. -/
def MDiv.Serves (W : Nat) (g : DivSign) (n d : Word W) (left : Nat) (u : MDiv impl) : Prop :=
  DivHolds u W fun r => r.Serves impl g n d left ∧ NoResetIn left u.port.script

theorem MDiv.Serves.edge {W : Nat} {g : DivSign} {n d : Word W} (hW : 1 ≤ W) {u : MDiv impl}
    (h : u.Serves W g n d (left + 1)) (cycle : Nat) : (u.edge cycle).Serves W g n d left := by
  obtain ⟨r, p, rfl, hserves, hreset⟩ := h
  have hline := Port.reset_line_of_noResetIn hreset (dividerOf impl) cycle
  have hnow : (MDiv.mk W r p : MDiv impl).now cycle = r := MDiv.now_of_noReset hline
  refine ⟨_, _, rfl, ?_, noResetIn_tail hreset⟩
  rw [hnow]
  cases left with
  | zero => exact hserves.present hW _
  | succ left => exact hserves.edge hW _

theorem MDiv.Serves.closed {W : Nat} {g : DivSign} {n d : Word W} {u : MDiv impl}
    (h : u.Serves W g n d (left + 1)) (cycle : Nat) :
    (u.signals cycle).outpValid = false ∧ (u.signals cycle).inpReady = false := by
  obtain ⟨r, p, rfl, hserves, hreset⟩ := h
  have hline := Port.reset_line_of_noResetIn hreset (dividerOf impl) cycle
  have hnow : (MDiv.mk W r p : MDiv impl).now cycle = r := MDiv.now_of_noReset hline
  have hclosed := hserves.closed ((MDiv.mk W r p : MDiv impl).line cycle).ready
  rwa [← hnow] at hclosed

/-- A divider that is ready takes the division it is offered. -/
theorem MDiv.serves_of_offer {u : MDiv impl} {cycle : Nat} (g : DivSign) (n d : Word u.W)
    (hready : (u.signals cycle).inpReady = true)
    (hreset : NoResetIn (u.W + closingEdges impl + 1) ((u.offer cycle (packDivIn g.bit n d)).edge cycle).port.script) :
    ((u.offer cycle (packDivIn g.bit n d)).edge cycle).Serves u.W g n d (u.W + closingEdges impl + 1) := by
  refine ⟨_, _, rfl, ?_, hreset⟩
  have hedge := MDivRegs.edge_accept impl (u.now cycle)
    { u.line cycle with valid := true, payload := packDivIn g.bit n d } rfl hready
  rw [divSignField_packDivIn, DivSign.ofBit_bit, divLowField_packDivIn, divHighField_packDivIn] at hedge
  exact hedge ▸ MDivRegs.computing_of_accept impl (u.now cycle) g n d

/-- Along a run of either divider: closed until the cycle in which it presents the division. -/
theorem MDiv.presents_of_serves {impl : Impl} {get : State → MDiv impl}
    (hget : ∀ s : State, get s.edge = (get s).edge s.cycle) {W : Nat} {g : DivSign} {n d : Word W} (hW : 1 ≤ W)
    {K : Nat} {s t : State} (h : (get s).Serves W g n d K) (hrun : RunsTo K s t) :
    DivHolds (get t) W (MDivRegs.Presents g n d) ∧
      ∀ k u, k < K → RunsTo k s u →
        ((get u).signals u.cycle).outpValid = false ∧ ((get u).signals u.cycle).inpReady = false := by
  have hcountdown {left k u} (hrun : RunsTo k s u) (h : (get s).Serves W g n d (left + k)) : (get u).Serves W g n d left :=
    runsTo_countdown hget (Q := MDiv.Serves W g n d) (fun _ _ cycle h => h.edge hW cycle) hrun h
  constructor
  · obtain ⟨r, p, hget, hserves, -⟩ := hcountdown (left := 0) hrun (by rwa [Nat.zero_add])
    exact ⟨r, p, hget, hserves⟩
  · intro k u hk hrun
    exact (hcountdown (left := K - k - 1 + 1) hrun (by rwa [show K - k - 1 + 1 + k = K by omega])).closed u.cycle

/-- Settles O20: the accepting edge leaves all of the division's work, each edge does one part of it, and the last presents. -/
theorem dividersPresentDivresult : Obligations.DividersPresentDivresult := by
  refine ⟨fun s s1 t g n d hready hexec hreset hrun => ?nrdiv, fun s s1 t g n d hready hexec hreset hrun => ?rdiv⟩
  case nrdiv =>
    obtain ⟨hfault, -, rfl⟩ := (clock_next_iff _ _).mp ((exec_nrdivOp g n d s).symm.trans hexec)
    obtain ⟨hW, -⟩ := widths_of_fault_none hfault
    exact MDiv.presents_of_serves (get := State.nrdiv) (fun _ => rfl) (Nat.le_of_succ_le hW)
      (MDiv.serves_of_offer g _ _ hready hreset) hrun
  case rdiv =>
    obtain ⟨hfault, -, rfl⟩ := (clock_next_iff _ _).mp ((exec_rdivOp g n d s).symm.trans hexec)
    obtain ⟨-, hW, -⟩ := widths_of_fault_none hfault
    exact MDiv.presents_of_serves (get := State.rdiv) (fun _ => rfl) (Nat.le_of_succ_le hW)
      (MDiv.serves_of_offer g _ _ hready hreset) hrun

end Sys2Proof.Machine

/-! PROOFS. The long divider: its quotient-bit step as exact integers (42_long_divider.md R163, R169), the invariant of its run
(R174), and the division it presents at its latency and not before (R171 to R173). -/

namespace Sys2Proof.Machine

open Sys2Proof.Claims

/-! ### One step (R163, R169) -/

/-- A step takes the quotient bit where the candidate is no larger than the remainder. -/
theorem longTakes_iff (i : Nat) (rem : DWord W) (dv : BitVec (W + 1)) :
    longTakes i rem dv = true ↔ |(longCandidate i dv).toInt| ≤ |rem.toInt| := by
  rw [longTakes, Bool.not_eq_true', ← Bool.not_eq_true, magCompare_lt_iff, not_lt]

theorem twoPow_eq_ofInt (W i : Nat) : BitVec.twoPow W i = BitVec.ofInt W (2 ^ i) := by
  have hcast : ((2 : Int) ^ i) = ((2 ^ i : Nat) : Int) := by push_cast; rfl
  rw [hcast, BitVec.ofInt_natCast]
  exact BitVec.eq_of_toNat_eq (by rw [BitVec.toNat_twoPow, BitVec.toNat_ofNat])

/-- In the ranges of a run the candidate is exact. -/
theorem longCandidate_exact (hW : 2 ≤ W) (hi : i < W) {dv : BitVec (W + 1)} (hdv : |dv.toInt| < 2 ^ W) :
    (longCandidate i dv).toInt = dv.toInt * 2 ^ i := by
  have hlt : |dv.toInt * 2 ^ i| < 2 ^ (W + W - 1) := by
    have hpos : (0 : Int) < 2 ^ i := by positivity
    calc |dv.toInt * 2 ^ i| = |dv.toInt| * 2 ^ i := by rw [abs_mul, abs_of_pos hpos]
      _ < 2 ^ W * 2 ^ i := mul_lt_mul_of_pos_right hdv hpos
      _ = 2 ^ (W + i) := (pow_add ..).symm
      _ ≤ 2 ^ (W + W - 1) := pow_le_pow_right₀ (by norm_num) (by omega)
  obtain ⟨hl, hu⟩ := abs_lt.mp hlt
  exact longCandidate_toInt i dv (by omega) hl.le hu

/-- Settles O19: in these ranges neither the candidate nor the remainder's move leaves the signed words of `2W` bits. -/
theorem longDivisionStepIsExact : Obligations.LongDivisionStepIsExact := by
  intro W i rem dv same q hW hi hrem hdv
  have hcand := longCandidate_exact hW hi hdv
  have htakes := longTakes_iff i rem dv
  rw [hcand] at htakes
  refine ⟨fun hle => ?taken, fun hlt => ?left⟩
  case left =>
    have hleft : ¬longTakes i rem dv = true := mt htakes.mp hlt.not_ge
    exact ⟨if_neg hleft, if_neg hleft⟩
  case taken =>
    have hspace : (2 : Int) ^ (W + 1) ≤ 2 ^ (W + W - 1) := pow_le_pow_right₀ (by norm_num) (by omega)
    have hdouble : (2 : Int) ^ (W + 1) = 2 * 2 ^ W := by ring
    refine ⟨?_, if_pos (htakes.mpr hle)⟩
    have hmoves : ¬rem.toInt.natAbs < (dv.toInt * 2 ^ i).natAbs := by
      rw [← Int.ofNat_lt, ← Int.abs_eq_natAbs, ← Int.abs_eq_natAbs]
      exact hle.not_gt
    have hspec := lstepRem_spec i rem dv same _ (by omega) hcand
    rw [if_neg hmoves] at hspec
    rw [abs_lt] at hrem
    rw [Int.abs_eq_natAbs, Int.abs_eq_natAbs] at hle
    generalize dv.toInt * 2 ^ i = c at hle hspec ⊢
    exact hspec (by split <;> omega) (by split <;> omega)

/-! ### The run as exact integers (R174) -/

/-- What a run keeps, as integers: `x0` the dividend, `y` the divisor, `rem` and `Q` after the step of weight `2^i`, or before
the first one for `i = W`. -/
structure LongExact (W : Nat) (x0 y : Int) (i : Nat) (rem Q : Int) : Prop where
  exact : x0 = Q * y + rem
  le : |rem| ≤ |x0|
  nonneg : 0 ≤ x0 → 0 ≤ rem
  nonpos : x0 ≤ 0 → rem ≤ 0
  lt : y ≠ 0 → |rem| < |y * 2 ^ i|
  zero : y = 0 → rem = x0 ∧ Q = 2 ^ W - 2 ^ i

theorem LongExact.start {W : Nat} {x0 : Int} (hx0 : |x0| < 2 ^ W) (y : Int) : LongExact W x0 y W x0 0 where
  exact := by ring
  le := le_rfl
  nonneg := id
  nonpos := id
  lt := fun hy => by
    rw [abs_mul, abs_of_pos (by positivity : (0 : Int) < 2 ^ W)]
    exact hx0.trans_le (le_mul_of_one_le_left (by positivity) (Int.one_le_abs hy))
  zero := fun _ => ⟨rfl, (sub_self _).symm⟩

/-- A remainder smaller than the candidate stays. -/
theorem LongExact.stay (h : LongExact W x0 y (i + 1) rem Q) (hlt : |rem| < |y * 2 ^ i|) : LongExact W x0 y i rem Q where
  exact := h.exact
  le := h.le
  nonneg := h.nonneg
  nonpos := h.nonpos
  lt := fun _ => hlt
  zero := fun hy => by
    rw [hy, zero_mul, abs_zero] at hlt
    exact absurd (abs_nonneg rem) hlt.not_ge

/-- The candidate moves the remainder toward zero, by subtraction where the signs of dividend and divisor agree, and by addition
where they do not. -/
theorem LongExact.move {same : Bool} (hagree : same = true → 0 ≤ x0 ∧ 0 ≤ y ∨ x0 ≤ 0 ∧ y ≤ 0 ∨ y = 0)
    (hdiffer : same = false → 0 ≤ x0 ∧ y < 0 ∨ x0 ≤ 0 ∧ 0 < y) (h : LongExact W x0 y (i + 1) rem Q)
    (hle : |y * 2 ^ i| ≤ |rem|) :
    LongExact W x0 y i (if same then rem - y * 2 ^ i else rem + y * 2 ^ i) (Q + if same then 2 ^ i else -2 ^ i) := by
  have hpos : (0 : Int) < 2 ^ i := by positivity
  obtain ⟨hexact, hbound, hnonneg, hnonpos, hlt, hzero⟩ := h
  have hring : Q * y + rem =
      (Q + if same then 2 ^ i else -2 ^ i) * y + (if same then rem - y * 2 ^ i else rem + y * 2 ^ i) := by
    cases same <;> simp only [Bool.false_eq_true, if_false, if_true] <;> ring
  have hdouble : y * 2 ^ (i + 1) = 2 * (y * 2 ^ i) := by ring
  have hsign : (0 < y → 0 < y * 2 ^ i) ∧ (y < 0 → y * 2 ^ i < 0) ∧ (y = 0 → y * 2 ^ i = 0) :=
    ⟨fun hy => by positivity, fun hy => mul_neg_of_neg_of_pos hy hpos, fun hy => by rw [hy, zero_mul]⟩
  rw [hdouble] at hlt
  constructor
  case exact => exact hexact.trans hring
  case zero =>
    intro hy
    have hsame : same = true := by
      by_contra hs
      have := hdiffer (Bool.eq_false_iff.mpr hs)
      omega
    obtain ⟨hrem, hQ⟩ := hzero hy
    rw [if_pos hsame, if_pos hsame, hsign.2.2 hy, sub_zero, hQ]
    exact ⟨hrem, by ring⟩
  all_goals
    clear hring hexact hzero
    simp only [Int.abs_eq_natAbs] at hbound hlt hle ⊢
    generalize y * 2 ^ i = c at *
    cases same <;> simp only [Bool.false_eq_true, if_false, if_true, forall_const] at * <;> omega

/-! ### The long divider's run (R174) -/

theorem longDividend_toInt (hW : 1 ≤ W) (g : DivSign) (n : Word W) : (longDividend g n).toInt = divOperand g n := by
  cases g with
  | unsigned =>
    have hn := n.isLt
    have hwide : (n.setWidth (W + W)).toNat = n.toNat := BitVec.toNat_setWidth_of_le (by omega)
    have hspace : 2 ^ (W + 1) ≤ 2 ^ (W + W) := Nat.pow_le_pow_right (by decide) (by omega)
    have hdouble : 2 ^ (W + 1) = 2 * 2 ^ W := by ring
    rw [longDividend, divOperand, BitVec.toInt_eq_toNat_of_lt (by omega), hwide]
  | signed => exact BitVec.toInt_signExtend_of_le (by omega)

theorem longDivisor_toInt (g : DivSign) (d : Word W) : (longDivisor g d).toInt = divOperand g d := by
  cases g with
  | unsigned => exact setWidth_succ_toInt d
  | signed => exact BitVec.toInt_signExtend_of_le (by omega)

theorem abs_divOperand_lt (g : DivSign) (v : Word W) : |divOperand g v| < 2 ^ W := by
  cases g with
  | unsigned =>
    rw [divOperand, abs_of_nonneg (Int.natCast_nonneg _)]
    exact_mod_cast v.isLt
  | signed =>
    have hl := BitVec.two_mul_toInt_lt (x := v)
    have hu := BitVec.le_two_mul_toInt (x := v)
    have hpos : (0 : Int) < 2 ^ W := by positivity
    exact abs_lt.mpr ⟨by rw [divOperand]; omega, by rw [divOperand]; omega⟩

/-- Where `same` is set, the dividend and the divisor have one sign, or the divisor is zero (R170). -/
theorem signs_of_same {g : DivSign} {n d : Word W} (h : sameSign g n d = true) :
    0 ≤ divOperand g n ∧ 0 ≤ divOperand g d ∨ divOperand g n ≤ 0 ∧ divOperand g d ≤ 0 ∨ divOperand g d = 0 := by
  cases g with
  | unsigned => exact .inl ⟨Int.natCast_nonneg _, Int.natCast_nonneg _⟩
  | signed =>
    simp only [sameSign, Bool.or_eq_true, decide_eq_true_eq, BitVec.msb_eq_toInt, decide_eq_decide] at h
    simp only [divOperand]
    rcases h with hzero | hsame
    · exact .inr (.inr (hzero ▸ BitVec.toInt_zero))
    · omega

/-- Where `same` is not set, the signs of dividend and divisor differ (R170). -/
theorem signs_of_not_same {g : DivSign} {n d : Word W} (h : sameSign g n d = false) :
    0 ≤ divOperand g n ∧ divOperand g d < 0 ∨ divOperand g n ≤ 0 ∧ 0 < divOperand g d := by
  cases g with
  | unsigned => cases h
  | signed =>
    simp only [sameSign, Bool.or_eq_false_iff, decide_eq_false_iff_not, BitVec.msb_eq_toInt, decide_eq_decide] at h
    obtain ⟨hd, hdiffer⟩ := h
    have hzero : d.toInt ≠ 0 := mt (divOperand_eq_zero_iff .signed d).mp hd
    simp only [divOperand]
    omega

/-- The registers of the run are what `LongExact` says, and the quotient register is the quotient. -/
theorem longRun_exact (hW : 2 ≤ W) (g : DivSign) (n d : Word W) {k : Nat} (hk : k ≤ W) :
    LongExact W (divOperand g n) (divOperand g d) (W - k) (longRun g n d k).1.toInt (longRun g n d k).2.2 ∧
      (longRun g n d k).2.1 = BitVec.ofInt W (longRun g n d k).2.2 := by
  induction k with
  | zero =>
    simp only [longRun, longDividend_toInt (by omega : 1 ≤ W)]
    exact ⟨LongExact.start (abs_divOperand_lt g n) _, rfl⟩
  | succ k ih =>
    obtain ⟨hexact, hquo⟩ := ih (Nat.le_of_succ_le hk)
    have hdv := abs_divOperand_lt g d
    have hrem := hexact.le.trans_lt (abs_divOperand_lt g n)
    rw [← longDivisor_toInt g d] at hdv
    obtain ⟨htaken, hleft⟩ := longDivisionStepIsExact W (W - 1 - k) (longRun g n d k).1 (longDivisor g d) (sameSign g n d)
      (longRun g n d k).2.1 hW (by omega) hrem hdv
    have htakes := longTakes_iff (W - 1 - k) (longRun g n d k).1 (longDivisor g d)
    rw [longCandidate_exact hW (by omega) hdv] at htakes
    rw [longDivisor_toInt] at htaken hleft htakes
    rw [show W - k = W - 1 - k + 1 by omega] at hexact
    rw [show W - (k + 1) = W - 1 - k by omega]
    simp only [longRun]
    by_cases hle : |divOperand g d * 2 ^ (W - 1 - k)| ≤ |(longRun g n d k).1.toInt|
    · obtain ⟨hrem', hquo'⟩ := htaken hle
      rw [hrem', hquo', if_pos (htakes.mpr hle)]
      refine ⟨hexact.move signs_of_same signs_of_not_same hle, ?_⟩
      rw [twoPow_eq_ofInt, hquo, BitVec.ofInt_add]
      cases sameSign g n d
      · simp only [Bool.false_eq_true, if_false, BitVec.ofInt_neg, BitVec.sub_eq_add_neg]
      · rfl
    · obtain ⟨hrem', hquo'⟩ := hleft (not_le.mp hle)
      rw [hrem', hquo', if_neg (mt htakes.mp hle)]
      exact ⟨hexact.stay (not_le.mp hle), hquo⟩

/-- Settles O49. -/
theorem longDivisionInvariant : Obligations.LongDivisionInvariant := by
  intro W g n d k hW _ hk
  obtain ⟨hexact, hquo⟩ := longRun_exact hW g n d hk
  have hzero := divOperand_eq_zero_iff g d
  refine ⟨hquo, hexact.exact, fun hd => ?lt, ?sign, fun hd => hexact.zero (hzero.mpr hd)⟩
  case lt =>
    have hlt := hexact.lt (mt hzero.mp hd)
    rwa [abs_mul, abs_of_pos (by positivity : (0 : Int) < 2 ^ (W - k))] at hlt
  case sign =>
    rcases le_total 0 (divOperand g n) with h | h
    · exact mul_nonneg (hexact.nonneg h) h
    · exact mul_nonneg_of_nonpos_of_nonpos (hexact.nonpos h) h

end Sys2Proof.Machine

/-! PROOFS. The long divider along a run: the division that it presents at its latency and not before (42_long_divider.md R171 to
R173). -/

namespace Sys2Proof.Machine

open Sys2Proof.Claims

/-! ### The end of the run is DIVRESULT -/

/-- A word cut to its low part is its signed value cut to words. -/
theorem setWidth_eq_ofInt_toInt (hW : v ≤ w) (x : BitVec w) : x.setWidth v = BitVec.ofInt v x.toInt := by
  apply BitVec.eq_of_toInt_eq
  have hdvd : 2 ^ v ∣ 2 ^ w := Nat.pow_dvd_pow 2 hW
  rw [BitVec.toInt_setWidth, BitVec.toInt_ofInt, BitVec.toInt_eq_toNat_bmod, Int.bmod_bmod_of_dvd hdvd]

/-- A quotient and a remainder that is smaller than the divisor and has the dividend's sign are those of truncating division. -/
theorem LongExact.tdiv_tmod (h : LongExact W x0 y 0 rem Q) (hy : y ≠ 0) : x0.tdiv y = Q ∧ x0.tmod y = rem := by
  have hlt := h.lt hy
  have hexact : rem + y * Q = x0 := by rw [h.exact]; ring
  rw [pow_zero, mul_one, Int.abs_eq_natAbs, Int.abs_eq_natAbs] at hlt
  rcases le_total 0 x0 with hx0 | hx0
  · have hrem := h.nonneg hx0
    exact (Int.tdiv_tmod_unique hx0 hy).mpr ⟨hexact, hrem, by omega⟩
  · have hrem := h.nonpos hx0
    exact (Int.tdiv_tmod_unique' hx0 hy).mpr ⟨hexact, by omega, hrem⟩

/-- After all `W` steps the quotient register and the low half of the remainder are DIVRESULT. -/
theorem longRun_divResult (hW : 2 ≤ W) (g : DivSign) (n d : Word W) :
    ((longRun g n d W).2.1, (longRun g n d W).1.setWidth W) = divResult g n d := by
  obtain ⟨hexact, hquo⟩ := longRun_exact hW g n d le_rfl
  rw [Nat.sub_self] at hexact
  rw [hquo, setWidth_eq_ofInt_toInt (by omega : W ≤ W + W)]
  by_cases hd : d = 0#W
  · obtain ⟨hrem, hQ⟩ := hexact.zero ((divOperand_eq_zero_iff g d).mpr hd)
    have hones : BitVec.ofInt W (2 ^ W - 1) = onesWord W := by
      have hpos : 0 < 2 ^ W := by positivity
      rw [show (2 : Int) ^ W - 1 = ((2 ^ W - 1 : Nat) : Int) by push_cast [Nat.cast_sub hpos]; rfl, BitVec.ofInt_natCast]
      apply BitVec.eq_of_toNat_eq
      rw [BitVec.toNat_ofNat, Nat.mod_eq_of_lt (by omega), onesWord, BitVec.toNat_allOnes]
    rw [hrem, hQ, pow_zero, hones, ofInt_divOperand, divResult, if_pos hd]
  · obtain ⟨hdiv, hmod⟩ := hexact.tdiv_tmod (mt (divOperand_eq_zero_iff g d).mp hd)
    rw [divResult_of_ne_zero (by omega) g n hd, hdiv, hmod]

/-! ### A division on its way (R162, R164) -/

/-- The division latched, after `k` of its steps. -/
def LDivRegs.Stepped (g : DivSign) (n d : Word W) (k : Nat) (r : LDivRegs W) : Prop :=
  r.rem = (longRun g n d k).1 ∧ r.q = (longRun g n d k).2.1 ∧ r.dv = longDivisor g d ∧ r.same = sameSign g n d ∧ r.signL = g

/-- The long divider `left` edges before it presents the division: the steps of the weights from `left - 1` down are to come. -/
structure LDivRegs.Computing (g : DivSign) (n d : Word W) (left : Nat) (r : LDivRegs W) : Prop where
  busy : r.busy = true
  unshown : r.outValid = false
  index : r.i.toNat + 1 = left
  left_lt : left < W
  stepped : r.Stepped g n d (W - left)

/-- The long divider presenting a division. -/
abbrev LDivRegs.Presents (g : DivSign) (n d : Word W) (r : LDivRegs W) : Prop :=
  r.outValid = true ∧ r.signL = g ∧ r.busy = false ∧ (r.q, r.rem.setWidth W) = divResult g n d

/-- The long divider `left` edges before it presents, or presenting. -/
def LDivRegs.Serves (g : DivSign) (n d : Word W) : Nat → LDivRegs W → Prop
  | 0, r => r.Presents g n d
  | left + 1, r => r.Computing g n d (left + 1)

/-- A busy edge takes the step of the index's weight. -/
theorem LDivRegs.edge_stepped {r : LDivRegs W} (hbusy : r.busy = true) (h : r.Stepped g n d k) (hk : W - 1 - k = r.i.toNat)
    (l : Line (W + W + 1)) : (r.edge l).Stepped g n d (k + 1) := by
  obtain ⟨hrem, hq, hdv, hsame, hsign⟩ := h
  rw [r.edge_busy l hbusy]
  refine ⟨?_, ?_, hdv, hsame, hsign⟩
  · rw [longRun, hk, ← hrem, ← hdv, ← hsame]
    rfl
  · rw [longRun, hk, ← hrem, ← hq, ← hdv, ← hsame]
    rfl

theorem LDivRegs.Computing.edge {r : LDivRegs W} (h : r.Computing g n d (left + 2)) (l : Line (W + W + 1)) :
    (r.edge l).Computing g n d (left + 1) := by
  have hindex : r.i.toNat = left + 1 := by have := h.index; omega
  have hlt := h.left_lt
  have hstepped := LDivRegs.edge_stepped h.busy h.stepped (by omega) l
  have hcontrol := r.edge_busy_control l h.busy
  rw [if_neg (by omega)] at hcontrol
  obtain ⟨hbusy, hi, hshown⟩ := hcontrol
  refine ⟨hbusy, ?_, by omega, by omega, ?_⟩
  · rw [hshown, h.unshown, Bool.false_and]
  · rwa [show W - (left + 1) = W - (left + 2) + 1 by omega]

theorem LDivRegs.Computing.present {r : LDivRegs W} (hW : 2 ≤ W) (h : r.Computing g n d 1) (l : Line (W + W + 1)) :
    (r.edge l).Presents g n d := by
  have hindex : r.i.toNat = 0 := by have := h.index; omega
  have hstepped := LDivRegs.edge_stepped h.busy h.stepped (by omega) l
  rw [show W - 1 + 1 = W by omega] at hstepped
  obtain ⟨hrem, hq, -, -, hsign⟩ := hstepped
  have hcontrol := r.edge_busy_control l h.busy
  rw [if_pos hindex] at hcontrol
  obtain ⟨hbusy, hshown, -⟩ := hcontrol
  refine ⟨hshown, hsign, hbusy, ?_⟩
  rw [hrem, hq]
  exact longRun_divResult hW g n d

theorem LDivRegs.Computing.closed {r : LDivRegs W} (h : r.Computing g n d left) (ready : Bool) :
    r.outValid = false ∧ r.inpReady ready = false := by
  refine ⟨h.unshown, Bool.eq_false_iff.mpr fun hopen => ?_⟩
  have hidle := ((r.inpReady_iff ready).mp hopen).1
  rw [h.busy] at hidle
  cases hidle

/-- The accepting edge takes the first step (R162). -/
theorem LDivRegs.computing_of_accept (hW : 2 ≤ W) (r : LDivRegs W) (g : DivSign) (n d : Word W) :
    ({ r.accept g n d with outValid := false } : LDivRegs W).Computing g n d (W - 1) where
  busy := rfl
  unshown := rfl
  index := by
    have hindex := index_ofNat_toNat hW
    show (BitVec.ofNat (clog2 W) (W - 2)).toNat + 1 = W - 1
    omega
  left_lt := by omega
  stepped := by
    rw [show W - (W - 1) = 1 by omega]
    exact ⟨rfl, rfl, rfl, rfl, rfl⟩

/-! ### The instance -/

/-- A long divider of width `W`, `left` cycles without `reset()` before it presents the division. -/
def LDiv.Serves (W : Nat) (g : DivSign) (n d : Word W) (left : Nat) (u : LDiv) : Prop :=
  LongHolds u W fun r => r.Serves g n d left ∧ NoResetIn left u.port.script

theorem LDiv.Serves.edge {W : Nat} {g : DivSign} {n d : Word W} (hW : 2 ≤ W) {u : LDiv} (h : u.Serves W g n d (left + 1))
    (cycle : Nat) : (u.edge cycle).Serves W g n d left := by
  obtain ⟨r, p, rfl, hserves, hreset⟩ := h
  have hnow : (LDiv.mk W r p).now cycle = r := LDiv.now_of_noReset (Port.reset_line_of_noResetIn hreset .ldiv cycle)
  refine ⟨_, _, rfl, ?_, noResetIn_tail hreset⟩
  rw [hnow]
  cases left with
  | zero => exact hserves.present hW _
  | succ left => exact hserves.edge _

theorem LDiv.Serves.closed {W : Nat} {g : DivSign} {n d : Word W} {u : LDiv} (h : u.Serves W g n d (left + 1)) (cycle : Nat) :
    (u.signals cycle).outpValid = false ∧ (u.signals cycle).inpReady = false := by
  obtain ⟨r, p, rfl, hserves, hreset⟩ := h
  have hnow : (LDiv.mk W r p).now cycle = r := LDiv.now_of_noReset (Port.reset_line_of_noResetIn hreset .ldiv cycle)
  have hclosed := hserves.closed ((LDiv.mk W r p).line cycle).ready
  rwa [← hnow] at hclosed

/-- A long divider that is ready takes the division it is offered. -/
theorem LDiv.serves_of_offer {u : LDiv} (hW : 2 ≤ u.W) {cycle : Nat} (g : DivSign) (n d : Word u.W)
    (hready : (u.signals cycle).inpReady = true)
    (hreset : NoResetIn (u.W - 1) ((u.offer cycle (packDivIn g.bit n d)).edge cycle).port.script) :
    ((u.offer cycle (packDivIn g.bit n d)).edge cycle).Serves u.W g n d (u.W - 1) := by
  refine ⟨_, _, rfl, ?_, hreset⟩
  have hedge := LDivRegs.edge_accept (u.now cycle)
    { u.line cycle with valid := true, payload := packDivIn g.bit n d } rfl hready
  rw [divSignField_packDivIn, DivSign.ofBit_bit, divLowField_packDivIn, divHighField_packDivIn] at hedge
  have hcomputing := hedge ▸ LDivRegs.computing_of_accept hW (u.now cycle) g n d
  rw [show u.W - 1 = u.W - 2 + 1 by omega] at hcomputing ⊢
  exact hcomputing

/-- Settles O21: the accepting edge takes the first step, each busy edge the next, and the last one presents. -/
theorem longDividerPresentsDivresult : Obligations.LongDividerPresentsDivresult := by
  intro s s1 t g n d hready hexec hreset hrun
  obtain ⟨hfault, -, rfl⟩ := (clock_next_iff _ _).mp ((exec_ldivOp g n d s).symm.trans hexec)
  obtain ⟨-, -, hW, -⟩ := widths_of_fault_none hfault
  have hserves := LDiv.serves_of_offer hW g _ _ hready hreset
  have hcountdown {left k u} (hrun : RunsTo k (s.offerLdiv g n d).edge u) (hk : left + k = s.ldiv.W - 1) :
      u.ldiv.Serves s.ldiv.W g (fieldWord s.ldiv.W n) (fieldWord s.ldiv.W d) left :=
    runsTo_countdown (get := State.ldiv) (fun _ => rfl) (fun _ _ cycle h => LDiv.Serves.edge hW h cycle) hrun (hk ▸ hserves)
  constructor
  · obtain ⟨r, p, hget, hpresents, -⟩ := hcountdown (left := 0) hrun (Nat.zero_add _)
    exact ⟨r, p, hget, hpresents⟩
  · intro k u hk hrun
    exact (hcountdown (left := s.ldiv.W - 1 - k - 1 + 1) hrun (by omega)).closed u.cycle

end Sys2Proof.Machine

/-! PROOFS. Products: operands and registers read with the multipliers' tags (43_pipelined_mul.md R187, R189), and the register of
the multi-cycle multiplier after every step (44_multicycle_mul.md R220). -/

namespace Sys2Proof.Machine

open Sys2Proof.Claims

/-! ### NORM (R187) -/

theorem normNegates_iff (g : MulSign) (b : Word W) : normNegates g.code b = true ↔ g = .signed ∧ b.msb = true := by
  cases g <;> simp [normNegates, MulSign.code]

/-- A word's negative fits one bit more. -/
theorem neg_signExtend_toInt (a : Word W) : (-(a.signExtend (W + 1))).toInt = -a.toInt := by
  have hl := BitVec.two_mul_toInt_lt (x := a)
  have hu := BitVec.le_two_mul_toInt (x := a)
  rw [BitVec.toInt_neg, BitVec.toInt_signExtend_of_le (by omega)]
  have hpos : (0 : Int) < 2 ^ W := by positivity
  exact bmod_exact W (by omega) (by omega)

/-- The multiplicand after NORM is the operand, negated where NORM negates. -/
theorem normA_toInt (g : MulSign) (a b : Word W) :
    (normA g.code a b).toInt = if normNegates g.code b then -mulOperandA g a else mulOperandA g a := by
  have hsigned : (a.signExtend (W + 1)).toInt = a.toInt := BitVec.toInt_signExtend_of_le (by omega)
  unfold normA
  cases hneg : normNegates g.code b with
  | true =>
    obtain ⟨rfl, -⟩ := (normNegates_iff g b).mp hneg
    exact neg_signExtend_toInt a
  | false =>
    cases g with
    | unsigned => exact setWidth_succ_toInt a
    | signed => exact hsigned
    | signedUnsigned => exact hsigned

/-- The multiplier after NORM, read unsigned, is the operand, negated where NORM negates. -/
theorem normB_toNat (g : MulSign) (b : Word W) :
    ((normB g.code b).toNat : Int) = if normNegates g.code b then -mulOperandB g b else mulOperandB g b := by
  have hb := b.isLt
  have hread := BitVec.toInt_eq_msb_cond b
  unfold normB
  cases hneg : normNegates g.code b with
  | true =>
    obtain ⟨rfl, hmsb⟩ := (normNegates_iff g b).mp hneg
    have hpos : b.toNat ≠ 0 := fun hzero => by
      rw [BitVec.eq_of_toNat_eq (hzero.trans (BitVec.toNat_zero (w := W)).symm), BitVec.msb_zero] at hmsb
      cases hmsb
    rw [if_pos hmsb] at hread
    rw [if_pos rfl, if_pos rfl, mulOperandB, BitVec.toNat_neg, Nat.mod_eq_of_lt (by omega), hread]
    push_cast [Nat.cast_sub hb.le]
    ring
  | false =>
    cases g with
    | unsigned => rfl
    | signedUnsigned => rfl
    | signed =>
      have hmsb : ¬b.msb = true := fun hmsb =>
        Bool.false_ne_true (hneg.symm.trans ((normNegates_iff .signed b).mpr ⟨rfl, hmsb⟩))
      rw [if_neg hmsb] at hread
      exact hread.symm

/-- Settles O50: NORM negates both operands or none. -/
theorem normKeepsTheProduct : Obligations.NormKeepsTheProduct := by
  intro W g a b _
  rw [normA_toInt, normB_toNat]
  split
  · exact neg_mul_neg _ _
  · rfl

/-! ### A register read with a multiplier's tag -/

/-- A register read as the product of a transaction with this tag. -/
def mulRead (g : MulSign) (x : BitVec w) : Int := if g = .unsigned then (x.toNat : Int) else x.toInt

/-- The integers that `w` bits hold of a product with this tag. -/
def MulFits (g : MulSign) (w : Nat) (y : Int) : Prop :=
  if g = .unsigned then 0 ≤ y ∧ y < 2 ^ w else -2 ^ w ≤ 2 * y ∧ 2 * y < 2 ^ w

theorem ofInt_mulRead (g : MulSign) (x : BitVec w) : BitVec.ofInt w (mulRead g x) = x := by
  unfold mulRead
  split
  · rw [BitVec.ofInt_natCast, BitVec.ofNat_toNat, BitVec.setWidth_eq]
  · exact BitVec.ofInt_toInt

theorem setWidth_eq_ofInt_mulRead (hw : v ≤ w) (g : MulSign) (x : BitVec w) :
    x.setWidth v = BitVec.ofInt v (mulRead g x) := by
  unfold mulRead
  split
  · rw [BitVec.ofInt_natCast, BitVec.ofNat_toNat]
  · exact setWidth_eq_ofInt_toInt hw x

theorem mulRead_ofInt (hw : 1 ≤ w) {g : MulSign} {y : Int} (h : MulFits g w y) : mulRead g (BitVec.ofInt w y) = y := by
  unfold MulFits at h
  unfold mulRead
  split
  next hg =>
    rw [if_pos hg] at h
    obtain ⟨hl, hu⟩ := h
    rw [BitVec.toNat_ofInt]
    push_cast
    rw [Int.emod_eq_of_lt hl hu, Int.toNat_of_nonneg hl]
  next hg =>
    rw [if_neg hg] at h
    obtain ⟨w, rfl⟩ : ∃ v, w = v + 1 := ⟨w - 1, by omega⟩
    have hdouble : (2 : Int) ^ (w + 1) = 2 * 2 ^ w := by ring
    rw [BitVec.toInt_ofInt]
    exact bmod_exact w (by omega) (by omega)

/-- The bits of a register below `2^k` are those of what it is read as. -/
theorem mulRead_emod (hk : k ≤ w) (g : MulSign) (x : BitVec w) : mulRead g x % 2 ^ k = ((x.toNat % 2 ^ k : Nat) : Int) := by
  have hdvd : (2 : Int) ^ k ∣ ((2 ^ w : Nat) : Int) := by push_cast; exact pow_dvd_pow 2 hk
  unfold mulRead
  push_cast
  split
  · rfl
  · rw [BitVec.toInt_eq_toNat_bmod, ← Int.emod_emod_of_dvd _ hdvd, Int.bmod_emod, Int.emod_emod_of_dvd _ hdvd]

theorem abs_mulOperandB_lt (g : MulSign) (b : Word W) : |mulOperandB g b| < 2 ^ W := by
  cases g with
  | signed => exact abs_divOperand_lt .signed b
  | unsigned => exact abs_divOperand_lt .unsigned b
  | signedUnsigned => exact abs_divOperand_lt .unsigned b

/-- A multiplicand, or what NORM made of it: one sign bit more than its magnitude is not needed. -/
def IsMultiplicand (g : MulSign) (W : Nat) (x : Int) : Prop := if g = .unsigned then 0 ≤ x ∧ x < 2 ^ W else |2 * x| ≤ 2 ^ W

theorem isMultiplicand_neg (h : IsMultiplicand .signed W x) : IsMultiplicand .signed W (-x) := by
  unfold IsMultiplicand at *
  rwa [mul_neg, abs_neg]

theorem isMultiplicand_mulOperandA (g : MulSign) (a : Word W) : IsMultiplicand g W (mulOperandA g a) := by
  have hl := BitVec.two_mul_toInt_lt (x := a)
  have hu := BitVec.le_two_mul_toInt (x := a)
  have hsigned : |2 * a.toInt| ≤ 2 ^ W := abs_le.mpr ⟨by omega, by omega⟩
  cases g with
  | unsigned => exact inRange_divOperand .unsigned a
  | signed => exact hsigned
  | signedUnsigned => exact hsigned

theorem isMultiplicand_normA (g : MulSign) (a b : Word W) : IsMultiplicand g W (normA g.code a b).toInt := by
  rw [normA_toInt]
  have ha := isMultiplicand_mulOperandA g a
  split
  next hneg =>
    obtain ⟨rfl, -⟩ := (normNegates_iff g b).mp hneg
    exact isMultiplicand_neg ha
  next => exact ha

/-- A product by a number below `2^k`, moved up by `m` bits, and `m` bits below it, fit `W + k + m` bits. -/
theorem mulFits_of_parts {g : MulSign} {W k m : Nat} {x y z : Int} (hW : 1 ≤ W) (hx : IsMultiplicand g W x) (hy : |y| < 2 ^ k)
    (hynonneg : g = .unsigned → 0 ≤ y) (hz : 0 ≤ z) (hz' : z < 2 ^ m) : MulFits g (W + k + m) (x * y * 2 ^ m + z) := by
  have hm : (0 : Int) < 2 ^ m := by positivity
  unfold IsMultiplicand at hx
  unfold MulFits
  rw [pow_add, pow_add]
  split at hx
  next hg =>
    obtain ⟨hx0, hx⟩ := hx
    have hy0 := hynonneg hg
    rw [if_pos hg]
    have hlt : x * y < 2 ^ W * 2 ^ k := mul_lt_mul'' hx (abs_lt.mp hy).2 hx0 hy0
    have hle : (x * y + 1) * 2 ^ m ≤ 2 ^ W * 2 ^ k * 2 ^ m := mul_le_mul_of_nonneg_right hlt hm.le
    refine ⟨by positivity, ?_⟩
    linarith
  next hg =>
    rw [if_neg hg]
    have hle : |2 * (x * y)| ≤ 2 ^ W * (2 ^ k - 1) := by
      rw [← mul_assoc, abs_mul]
      exact mul_le_mul hx (Int.le_sub_one_of_lt hy) (abs_nonneg _) (by positivity)
    obtain ⟨hl, hu⟩ := abs_le.mp hle
    have hl := mul_le_mul_of_nonneg_right hl hm.le
    have hu := mul_le_mul_of_nonneg_right hu hm.le
    have htwo : (2 : Int) * 2 ^ m ≤ 2 ^ W * 2 ^ m :=
      mul_le_mul_of_nonneg_right (by exact_mod_cast Nat.le_self_pow (by omega) 2) hm.le
    constructor <;> linarith

/-- Settles O51: the product of the operands fits `2W` bits as the tag reads them. -/
theorem mulresultIsExact : Obligations.MulresultIsExact := by
  intro W g a b hW
  have hnonneg : g = .unsigned → 0 ≤ mulOperandB g b := by rintro rfl; exact Int.natCast_nonneg _
  have hfits := mulFits_of_parts (m := 0) (by omega) (isMultiplicand_mulOperandA g a) (abs_mulOperandB_lt g b) hnonneg le_rfl
    Int.one_pos
  rw [pow_zero, mul_one, Nat.add_zero, Int.add_zero] at hfits
  exact mulRead_ofInt (by omega) hfits

/-! ### One step of the shift-add register (44_multicycle_mul.md R213) -/

/-- The conditional add, as integers modulo the register. -/
theorem mstepAdd_eq_ofInt (g : MulSign) (x : Backing W) (a1 : BitVec (W + 1)) :
    mstepAdd x a1 = BitVec.ofInt (W + 1 + W) (mulRead g x + if x.getLsbD 0 then a1.toInt * 2 ^ W else 0) := by
  rw [BitVec.ofInt_add, ofInt_mulRead, mstepAdd]
  split
  · rw [mul_comm, ← BitVec.toInt_append_zero, BitVec.ofInt_toInt]
  · exact (BitVec.add_zero x).symm

/-- MSTEP adds and halves, exactly where the sum fits the register. -/
theorem mulRead_mstep {g : MulSign} {x : Backing W} {a1 : BitVec (W + 1)} {y : Int}
    (hy : y = mulRead g x + if x.getLsbD 0 then a1.toInt * 2 ^ W else 0) (hfits : MulFits g (W + 1 + W) y) :
    mulRead g (mstep x a1 g.code) = y / 2 := by
  have hsum : mulRead g (mstepAdd x a1) = y := by
    rw [mstepAdd_eq_ofInt g, ← hy]
    exact mulRead_ofInt (by omega) hfits
  rw [← hsum, mstep]
  by_cases hg : g = .unsigned
  · subst hg
    rw [if_pos rfl, mulRead, mulRead, if_pos rfl, if_pos rfl, BitVec.toNat_ushiftRight, Nat.shiftRight_eq_div_pow]
    rfl
  · have hcode : g.code ≠ MulSign.unsigned.code := by revert hg; cases g <;> decide
    rw [if_neg hcode, mulRead, mulRead, if_neg hg, if_neg hg, BitVec.toInt_sshiftRight, Int.shiftRight_eq_div_pow]
    rfl

/-! ### The shift-add register after every step (R220) -/

/-- The number in the shift-add register after `k` steps: the product by the low `k` multiplier bits above, the bits still to
come below. -/
theorem mulRead_shiftAddRun (hW : 1 ≤ W) (g : MulSign) (a b : Word W) {k : Nat} (hk : k ≤ W) :
    mulRead g (shiftAddRun g a b k) =
      (normA g.code a b).toInt * (((normB g.code b).toNat % 2 ^ k : Nat) : Int) * 2 ^ (W - k) +
        (((normB g.code b).toNat / 2 ^ k : Nat) : Int) := by
  have hmultiplicand := isMultiplicand_normA g a b
  have hB := (normB g.code b).isLt
  induction k with
  | zero =>
    have hwide : ((normB g.code b).setWidth (W + 1 + W)).toNat = (normB g.code b).toNat := BitVec.toNat_setWidth_of_le (by omega)
    have hspace : 2 ^ (W + 1) ≤ 2 ^ (W + 1 + W) := Nat.pow_le_pow_right (by decide) (by omega)
    have hdouble : 2 ^ (W + 1) = 2 * 2 ^ W := by ring
    have hsigned : ((normB g.code b).setWidth (W + 1 + W)).toInt = (normB g.code b).toNat := by
      rw [BitVec.toInt_eq_toNat_of_lt (by omega), hwide]
    have hread : mulRead g ((normB g.code b).setWidth (W + 1 + W)) = (normB g.code b).toNat := by
      rw [mulRead, hsigned, hwide, ite_self]
    rw [pow_zero, Nat.mod_one, Nat.div_one, Int.natCast_zero, mul_zero, zero_mul, zero_add]
    exact hread
  | succ k ih =>
    have ih := ih (Nat.le_of_succ_le hk)
    have hstep : shiftAddRun g a b (k + 1) = mstep (shiftAddRun g a b k) (normA g.code a b) g.code :=
      Function.iterate_succ_apply' ..
    generalize shiftAddRun g a b k = x at ih hstep
    generalize hA : (normA g.code a b).toInt = A at *
    generalize (normB g.code b).toNat = B at *
    have hhalf : (2 : Int) ^ (W - k) = 2 * 2 ^ (W - (k + 1)) := by rw [show W - k = W - (k + 1) + 1 by omega]; ring
    have hbit : x.toNat % 2 = B / 2 ^ k % 2 := by
      have hmod := mulRead_emod (k := 1) (by omega) g x
      rw [ih, hhalf, pow_one, show ∀ u v w : Int, u * v * (2 * w) = 2 * (u * v * w) from fun _ _ _ => by ring,
        Int.mul_add_emod_self_left] at hmod
      exact_mod_cast hmod.symm
    have hsum : A * ((B % 2 ^ (k + 1) : Nat) : Int) * 2 ^ (W - k) + ((B / 2 ^ k : Nat) : Int) =
        mulRead g x + if x.getLsbD 0 then (normA g.code a b).toInt * 2 ^ W else 0 := by
      have hpow : (2 : Int) ^ W = 2 ^ k * 2 ^ (W - k) := by rw [← pow_add, Nat.add_sub_cancel' (by omega)]
      have hlsb : x.getLsbD 0 = decide (x.toNat % 2 = 1) := by rw [BitVec.getLsbD, Nat.testBit_zero]
      rw [ih, hA, hpow, Nat.mod_pow_succ, ← hbit, hlsb]
      rcases Nat.mod_two_eq_zero_or_one x.toNat with hzero | hone
      · rw [hzero, decide_eq_false (by decide), if_neg Bool.false_ne_true, mul_zero, add_zero, add_zero]
      · rw [hone, decide_eq_true rfl, if_pos rfl]
        push_cast
        ring
    have hfits : MulFits g (W + 1 + W) (A * ((B % 2 ^ (k + 1) : Nat) : Int) * 2 ^ (W - k) + ((B / 2 ^ k : Nat) : Int)) := by
      have hlow : B % 2 ^ (k + 1) < 2 ^ (k + 1) := Nat.mod_lt _ (by positivity)
      have hrest : B / 2 ^ k < 2 ^ (W - k) :=
        Nat.div_lt_of_lt_mul (by rwa [← pow_add, Nat.add_sub_cancel' (by omega)])
      have hparts := mulFits_of_parts (k := k + 1) (m := W - k) (y := ((B % 2 ^ (k + 1) : Nat) : Int))
        (z := ((B / 2 ^ k : Nat) : Int)) hW hmultiplicand (by rw [abs_of_nonneg (Int.natCast_nonneg _)]; exact_mod_cast hlow)
        (fun _ => Int.natCast_nonneg _) (Int.natCast_nonneg _) (by exact_mod_cast hrest)
      rwa [show W + (k + 1) + (W - k) = W + 1 + W by omega] at hparts
    have hdiv : B / 2 ^ (k + 1) = B / 2 ^ k / 2 := by rw [pow_succ, Nat.div_div_eq_div_mul]
    rw [hstep, mulRead_mstep hsum hfits, hhalf, hdiv,
      show ∀ u v w q : Int, u * v * (2 * w) + q = q + 2 * (u * v * w) from fun _ _ _ _ => by ring,
      Int.add_mul_ediv_left _ _ (by norm_num), add_comm]
    rfl

/-- Settles O52: the parts of that number, which lie in different bits of the register. -/
theorem shiftAddInvariant : Obligations.ShiftAddInvariant := by
  intro W g a b k hW _ hk
  have hread := mulRead_shiftAddRun (by omega) g a b hk
  have hrest : (normB g.code b).toNat / 2 ^ k < 2 ^ (W - k) :=
    Nat.div_lt_of_lt_mul (by rw [← pow_add, Nat.add_sub_cancel' hk]; exact (normB g.code b).isLt)
  have hrest' : (((normB g.code b).toNat / 2 ^ k : Nat) : Int) < 2 ^ (W - k) := by exact_mod_cast hrest
  have hpos : (0 : Int) < 2 ^ (W - k) := by positivity
  constructor
  · show mulRead g (shiftAddRun g a b k) / 2 ^ (W - k) = _
    rw [hread, add_comm, Int.add_mul_ediv_right _ _ hpos.ne', Int.ediv_eq_zero_of_lt (Int.natCast_nonneg _) hrest', zero_add]
  · have hmod := mulRead_emod (k := W - k) (by omega) g (shiftAddRun g a b k)
    rw [hread, Int.mul_add_emod_self_right, Int.emod_eq_of_lt (Int.natCast_nonneg _) hrest'] at hmod
    exact_mod_cast hmod.symm

/-- After all `W` steps the low part of the register is MULRESULT (44_multicycle_mul.md R214, R220). -/
theorem shiftAddRun_mulResult (hW : 2 ≤ W) (g : MulSign) (a b : Word W) :
    (shiftAddRun g a b W).setWidth (W + W) = mulResult g a b := by
  have hread := mulRead_shiftAddRun (by omega) g a b le_rfl
  have hB := (normB g.code b).isLt
  rw [Nat.sub_self, pow_zero, mul_one, Nat.mod_eq_of_lt hB, Nat.div_eq_of_lt hB, normKeepsTheProduct W g a b hW, Int.natCast_zero,
    add_zero] at hread
  rw [setWidth_eq_ofInt_mulRead (by omega : W + W ≤ W + 1 + W) g, hread, mulResult]

end Sys2Proof.Machine

/-! PROOFS. The multi-cycle multiplier along a run: the product that it presents at its latency and not before
(44_multicycle_mul.md R216, R218 to R220). -/

namespace Sys2Proof.Machine

open Sys2Proof.Claims

/-! ### A product on its way (R212, R215) -/

/-- The multi-cycle multiplier `left` edges before it presents the product: its register is that of the steps its counter has
counted. -/
structure MCMulRegs.Computing (g : MulSign) (a b : Word W) (left : Nat) (r : MCMulRegs W) : Prop where
  busy : r.busy = true
  unshown : r.outValid = false
  count : r.cnt.toNat + left = W
  register : r.X = shiftAddRun g a b r.cnt.toNat
  multiplicand : r.a1 = normA g.code a b
  sign : r.signL = g.code

/-- The multi-cycle multiplier presenting a product. -/
abbrev MCMulRegs.Presents (g : MulSign) (a b : Word W) (r : MCMulRegs W) : Prop :=
  r.outValid = true ∧ r.signL = g.code ∧ r.busy = false ∧ r.X.setWidth (W + W) = mulResult g a b

/-- The multi-cycle multiplier `left` edges before it presents, or presenting. -/
def MCMulRegs.Serves (g : MulSign) (a b : Word W) : Nat → MCMulRegs W → Prop
  | 0, r => r.Presents g a b
  | left + 1, r => r.Computing g a b (left + 1)

/-- A busy edge takes the next step. -/
theorem MCMulRegs.Computing.edge_register {r : MCMulRegs W} (h : r.Computing g a b left) (l : Line (W + W + 2)) :
    (r.edge l).X = shiftAddRun g a b (r.cnt.toNat + 1) ∧ (r.edge l).a1 = normA g.code a b ∧ (r.edge l).signL = g.code := by
  have hstep : shiftAddRun g a b (r.cnt.toNat + 1) = mstep (shiftAddRun g a b r.cnt.toNat) (normA g.code a b) g.code :=
    Function.iterate_succ_apply' ..
  rw [hstep, ← h.register, ← h.multiplicand, ← h.sign, r.edge_busy l h.busy]
  exact ⟨rfl, rfl, rfl⟩

theorem MCMulRegs.Computing.edge {r : MCMulRegs W} (h : r.Computing g a b (left + 2)) (l : Line (W + W + 2)) :
    (r.edge l).Computing g a b (left + 1) := by
  have hcount := h.count
  have hcnt : (r.edge l).cnt.toNat = r.cnt.toNat + 1 := by
    rw [r.edge_busy l h.busy]
    exact counter_succ_toNat r.cnt (by omega)
  obtain ⟨hregister, hmultiplicand, hsign⟩ := h.edge_register l
  have hcontrol := r.edge_busy_control l h.busy
  rw [if_neg (by omega)] at hcontrol
  obtain ⟨hbusy, hshown⟩ := hcontrol
  exact ⟨hbusy, by rw [hshown, h.unshown, Bool.false_and], by omega, by rw [hregister, hcnt], hmultiplicand, hsign⟩

theorem MCMulRegs.Computing.present {r : MCMulRegs W} (hW : 2 ≤ W) (h : r.Computing g a b 1) (l : Line (W + W + 2)) :
    (r.edge l).Presents g a b := by
  obtain ⟨hregister, -, hsign⟩ := h.edge_register l
  have hcontrol := r.edge_busy_control l h.busy
  rw [if_pos h.count] at hcontrol
  obtain ⟨hbusy, hshown⟩ := hcontrol
  refine ⟨hshown, hsign, hbusy, ?_⟩
  rw [hregister, h.count]
  exact shiftAddRun_mulResult hW g a b

theorem MCMulRegs.Computing.closed {r : MCMulRegs W} (h : r.Computing g a b left) (ready : Bool) :
    r.outValid = false ∧ r.inpReady ready = false := by
  refine ⟨h.unshown, Bool.eq_false_iff.mpr fun hopen => ?_⟩
  have hidle := ((r.inpReady_iff ready).mp hopen).1
  rw [h.busy] at hidle
  cases hidle

/-- The accepting edge takes the first step (R212). -/
theorem MCMulRegs.computing_of_accept (hW : 1 ≤ W) (r : MCMulRegs W) (g : MulSign) (a b : Word W) :
    ({ r.accept g.code a b with outValid := false } : MCMulRegs W).Computing g a b (W - 1) := by
  have hone : (1#(clog2 (W + 1))).toNat = 1 := counter_ofNat_toNat hW
  refine ⟨rfl, rfl, ?_, ?_, rfl, rfl⟩
  · show (1#(clog2 (W + 1))).toNat + (W - 1) = W
    omega
  · show _ = shiftAddRun g a b (1#(clog2 (W + 1))).toNat
    rw [hone]
    rfl

/-! ### The instance -/

/-- A multi-cycle multiplier of width `W`, `left` cycles without `reset()` before it presents the product. -/
def MCMul.Serves (W : Nat) (g : MulSign) (a b : Word W) (left : Nat) (u : MCMul) : Prop :=
  MulHolds u W fun r => r.Serves g a b left ∧ NoResetIn left u.port.script

theorem MCMul.Serves.edge {W : Nat} {g : MulSign} {a b : Word W} (hW : 2 ≤ W) {u : MCMul} (h : u.Serves W g a b (left + 1))
    (cycle : Nat) : (u.edge cycle).Serves W g a b left := by
  obtain ⟨r, p, rfl, hserves, hreset⟩ := h
  have hnow : (MCMul.mk W r p).now cycle = r := MCMul.now_of_noReset (Port.reset_line_of_noResetIn hreset .mcmul cycle)
  refine ⟨_, _, rfl, ?_, noResetIn_tail hreset⟩
  rw [hnow]
  cases left with
  | zero => exact hserves.present hW _
  | succ left => exact hserves.edge _

theorem MCMul.Serves.closed {W : Nat} {g : MulSign} {a b : Word W} {u : MCMul} (h : u.Serves W g a b (left + 1))
    (cycle : Nat) : (u.signals cycle).outpValid = false ∧ (u.signals cycle).inpReady = false := by
  obtain ⟨r, p, rfl, hserves, hreset⟩ := h
  have hnow : (MCMul.mk W r p).now cycle = r := MCMul.now_of_noReset (Port.reset_line_of_noResetIn hreset .mcmul cycle)
  have hclosed := hserves.closed ((MCMul.mk W r p).line cycle).ready
  rwa [← hnow] at hclosed

/-- A multi-cycle multiplier that is ready takes the product it is offered. -/
theorem MCMul.serves_of_offer {u : MCMul} (hW : 2 ≤ u.W) {cycle : Nat} (g : MulSign) (a b : Word u.W)
    (hready : (u.signals cycle).inpReady = true)
    (hreset : NoResetIn (u.W - 1) ((u.offer cycle (packMulIn g.code a b)).edge cycle).port.script) :
    ((u.offer cycle (packMulIn g.code a b)).edge cycle).Serves u.W g a b (u.W - 1) := by
  refine ⟨_, _, rfl, ?_, hreset⟩
  have hedge := MCMulRegs.edge_accept (u.now cycle)
    { u.line cycle with valid := true, payload := packMulIn g.code a b } rfl hready
  rw [mulSignField_packMulIn, mulAField_packMulIn, mulBField_packMulIn] at hedge
  have hcomputing := hedge ▸ MCMulRegs.computing_of_accept (by omega) (u.now cycle) g a b
  rw [show u.W - 1 = u.W - 2 + 1 by omega] at hcomputing ⊢
  exact hcomputing

/-- Settles O23: the accepting edge takes the first step, each busy edge the next, and the last one presents. -/
theorem shiftAddPresentsMulresult : Obligations.ShiftAddPresentsMulresult := by
  intro s s1 t g a b hready hexec hreset hrun
  obtain ⟨hfault, -, rfl⟩ := (clock_next_iff _ _).mp ((exec_mcmulOp g a b s).symm.trans hexec)
  obtain ⟨-, -, -, -, hW, -⟩ := widths_of_fault_none hfault
  have hserves := MCMul.serves_of_offer hW g _ _ hready hreset
  have hcountdown {left k u} (hrun : RunsTo k (s.offerMcmul g a b).edge u) (hk : left + k = s.mcmul.W - 1) :
      u.mcmul.Serves s.mcmul.W g (fieldWord s.mcmul.W a) (fieldWord s.mcmul.W b) left :=
    runsTo_countdown (get := State.mcmul) (fun _ => rfl) (fun _ _ cycle h => MCMul.Serves.edge hW h cycle) hrun (hk ▸ hserves)
  constructor
  · obtain ⟨r, p, hget, hpresents, -⟩ := hcountdown (left := 0) hrun (Nat.zero_add _)
    exact ⟨r, p, hget, hpresents⟩
  · intro k u hk hrun
    exact (hcountdown (left := s.mcmul.W - 1 - k - 1 + 1) hrun (by omega)).closed u.cycle

end Sys2Proof.Machine

/-! PROOFS. The multiplier pipeline: every stage's partial product (43_pipelined_mul.md R199), the pipeline as a queue of exact
products (20_memory.md R47, 43_pipelined_mul.md R196, R198), and a product's way to the output (R194). -/

namespace Sys2Proof.Machine

open Sys2Proof.Claims

/-! ### Partial products (R191, R199) -/

/-- The product by the low `i` bits of the multiplier. -/
def lowProduct (i : Nat) (a : BitVec (W + 1)) (b : Word W) : DWord W :=
  BitVec.ofInt (W + W) (a.toInt * ((b.toNat % 2 ^ i : Nat) : Int))

theorem lowProduct_zero (a : BitVec (W + 1)) (b : Word W) : lowProduct 0 a b = 0#(W + W) := by
  rw [lowProduct, pow_zero, Nat.mod_one, Int.natCast_zero, mul_zero]
  rfl

/-- The partial product of bit `i` is what that bit adds. -/
theorem lowProduct_succ (hW : 1 ≤ W) (i : Nat) (a : BitVec (W + 1)) (b : Word W) :
    lowProduct (i + 1) a b = lowProduct i a b + partialProduct i a b := by
  have hbit : b.getLsbD i = decide (b.toNat / 2 ^ i % 2 = 1) := by rw [BitVec.getLsbD, Nat.testBit_eq_decide_div_mod_eq]
  rw [partialProduct_spec i a b hW, lowProduct, lowProduct, ← BitVec.ofInt_add, Nat.mod_pow_succ, hbit]
  rcases Nat.mod_two_eq_zero_or_one (b.toNat / 2 ^ i) with hzero | hone
  · rw [hzero, decide_eq_false (by decide), if_neg Bool.false_ne_true]
    simp only [mul_zero, add_zero]
  · rw [hone, decide_eq_true rfl, if_pos rfl]
    push_cast
    ring_nf

/-- The product by all bits. -/
theorem lowProduct_all (a : BitVec (W + 1)) (b : Word W) :
    lowProduct W a b = BitVec.ofInt (W + W) (a.toInt * (b.toNat : Int)) := by
  rw [lowProduct, Nat.mod_eq_of_lt b.isLt]

/-- What NORM's words are multiplied to is MULRESULT (R187, R189). -/
theorem lowProduct_norm (hW : 2 ≤ W) (g : MulSign) (a b : Word W) :
    lowProduct W (normA g.code a b) (normB g.code b) = mulResult g a b := by
  rw [lowProduct_all, normKeepsTheProduct W g a b hW, mulResult]

theorem MulStage.acc_capture (hW : 1 ≤ W) (valid : Bool) (sign : BitVec 2) (a b : Word W) :
    (MulStage.capture valid sign a b).acc = lowProduct 1 (normA sign a b) (normB sign b) := by
  rw [lowProduct_succ hW, lowProduct_zero, BitVec.zero_add]
  rfl

theorem MulStage.acc_advance (hW : 1 ≤ W) {i : Nat} {p : MulStage W} (h : p.acc = lowProduct i p.a p.b) :
    (p.advance i).acc = lowProduct (i + 1) p.a p.b := by
  rw [lowProduct_succ hW, ← h]
  rfl

/-! ### Every stage is good (R199) -/

theorem pipelineGood_iff (st : Stages (MulStage W) W) : PipelineGood st ↔
    ∀ i (p : MulStage W), st.items[i]? = some p → p.Good i := by
  constructor
  · intro h i p hp
    obtain ⟨hi, rfl⟩ := List.getElem?_eq_some_iff.mp hp
    exact h i hi
  · exact fun h i hi => h i _ (List.getElem?_eq_getElem hi)

theorem MulStage.Good.advance (hW : 1 ≤ W) {i : Nat} {p : MulStage W} (h : p.Good i) : (p.advance (i + 1)).Good (i + 1) := by
  intro hvalid
  obtain ⟨hacc, hsign⟩ := h hvalid
  exact ⟨MulStage.acc_advance hW hacc, hsign⟩

/-- An edge that takes in no reserved tag keeps every stage good. -/
theorem pipelineGood_mulEdge (hW : 1 ≤ W) {st : Stages (MulStage W) W} (h : PipelineGood st) {l : Line (W + W + 2)}
    (hunreserved : ¬(l.valid = true ∧ mulReady st l.ready = true ∧ mulSignField l.payload = 3#2)) :
    PipelineGood (mulEdge st l) := by
  cases hready : mulReady st l.ready with
  | false => rwa [mulEdge_frozen st l hready]
  | true =>
    rw [pipelineGood_iff] at h ⊢
    intro i p hp
    rw [mulEdge_getElem? st l hready] at hp
    split at hp
    next hi =>
      cases i with
      | zero =>
        obtain rfl := Option.some.inj hp
        exact fun hvalid => ⟨MulStage.acc_capture hW _ _ _ _, fun htag => hunreserved ⟨hvalid, hready, htag⟩⟩
      | succ j =>
        obtain ⟨q, hq, rfl⟩ := Option.map_eq_some_iff.mp hp
        exact (h j q hq).advance hW
    next => cases hp

/-- Stages after `reset()` are good: none holds a transaction. -/
theorem PMul.now_good {u : PMul} (h : PipelineGood u.stages) (cycle : Nat) : PipelineGood (u.now cycle) := by
  cases hreset : (u.line cycle).reset with
  | false => rwa [PMul.now_of_noReset hreset]
  | true =>
    rw [PMul.now_of_reset hreset]
    intro i hi hvalid
    obtain ⟨j, -, hj⟩ := List.mem_map.mp (List.getElem_mem hi)
    rw [← hj] at hvalid
    cases hvalid

/-- Settles O31: an edge that is taken takes in no reserved tag. -/
theorem stepKeepsPipelineGood : Obligations.StepKeepsPipelineGood := by
  intro s t hgood hstep
  obtain ⟨hfault, hrefusal, rfl⟩ := step_next_elim hstep
  obtain ⟨-, -, -, hW, -⟩ := widths_of_fault_none hfault
  obtain ⟨hpmul, -⟩ := (refusal_eq_none_iff s).mp hrefusal
  exact pipelineGood_mulEdge (by omega) (PMul.now_good hgood s.cycle) ((s.pmul.refusal_eq_none_iff s.cycle).mp hpmul)

/-! ### The pipeline as a queue (20_memory.md R47) -/

/-- A good transaction in the last stage is presented as its outcome. -/
theorem pipelinePayload_eq_outcome (hW : 1 ≤ W) {st : Stages (MulStage W) W} (h : PipelineGood st)
    (hvalid : (mulTop st).valid = true) : pipelinePayload st = (mulTop st).outcome := by
  have hlast : st.items[W - 1]? = some (mulTop st) := by
    have hlt : W - 1 < st.items.length := by rw [st.length_eq]; omega
    rw [mulTop, Stages.top_eq, List.getElem?_eq_getElem hlt, Option.getD_some]
  obtain ⟨hacc, -⟩ := (pipelineGood_iff st).mp h _ _ hlast hvalid
  rw [show W - 1 + 1 = W by omega] at hacc
  rw [pipelinePayload, MulStage.outcome, ← lowProduct_all]
  exact congrArg _ hacc

/-- What an operand pair is presented as, once captured, is its product with its tag. -/
theorem MulStage.outcome_capture (hW : 2 ≤ W) (valid : Bool) (g : MulSign) (a b : Word W) :
    (MulStage.capture valid g.code a b).outcome = packMulOut g.code (mulResult g a b) := by
  rw [MulStage.outcome, ← lowProduct_all, ← lowProduct_norm hW]
  rfl

/-- The transfers observed at a port, after an edge. -/
theorem map_snd_log_of_portAfter {p p' : Port inBits outBits} {cycle : Nat} {valid ready : Bool} {payload : BitVec outBits}
    (h : PortAfter p p' cycle valid ready payload) :
    p'.log.map Prod.snd = p.log.map Prod.snd ++ if valid && ready then [payload] else [] := by
  rw [h.2, List.map_append]
  split <;> rfl

/-- What a line hands to a pipeline: the outcome of what stage 0 captures, if the transfer takes place. -/
def mulTaken (l : Line (W + W + 2)) (ready : Bool) : List (BitVec (W + W + 2)) :=
  if l.valid && ready then
    [(MulStage.capture l.valid (mulSignField l.payload) (mulAField l.payload) (mulBField l.payload)).outcome]
  else []

/-- The stages and the port of a good pipeline are a queue. -/
theorem pipeline_queue (hW : 1 ≤ W) {st : Stages (MulStage W) W} (hgood : PipelineGood st) (l : Line (W + W + 2))
    {p p' : Port (W + W + 2) (W + W + 2)} {cycle : Nat}
    (hport : PortAfter p p' cycle (mulTop st).valid l.ready (pipelinePayload st)) :
    p'.log.map Prod.snd ++ pipelinePending (mulEdge st l) =
      p.log.map Prod.snd ++ pipelinePending st ++ mulTaken l (mulReady st l.ready) := by
  have hqueue := Stages.pending_clocked (valid := MulStage.valid) (out := MulStage.outcome) (f := MulStage.advance)
    (fun _ _ => rfl) (fun _ _ => rfl) st hW (MulStage.reset W)
    (MulStage.capture l.valid (mulSignField l.payload) (mulAField l.payload) (mulBField l.payload)) l.ready
  have hleaves : (if (mulTop st).valid && l.ready then [pipelinePayload st] else []) =
      if (mulTop st).valid && l.ready then [(mulTop st).outcome] else [] := by
    split
    next h => rw [pipelinePayload_eq_outcome hW hgood ((Bool.and_eq_true _ _).mp h).1]
    next => rfl
  rw [map_snd_log_of_portAfter hport, hleaves, List.append_assoc, List.append_assoc, mulEdge_eq_clocked, pipelinePending_eq,
    pipelinePending_eq]
  exact congrArg _ hqueue

/-- Settles O26: what is handed to the pipeline has no reserved tag, and its outcome is its product. -/
theorem pipelineIsAFaithfulQueue : Obligations.PipelineIsAFaithfulQueue := by
  intro s t hgood hreset hstep
  obtain ⟨hfault, hrefusal, rfl⟩ := step_next_elim hstep
  obtain ⟨-, -, -, hW, -⟩ := widths_of_fault_none hfault
  obtain ⟨hpmul, -⟩ := (refusal_eq_none_iff s).mp hrefusal
  have hunreserved := (s.pmul.refusal_eq_none_iff s.cycle).mp hpmul
  have hqueue := pipeline_queue (by omega) (PMul.now_good hgood s.cycle) (s.pmul.line s.cycle) (s.pmul.edge_portAfter s.cycle)
  refine ⟨_, _, rfl, hqueue.trans ?_⟩
  rw [PMul.now_of_noReset hreset] at hqueue ⊢
  congr 1
  split
  next htag =>
    refine if_neg fun htaken => hunreserved ?_
    obtain ⟨hvalid, hready⟩ := (Bool.and_eq_true _ _).mp htaken
    rw [← PMul.now_of_noReset hreset] at hready
    exact ⟨hvalid, hready, MulSign.ofCode_eq_none.mp htag⟩
  next g htag =>
    rw [mulTaken, ← MulSign.code_of_ofCode htag, MulStage.outcome_capture hW, ← PMul.now_of_noReset hreset]
    rfl

/-! ### A product on its way (R194) -/

/-- A product captured, at stage `i`. -/
def MulStage.Carries (g : MulSign) (a b : Word W) (i : Nat) (p : MulStage W) : Prop :=
  p.valid = true ∧ p.sign = g.code ∧ p.a = normA g.code a b ∧ p.b = normB g.code b ∧ p.acc = lowProduct (i + 1) p.a p.b

theorem MulStage.carries_capture (hW : 1 ≤ W) (g : MulSign) (a b : Word W) :
    (MulStage.capture true g.code a b).Carries g a b 0 :=
  ⟨rfl, rfl, rfl, rfl, MulStage.acc_capture hW _ _ _ _⟩

theorem MulStage.Carries.advance {W i : Nat} {g : MulSign} {a b : Word W} (hW : 1 ≤ W) {p : MulStage W}
    (h : p.Carries g a b i) :
    (p.advance (i + 1)).Carries g a b (i + 1) := by
  obtain ⟨hvalid, hsign, ha, hb, hacc⟩ := h
  exact ⟨hvalid, hsign, ha, hb, MulStage.acc_advance hW hacc⟩

/-- The pipeline of width `W` with the product at stage `i`. -/
def PMul.Carries (W : Nat) (g : MulSign) (a b : Word W) (i : Nat) (u : PMul) : Prop :=
  ∃ st p, u = ⟨W, st, p⟩ ∧ ∃ x, st.items[i]? = some x ∧ x.Carries g a b i

/-- An edge carries the product one stage further exactly if it advances the pipeline. -/
theorem PMul.Carries.edge {W : Nat} {g : MulSign} {a b : Word W} {i : Nat} (hW : 1 ≤ W) {u : PMul} (h : u.Carries W g a b i)
    {cycle : Nat} (hreset : (u.line cycle).reset = false) (hi : i + (u.signals cycle).inpReady.toNat < W) :
    (u.edge cycle).Carries W g a b (i + (u.signals cycle).inpReady.toNat) := by
  obtain ⟨st, p, rfl, x, hx, hcarries⟩ := h
  refine ⟨_, _, rfl, ?_⟩
  have hnow : (PMul.mk W st p).now cycle = st := PMul.now_of_noReset hreset
  have hready : ((PMul.mk W st p).signals cycle).inpReady = mulReady st ((PMul.mk W st p).line cycle).ready :=
    congrArg (mulReady · _) hnow
  rw [hready] at hi ⊢
  rw [hnow]
  cases hadv : mulReady st ((PMul.mk W st p).line cycle).ready with
  | false =>
    rw [mulEdge_frozen st _ hadv]
    exact ⟨x, hx, hcarries⟩
  | true =>
    have hi : i + 1 < W := by rwa [hadv] at hi
    have hnext := mulEdge_getElem? st ((PMul.mk W st p).line cycle) hadv (i + 1)
    rw [if_pos hi, if_neg (Nat.succ_ne_zero i), Nat.add_sub_cancel, hx] at hnext
    exact ⟨_, hnext, hcarries.advance hW⟩

/-- In the last stage the product is presented: MULRESULT with its tag (R189, R193). -/
theorem MulStage.Carries.acc_last {W : Nat} {g : MulSign} {a b : Word W} (hW : 2 ≤ W) {p : MulStage W}
    (h : p.Carries g a b (W - 1)) :
    p.valid = true ∧ p.sign = g.code ∧ p.acc = mulResult g a b := by
  obtain ⟨hvalid, hsign, ha, hb, hacc⟩ := h
  refine ⟨hvalid, hsign, ?_⟩
  rw [hacc, ha, hb, show W - 1 + 1 = W by omega, lowProduct_norm hW]

/-- Along a run the product goes on by as many stages as the pipeline advances. -/
theorem PMul.Carries.run {W : Nat} {g : MulSign} {a b : Word W} (hW : 1 ≤ W) {k i : Nat} {s t : State}
    (h : s.pmul.Carries W g a b i) (hreset : NoResetIn k s.pmul.port.script) (hrun : RunsTo k s t)
    (hi : i + pmulAdvances k s < W) : t.pmul.Carries W g a b (i + pmulAdvances k s) := by
  induction k generalizing s i with
  | zero =>
    obtain rfl := (runsTo_zero_iff s t).mp hrun
    exact h
  | succ k ih =>
    obtain ⟨u, hstep, hrun⟩ := (runsTo_succ_iff k s t).mp hrun
    have hadvances : pmulAdvances (k + 1) s = (s.pmul.signals s.cycle).inpReady.toNat + pmulAdvances k u := by
      rw [pmulAdvances, hstep]
    obtain ⟨-, -, rfl⟩ := step_next_elim hstep
    rw [hadvances, ← Nat.add_assoc] at hi ⊢
    exact ih (h.edge hW (Port.reset_line_of_noResetIn hreset .pmul s.cycle) (by omega)) (noResetIn_tail hreset) hrun hi

/-- Settles O22: the accepting edge puts the product into stage 0, and `W-1` advances bring it to the last stage. -/
theorem pipelinePresentsMulresult : Obligations.PipelinePresentsMulresult := by
  intro s s1 t g a b k hready hexec hreset hrun hadvances
  obtain ⟨hfault, -, rfl⟩ := (clock_next_iff _ _).mp ((exec_pmulOp g a b s).symm.trans hexec)
  obtain ⟨-, -, -, hW, -⟩ := widths_of_fault_none hfault
  have hW : 2 ≤ s.pmul.W := hW
  have hstart : (s.offerPmul g a b).edge.pmul.Carries s.pmul.W g (fieldWord s.pmul.W a) (fieldWord s.pmul.W b) 0 := by
    refine ⟨_, _, rfl, _, ?_, MulStage.carries_capture (by omega) g _ _⟩
    have hfirst := mulEdge_getElem? (s.pmul.now s.cycle) { s.pmul.line s.cycle with
      valid := true, payload := packMulIn g.code (fieldWord s.pmul.W a) (fieldWord s.pmul.W b) } hready 0
    rw [if_pos (by omega), if_pos rfl, mulSignField_packMulIn, mulAField_packMulIn, mulBField_packMulIn] at hfirst
    exact hfirst
  obtain ⟨st, p, hget, x, hx, hcarries⟩ := hstart.run (by omega) hreset hrun (by omega)
  rw [hadvances, Nat.zero_add] at hx hcarries
  have htop : mulTop st = x := by rw [mulTop, Stages.top_eq, hx, Option.getD_some]
  obtain ⟨hvalid, hsign, hacc⟩ := MulStage.Carries.acc_last hW hcarries
  exact ⟨st, p, hget, htop ▸ hvalid, htop ▸ hsign, htop ▸ hacc⟩

end Sys2Proof.Machine

/-! PROOFS. The converter: double dabble (45_bcd.md R237), either mode as a queue of digit payloads (20_memory.md R47, 45_bcd.md
R244), and the digits it presents at its latency (R241 to R243). -/

namespace Sys2Proof.Machine

open Sys2Proof.Claims

/-! ### Double dabble (R237) -/

/-- The `D` lowest decimal digits of `v`, the least significant first. -/
def digitList (D v : Nat) : List Nat := (List.range D).map fun j => v / 10 ^ j % 10

theorem digitList_succ (D v : Nat) : digitList (D + 1) v = v % 10 :: digitList D (v / 10) := by
  have hnext : ∀ j, v / 10 ^ (j + 1) % 10 = v / 10 / 10 ^ j % 10 := fun j => by
    rw [Nat.div_div_eq_div_mul, ← pow_succ']
  rw [digitList, List.range_succ_eq_map, List.map_cons, List.map_map, pow_zero, Nat.div_one, digitList]
  exact congrArg _ (List.map_congr_left fun j _ => hnext j)

theorem digitList_zero (D : Nat) : digitList D 0 = List.replicate D 0 := by
  refine List.eq_replicate_iff.mpr ⟨by rw [digitList, List.length_map, List.length_range], fun x hx => ?_⟩
  obtain ⟨j, -, rfl⟩ := List.mem_map.mp hx
  rw [Nat.zero_div, Nat.zero_mod]

/-- One column: the digit of the doubled number with what is shifted in, and the bit that leaves for the next column. -/
theorem addThree_column {d c : Nat} (hd : d < 10) (hc : c < 2) :
    (2 * addThree d + c) % 16 = (2 * d + c) % 10 ∧ (2 * addThree d + c) / 16 = (2 * d + c) / 10 := by
  unfold addThree
  split <;> omega

/-- One round turns the digits of `v` into those of `2v + c`. -/
theorem shiftDigits_digitList {c : Nat} (hc : c < 2) (D v : Nat) :
    shiftDigits c ((digitList D v).map addThree) = digitList D (2 * v + c) := by
  induction D generalizing c v with
  | zero => rfl
  | succ D ih =>
    obtain ⟨hdigit, hcarry⟩ := addThree_column (Nat.mod_lt v (by decide : 0 < 10)) hc
    rw [digitList_succ, digitList_succ, List.map_cons, shiftDigits, hdigit, hcarry, ih (by omega)]
    congr 1
    · omega
    · congr 1
      omega

/-- From the digits of the input's high bits, the remaining rounds give the digits of the input. -/
theorem dabbleFrom_digitList (D : Nat) (n : Word W) (j : Nat) :
    dabbleFrom n j (digitList D (n.toNat / 2 ^ j)) = digitList D n.toNat := by
  induction j with
  | zero => rw [dabbleFrom, pow_zero, Nat.div_one]
  | succ j ih =>
    have hbit : (n.getLsbD j).toNat = n.toNat / 2 ^ j % 2 := by
      rw [BitVec.getLsbD, Nat.testBit_eq_decide_div_mod_eq]
      rcases Nat.mod_two_eq_zero_or_one (n.toNat / 2 ^ j) with h | h <;> rw [h] <;> rfl
    have hhalf : 2 * (n.toNat / 2 ^ (j + 1)) + n.toNat / 2 ^ j % 2 = n.toNat / 2 ^ j := by
      rw [pow_succ, ← Nat.div_div_eq_div_mul]
      omega
    rw [dabbleFrom, hbit, shiftDigits_digitList (Nat.mod_lt _ (by decide)), hhalf, ih]

/-- Settles O55: the columns begin with the digits of 0, and after `W` rounds hold those of the input, over range too. -/
theorem doubleDabbleIsBcdresult : Obligations.DoubleDabbleIsBcdresult := by
  intro W D n _
  have hrounds := dabbleFrom_digitList D n W
  rwa [Nat.div_eq_of_lt n.isLt, digitList_zero] at hrounds

/-! ### The converter as a queue (20_memory.md R47) -/

/-- What a line hands to the converter: the digit payload of its number, if the transfer takes place. -/
def bcdTaken (D : Nat) (l : Line (W + 1)) (ready : Bool) : List (BitVec (4 * D + 1)) :=
  if l.valid && ready then
    [packBcdOut (DivSign.ofBit (bcdSignField l.payload)).bit (bcdOutput D (bcdNField l.payload))]
  else []

/-- At an edge of the sequential converter nothing is lost: a busy one keeps its transaction, an idle one hands over its result
and takes in what its line hands to it. -/
theorem BcdSeqRegs.pending_edge {q : BcdSeqRegs W L} (h : q.Control) (D : Nat) (l : Line (W + 1)) :
    (if q.outValid && l.ready then [packBcdOut q.signL.bit (bcdOutput D q.nL)] else []) ++
        (BcdRegs.sequential (q.edge l)).pending D =
      (BcdRegs.sequential q).pending D ++ bcdTaken D l (singleReady (!q.busy) q.outValid l.ready) := by
  cases hbusy : q.busy with
  | true =>
    have hheld := (h hbusy).1
    have hshown := q.edge_busy_control l hbusy
    have hstays : ((q.edge l).busy || (q.edge l).outValid) = true := by
      split at hshown
      · rw [hshown.2, Bool.or_true]
      · rw [hshown.1, Bool.true_or]
    have hnone : bcdTaken D l (singleReady (!true) q.outValid l.ready) = [] := if_neg (by simp [singleReady])
    rw [hnone, BcdRegs.pending, BcdRegs.pending, hstays, hheld, hbusy, q.edge_busy l hbusy]
    rfl
  | false =>
    by_cases htake : (l.valid && singleReady (!q.busy) q.outValid l.ready) = true
    · obtain ⟨hvalid, hready⟩ := (Bool.and_eq_true _ _).mp htake
      have hleaves : (q.outValid && l.ready) = q.outValid := by
        rcases ((singleReady_iff _ _ _).mp hready).2 with h | h <;> simp [h]
      have hholds : ((q.edge l).busy || (q.edge l).outValid) = true := by
        rw [q.edge_accept l hvalid hready, BcdSeqRegs.accept_busy, hbusy]
        by_cases hL : L = 1 <;> simp [hL]
      rw [← Bool.not_false, ← hbusy, bcdTaken, if_pos htake, hleaves, BcdRegs.pending, hholds, BcdRegs.pending, hbusy,
        Bool.false_or, q.edge_accept l hvalid hready]
      rfl
    · have hnone : bcdTaken D l (singleReady (!false) q.outValid l.ready) = [] := if_neg (hbusy ▸ htake)
      rw [hnone, List.append_nil, q.edge_idle l hbusy (Bool.eq_false_iff.mpr htake), BcdRegs.pending, BcdRegs.pending, hbusy]
      cases q.outValid <;> cases l.ready <;> rfl

/-- The registers of the converter are a queue, in either mode. -/
theorem BcdRegs.pending_edge {r : BcdRegs W L} (hL : 1 ≤ L) (h : r.Control) (D : Nat) (l : Line (W + 1)) :
    (if r.outValid && l.ready then [r.outPayload D] else []) ++ (r.edge l).pending D =
      r.pending D ++ bcdTaken D l (r.inpReady l.ready) := by
  cases r with
  | sequential q => exact q.pending_edge h D l
  | pipelined st =>
    rw [BcdRegs.edge_pipelined, BcdRegs.pending_pipelined, BcdRegs.pending_pipelined]
    exact Stages.pending_clocked (valid := BcdStage.valid) (out := fun p => packBcdOut p.sign.bit (bcdOutput D p.n))
      (f := fun _ p => p) (fun _ _ => rfl) (fun _ _ => rfl) st hL (BcdStage.reset W) (BcdStage.capture l) l.ready

/-- The registers and the port of the converter are a queue. -/
theorem converter_queue {r : BcdRegs W L} (hL : 1 ≤ L) (h : r.Control) {D : Nat} (l : Line (W + 1))
    {p p' : Port (W + 1) (4 * D + 1)} {cycle : Nat} (hport : PortAfter p p' cycle r.outValid l.ready (r.outPayload D)) :
    p'.log.map Prod.snd ++ (r.edge l).pending D =
      p.log.map Prod.snd ++ r.pending D ++ bcdTaken D l (r.inpReady l.ready) := by
  rw [map_snd_log_of_portAfter hport, List.append_assoc, List.append_assoc]
  exact congrArg _ (BcdRegs.pending_edge hL h D l)

/-- What is taken in without a reserved tag has the tag `UNSIGNED` (R240). -/
theorem bcdTaken_of_unreserved {l : Line (W + 1)} {ready : Bool}
    (h : ¬(l.valid = true ∧ ready = true ∧ bcdSignField l.payload = 1#1)) :
    bcdTaken D l ready = if l.valid && ready then [packBcdOut 0#1 (bcdOutput D (bcdNField l.payload))] else [] := by
  unfold bcdTaken
  split
  next htaken =>
    obtain ⟨hvalid, hready⟩ := (Bool.and_eq_true _ _).mp htaken
    have hzero : ∀ b : BitVec 1, b ≠ 1#1 → b = 0#1 := by decide
    rw [DivSign.bit_ofBit, hzero _ fun htag => h ⟨hvalid, hready, htag⟩]
  next => rfl

/-- Settles O27: what is handed to the converter has the tag `UNSIGNED`. -/
theorem converterIsAFaithfulQueue : Obligations.ConverterIsAFaithfulQueue := by
  intro s t hcontrol hreset hstep
  obtain ⟨hfault, hrefusal, rfl⟩ := step_next_elim hstep
  obtain ⟨-, -, -, -, -, -, hL, -⟩ := widths_of_fault_none hfault
  obtain ⟨-, -, hbcd⟩ := (refusal_eq_none_iff s).mp hrefusal
  have hunreserved := (s.bcd.refusal_eq_none_iff s.cycle).mp hbcd
  have hqueue := converter_queue hL (Bcd.now_control hcontrol s.cycle) (s.bcd.line s.cycle) (s.bcd.edge_portAfter s.cycle)
  refine ⟨_, _, rfl, hqueue.trans ?_⟩
  rw [Bcd.now_of_noReset hreset]
  rw [← Bcd.now_of_noReset hreset]
  exact congrArg _ (bcdTaken_of_unreserved hunreserved)

/-! ### A number on its way, pipelined (R241) -/

/-- A pipeline that is not ready keeps its stages. -/
theorem Stages.clocked_of_closed {valid : α → Bool} {f : Nat → α → α} (st : Stages α n) {d : α} (new : α) {ready : Bool}
    (h : pipeReady (valid (st.top d)) ready = false) : st.clocked valid d f new ready = st := by
  rw [Stages.clocked, h]
  rfl

/-- The instance after an edge, from the registers of the cycle. -/
theorem Bcd.edge_of_now {u : Bcd} {cycle : Nat} {r : BcdRegs u.W u.latency} (h : u.now cycle = r) :
    u.edge cycle = { u with regs := r.edge (u.line cycle), port := (u.edge cycle).port } := h ▸ rfl

/-- A converter with the parameters of `u0`, the number `n` in its stage `i`. -/
def Bcd.Carries (u0 : Bcd) (n : Word u0.W) (i : Nat) (u : Bcd) : Prop :=
  ∃ st p, u = { u0 with regs := .pipelined st, port := p } ∧ st.items[i]? = some ⟨true, .unsigned, n⟩

/-- An edge carries the number one stage further exactly if it advances the pipeline. -/
theorem Bcd.Carries.edge {u0 : Bcd} {n : Word u0.W} {i : Nat} {u : Bcd} (h : Bcd.Carries u0 n i u) {cycle : Nat}
    (hreset : (u.line cycle).reset = false) (hi : i + (u.signals cycle).inpReady.toNat < u0.latency) :
    Bcd.Carries u0 n (i + (u.signals cycle).inpReady.toNat) (u.edge cycle) := by
  obtain ⟨st, p, rfl, hx⟩ := h
  have hnow : Bcd.now { u0 with regs := .pipelined st, port := p } cycle = .pipelined st := Bcd.now_of_noReset hreset
  have hready := Bcd.signals_inpReady_of_now hnow
  generalize (Bcd.signals { u0 with regs := .pipelined st, port := p } cycle).inpReady = ready at hi hready ⊢
  refine ⟨_, _, Bcd.edge_of_now hnow, ?_⟩
  generalize Bcd.line { u0 with regs := .pipelined st, port := p } cycle = l at hready ⊢
  have hready : ready = pipeReady (st.top (BcdStage.reset u0.W)).valid l.ready := hready
  cases ready with
  | false =>
    have hstays := st.clocked_of_closed (valid := BcdStage.valid) (f := fun _ p => p) (BcdStage.capture l) hready.symm
    exact (congrArg (fun st' : Stages (BcdStage u0.W) u0.latency => st'.items[i]?) hstays).trans hx
  | true =>
    have hnext := st.clocked_getElem?_succ (valid := BcdStage.valid) (f := fun _ p => p) (BcdStage.capture l) hready.symm hi
    rw [hx] at hnext
    exact hnext

/-- Along a run the number goes on by as many stages as the pipeline advances. -/
theorem Bcd.Carries.run {u0 : Bcd} {n : Word u0.W} {k i : Nat} {s t : State} (h : Bcd.Carries u0 n i s.bcd)
    (hreset : NoResetIn k s.bcd.port.script) (hrun : RunsTo k s t) (hi : i + bcdAdvances k s < u0.latency) :
    Bcd.Carries u0 n (i + bcdAdvances k s) t.bcd := by
  induction k generalizing s i with
  | zero =>
    obtain rfl := (runsTo_zero_iff s t).mp hrun
    exact h
  | succ k ih =>
    obtain ⟨u, hstep, hrun⟩ := (runsTo_succ_iff k s t).mp hrun
    have hadvances : bcdAdvances (k + 1) s = (s.bcd.signals s.cycle).inpReady.toNat + bcdAdvances k u := by
      rw [bcdAdvances, hstep]
    obtain ⟨-, -, rfl⟩ := step_next_elim hstep
    rw [hadvances, ← Nat.add_assoc] at hi ⊢
    exact ih (h.edge (Port.reset_line_of_noResetIn hreset .bcd s.cycle) (by omega)) (noResetIn_tail hreset) hrun hi

/-! ### A number on its way, sequential (R242) -/

/-- The sequential converter `left` edges before it presents the number `n`, or presenting it. -/
def BcdSeqRegs.Serves (n : Word W) (left : Nat) (q : BcdSeqRegs W L) : Prop :=
  q.signL = .unsigned ∧ q.nL = n ∧ (if left = 0 then q.outValid = true else q.busy = true ∧ q.cnt.toNat + left = L)

theorem BcdSeqRegs.Serves.edge {q : BcdSeqRegs W L} (h : q.Serves n (left + 1)) (l : Line (W + 1)) :
    (q.edge l).Serves n left := by
  obtain ⟨hsign, hn, hwork⟩ := h
  rw [if_neg (Nat.succ_ne_zero left)] at hwork
  obtain ⟨hbusy, hcount⟩ := hwork
  have hcontrol := q.edge_busy_control l hbusy
  have hedge := q.edge_busy l hbusy
  refine ⟨hedge ▸ hsign, hedge ▸ hn, ?_⟩
  have hcnt : (q.edge l).cnt.toNat = q.cnt.toNat + 1 := by
    rw [hedge]
    exact counter_succ_toNat q.cnt (by omega)
  split
  next hlast =>
    rw [if_pos (by omega)] at hcontrol
    exact hcontrol.2
  next hmore =>
    rw [if_neg (by omega)] at hcontrol
    exact ⟨hcontrol.1, by omega⟩

/-- A sequential converter with the parameters of `u0`, `left` cycles without `reset()` before it presents the number. -/
def Bcd.Serves (u0 : Bcd) (n : Word u0.W) (left : Nat) (u : Bcd) : Prop :=
  ∃ q p, u = { u0 with regs := .sequential q, port := p } ∧ q.Serves n left ∧ NoResetIn left p.script

theorem Bcd.Serves.edge {u0 : Bcd} {n : Word u0.W} {left : Nat} {u : Bcd} (h : Bcd.Serves u0 n (left + 1) u) (cycle : Nat) :
    Bcd.Serves u0 n left (u.edge cycle) := by
  obtain ⟨q, p, rfl, hserves, hreset⟩ := h
  have hnow : Bcd.now { u0 with regs := .sequential q, port := p } cycle = .sequential q :=
    Bcd.now_of_noReset (Port.reset_line_of_noResetIn hreset .bcd cycle)
  exact ⟨_, _, Bcd.edge_of_now hnow, hserves.edge _, noResetIn_tail hreset⟩

/-! ### The digits presented (R236, R241 to R243) -/

/-- A converter that presents the number `n` with tag `UNSIGNED`. -/
def BcdRegs.Presents (n : Word W) (r : BcdRegs W L) : Prop := r.outValid = true ∧ r.outSign = .unsigned ∧ r.outN = n

/-- What it presents are its digits, or the open value beyond the range. -/
theorem BcdRegs.Presents.digits {n : Word W} {r : BcdRegs W L} (h : r.Presents n) (D : Nat) :
    bcdDigitsField (r.outPayload D) = bcdOutput D n := by
  rw [BcdRegs.outPayload, bcdDigitsField_packBcdOut, h.2.2]

theorem Bcd.Carries.present {u0 : Bcd} {n : Word u0.W} {u : Bcd} (h : Bcd.Carries u0 n (u0.latency - 1) u) :
    ∃ r p, u = { u0 with regs := r, port := p } ∧ r.Presents n := by
  obtain ⟨st, p, hu, hx⟩ := h
  have htop : bcdTop st = ⟨true, .unsigned, n⟩ := by rw [bcdTop, Stages.top_eq, hx, Option.getD_some]
  exact ⟨_, p, hu, congrArg BcdStage.valid htop, congrArg BcdStage.sign htop, congrArg BcdStage.n htop⟩

theorem Bcd.Serves.present {u0 : Bcd} {n : Word u0.W} {u : Bcd} (h : Bcd.Serves u0 n 0 u) :
    ∃ r p, u = { u0 with regs := r, port := p } ∧ r.Presents n := by
  obtain ⟨q, p, hu, ⟨hsign, hn, hshown⟩, -⟩ := h
  exact ⟨_, p, hu, hshown, hsign, hn⟩

/-- `reset()` before a cycle leaves the mode of the registers. -/
theorem Bcd.now_pipelined {u : Bcd} {st : Stages (BcdStage u.W) u.latency} (h : u.regs = .pipelined st) (cycle : Nat) :
    ∃ st', u.now cycle = .pipelined st' := by
  unfold Bcd.now
  rw [h]
  split <;> exact ⟨_, rfl⟩

theorem Bcd.now_sequential {u : Bcd} {q : BcdSeqRegs u.W u.latency} (h : u.regs = .sequential q) (cycle : Nat) :
    ∃ q', u.now cycle = .sequential q' := by
  unfold Bcd.now
  rw [h]
  split <;> exact ⟨_, rfl⟩

/-- Settles O24: the accepting edge takes the number in, in either mode, and the run brings it to the output. -/
theorem converterPresentsDigits : Obligations.ConverterPresentsDigits := by
  intro s s1 t n k hready hexec hreset hrun hlatency
  obtain ⟨hfault, -, rfl⟩ := (clock_next_iff _ _).mp hexec
  obtain ⟨-, -, -, -, -, -, hL, -⟩ := widths_of_fault_none hfault
  have hL : 1 ≤ s.bcd.latency := hL
  have hpresents : ∃ r p, t.bcd = { s.bcd with regs := r, port := p } ∧ r.Presents (fieldWord s.bcd.W n) := by
    obtain ⟨hpipelined, hsequential⟩ := BcdRegs.edge_accept (r := s.bcd.now s.cycle)
      (l := (s.bcd.offer s.cycle (packBcdIn DivSign.unsigned.bit (fieldWord s.bcd.W n))).line s.cycle) hL rfl rfl hready
    have hafter {r} (hedge : (s.bcd.now s.cycle).edge
        ((s.bcd.offer s.cycle (packBcdIn DivSign.unsigned.bit (fieldWord s.bcd.W n))).line s.cycle) = r) :
        (s.offerBcd n).edge.bcd = { s.bcd with regs := r, port := (s.offerBcd n).edge.bcd.port } :=
      congrArg (fun r => { s.bcd with regs := r, port := (s.offerBcd n).edge.bcd.port }) hedge
    cases hregs : s.bcd.regs with
    | pipelined st0 =>
      rw [hregs] at hlatency
      obtain ⟨st, hnow⟩ := Bcd.now_pipelined hregs s.cycle
      obtain ⟨st', hedge, hfirst, -⟩ := hpipelined st hnow
      have hstart : Bcd.Carries s.bcd (fieldWord s.bcd.W n) 0 (s.offerBcd n).edge.bcd := ⟨st', _, hafter hedge, hfirst⟩
      have hlast := hstart.run hreset hrun (by omega)
      rw [hlatency, Nat.zero_add] at hlast
      exact hlast.present
    | sequential q0 =>
      rw [hregs] at hlatency
      obtain ⟨q, hnow⟩ := Bcd.now_sequential hregs s.cycle
      obtain ⟨q', hedge, hsign, hn, hcnt, hshown, hbusy⟩ := hsequential q hnow
      have hstart : Bcd.Serves s.bcd (fieldWord s.bcd.W n) (0 + k) (s.offerBcd n).edge.bcd := by
        refine ⟨q', _, hafter hedge, ⟨hsign, hn, ?_⟩, by rwa [Nat.zero_add]⟩
        split
        next hzero => rw [hshown, decide_eq_true (by omega)]
        next hpos => exact ⟨by rw [hbusy, decide_eq_true (by omega)], by omega⟩
      exact (runsTo_countdown (get := State.bcd) (fun _ => rfl) (fun _ _ cycle h => Bcd.Serves.edge h cycle) hrun hstart).present
  obtain ⟨r, p, hget, hpresents⟩ := hpresents
  refine ⟨r, p, hget, hpresents.1, hpresents.2.1, ?_⟩
  rw [hpresents.digits]
  rfl

end Sys2Proof.Machine

/-! PROOFS. Progress at the output (40_handshake.md R107): a presented result is the next to leave. -/

namespace Sys2Proof.Machine

open Sys2Proof.Claims

/-! ### Ports along a run -/

/-- The environment of a port in the coming `k` cycles: no `reset()`, and the consumer ready in one of them. -/
def Port.Awaits (k : Nat) (p : Port inBits outBits) : Prop := NoResetIn k p.script ∧ ReadyWithin k p.script

theorem Port.not_awaits_zero (p : Port inBits outBits) : ¬p.Awaits 0 := by
  rintro ⟨-, l, hl, -⟩
  rw [List.take_zero] at hl
  cases hl

/-- In a cycle in which the consumer is not ready, it is ready in one of the cycles after it. -/
theorem Port.awaits_tail {p : Port inBits outBits} (h : p.Awaits (k + 1)) {c : Component} {cycle : Nat}
    (hr : (p.line c cycle).ready = false) {p' : Port inBits outBits} (hp : p'.script = p.script.tail) : p'.Awaits k := by
  obtain ⟨hreset, l, hl, hready⟩ := h
  rw [Port.Awaits, hp]
  refine ⟨noResetIn_tail hreset, l, ?_, hready⟩
  unfold Port.line at hr
  cases hscript : p.script with
  | nil =>
    rw [hscript] at hl
    cases hl
  | cons l0 rest =>
    rw [hscript] at hl hr
    rcases List.mem_cons.mp hl with rfl | hl
    · rw [List.headD_cons, hready] at hr
      cases hr
    · exact hl

/-- A port's edge only adds to what was observed. -/
theorem loggedBits_grows {p p' : Port inBits outBits} (h : PortAfter p p' cycle valid ready payload) :
    ∃ rest, loggedBits p' = loggedBits p ++ rest := by
  rw [loggedBits, h.2, List.map_append]
  exact ⟨_, rfl⟩

/-- A result presented to a consumer that is ready is the next observed. -/
theorem loggedBits_of_taken {p p' : Port inBits outBits} (h : PortAfter p p' cycle valid ready payload) (hv : valid = true)
    (hr : ready = true) : loggedBits p' = loggedBits p ++ [payload.toNat] := by
  rw [loggedBits, h.2, hv, hr, List.map_append]
  rfl

/-- Nothing is observed while the consumer is not ready. -/
theorem loggedBits_of_waiting {p p' : Port inBits outBits} (h : PortAfter p p' cycle valid ready payload)
    (hr : ready = false) : loggedBits p' = loggedBits p := by
  rw [loggedBits, h.2, hr, Bool.and_false, List.map_append]
  exact List.append_nil _

/-! ### Delivery along a run -/

/-- One edge of an instance that shows the result `x`: it leaves, or it is shown again and nothing else is observed. -/
abbrev DeliversOrWaits (bits : ι → List Nat) (Awaits : Nat → ι → Prop) (Shown : ι → Nat → Prop) (k : Nat) (u u' : ι)
    (x : Nat) : Prop :=
  bits u' = bits u ++ [x] ∨ (bits u' = bits u ∧ Awaits k u' ∧ Shown u' x)

/-- What an instance's edges only add to, a run only adds to. -/
theorem grown_along {ι : Type} {get : State → ι} {edge : ι → Nat → ι}
    (hget : ∀ s : State, get s.edge = edge (get s) s.cycle) {bits : ι → List Nat}
    (hgrows : ∀ u cycle, ∃ rest, bits (edge u cycle) = bits u ++ rest) {k : Nat} {s t : State} (hrun : RunsTo k s t) :
    ∃ rest, bits (get t) = bits (get s) ++ rest := by
  induction k generalizing s with
  | zero => exact ⟨[], by rw [(runsTo_zero_iff s t).mp hrun, List.append_nil]⟩
  | succ k ih =>
    obtain ⟨u, hstep, hrun⟩ := (runsTo_succ_iff k s t).mp hrun
    obtain ⟨-, -, rfl⟩ := step_next_elim hstep
    obtain ⟨here, hhere⟩ := hgrows (get s) s.cycle
    obtain ⟨rest, hrest⟩ := ih hrun
    exact ⟨here ++ rest, by rw [hrest, hget, hhere, List.append_assoc]⟩

/-- A result that each edge delivers or shows again is the next to leave, if its consumer is ready in time. -/
theorem delivered_along {ι : Type} {get : State → ι} {edge : ι → Nat → ι}
    (hget : ∀ s : State, get s.edge = edge (get s) s.cycle) {bits : ι → List Nat} {Awaits : Nat → ι → Prop}
    {Shown : ι → Nat → Prop} (hnever : ∀ u, ¬Awaits 0 u) (hgrows : ∀ u cycle, ∃ rest, bits (edge u cycle) = bits u ++ rest)
    (hedge : ∀ k u cycle x, Awaits (k + 1) u → Shown u x → DeliversOrWaits bits Awaits Shown k u (edge u cycle) x)
    {k x : Nat} {s t : State} (hrun : RunsTo k s t) (hawaits : Awaits k (get s)) (hshown : Shown (get s) x) :
    ∃ rest, bits (get t) = bits (get s) ++ x :: rest := by
  induction k generalizing s with
  | zero => exact absurd hawaits (hnever _)
  | succ k ih =>
    obtain ⟨u, hstep, hrun⟩ := (runsTo_succ_iff k s t).mp hrun
    obtain ⟨-, -, rfl⟩ := step_next_elim hstep
    rcases hedge k (get s) s.cycle x hawaits hshown with hleft | ⟨hsame, hawaits, hshown⟩
    · obtain ⟨rest, hrest⟩ := grown_along hget hgrows hrun
      exact ⟨rest, by rw [hrest, hget, hleft, List.append_assoc, List.singleton_append]⟩
    · rw [← hget] at hsame hawaits hshown
      obtain ⟨rest, hrest⟩ := ih hrun hawaits hshown
      exact ⟨rest, by rw [hrest, hsame]⟩

/-- A port that shows a result: the consumer takes it, or the port waits on and only what the instance shows is open. -/
theorem Port.delivers_or_waits {p p' : Port inBits outBits} {c : Component} {cycle : Nat} {valid : Bool}
    {payload : BitVec outBits} (hport : PortAfter p p' cycle valid (p.line c cycle).ready payload) (hawaits : p.Awaits (k + 1))
    (hvalid : valid = true) {Q : Prop} (hwait : (p.line c cycle).ready = false → Q) :
    loggedBits p' = loggedBits p ++ [payload.toNat] ∨ (loggedBits p' = loggedBits p ∧ p'.Awaits k ∧ Q) := by
  cases hready : (p.line c cycle).ready with
  | true => exact .inl (loggedBits_of_taken hport hvalid hready)
  | false =>
    exact .inr ⟨loggedBits_of_waiting hport hready, Port.awaits_tail hawaits hready hport.1, hwait hready⟩

/-! ### The instances -/

/-- A divider that shows the result `x`. -/
def MDivRegs.ShowsResult (impl : Impl) (r : MDivRegs W) (x : Nat) : Prop :=
  r.Control impl ∧ r.outValid = true ∧ r.outPayload.toNat = x

theorem MDiv.edge_delivers {u : MDiv impl} (hawaits : u.port.Awaits (k + 1)) (hshows : u.regs.ShowsResult impl x) (cycle : Nat) :
    DeliversOrWaits (fun u : MDiv impl => loggedBits u.port) (fun k u => u.port.Awaits k)
      (fun u x => u.regs.ShowsResult impl x) k u (u.edge cycle) x := by
  have hnow : u.now cycle = u.regs := MDiv.now_of_noReset (Port.reset_line_of_noResetIn hawaits.1 _ cycle)
  have hport := u.edge_portAfter cycle
  rw [hnow] at hport
  obtain ⟨hcontrol, hvalid, rfl⟩ := hshows
  refine Port.delivers_or_waits hport hawaits hvalid fun hready => ?_
  have hstays : ((u.now cycle).edge impl (u.line cycle)).ShowsResult impl u.regs.outPayload.toNat := by
    rw [hnow, MDivRegs.edge_of_waiting (l := u.line cycle) hcontrol hvalid hready]
    exact ⟨hcontrol, hvalid, rfl⟩
  exact hstays

/-- The long divider that shows the result `x`. -/
def LDivRegs.ShowsResult (r : LDivRegs W) (x : Nat) : Prop := r.Control ∧ r.outValid = true ∧ r.outPayload.toNat = x

theorem LDiv.edge_delivers {u : LDiv} (hawaits : u.port.Awaits (k + 1)) (hshows : u.regs.ShowsResult x) (cycle : Nat) :
    DeliversOrWaits (fun u : LDiv => loggedBits u.port) (fun k u => u.port.Awaits k)
      (fun u x => u.regs.ShowsResult x) k u (u.edge cycle) x := by
  have hnow : u.now cycle = u.regs := LDiv.now_of_noReset (Port.reset_line_of_noResetIn hawaits.1 _ cycle)
  have hport := u.edge_portAfter cycle
  rw [hnow] at hport
  obtain ⟨hcontrol, hvalid, rfl⟩ := hshows
  refine Port.delivers_or_waits hport hawaits hvalid fun hready => ?_
  have hstays : ((u.now cycle).edge (u.line cycle)).ShowsResult u.regs.outPayload.toNat := by
    rw [hnow, LDivRegs.edge_of_waiting (l := u.line cycle) hcontrol hvalid hready]
    exact ⟨hcontrol, hvalid, rfl⟩
  exact hstays

/-- Stages that show the result `x`. -/
def pipelineShowsResult (st : Stages (MulStage W) W) (x : Nat) : Prop :=
  (mulTop st).valid = true ∧ (pipelinePayload st).toNat = x

theorem PMul.edge_delivers {u : PMul} (hawaits : u.port.Awaits (k + 1)) (hshows : pipelineShowsResult u.stages x) (cycle : Nat) :
    DeliversOrWaits (fun u : PMul => loggedBits u.port) (fun k u => u.port.Awaits k)
      (fun u x => pipelineShowsResult u.stages x) k u (u.edge cycle) x := by
  have hnow : u.now cycle = u.stages := PMul.now_of_noReset (Port.reset_line_of_noResetIn hawaits.1 _ cycle)
  have hport := u.edge_portAfter cycle
  rw [hnow] at hport
  obtain ⟨hvalid, rfl⟩ := hshows
  refine Port.delivers_or_waits hport hawaits hvalid fun hready => ?_
  have hstays : pipelineShowsResult (mulEdge (u.now cycle) (u.line cycle)) (pipelinePayload u.stages).toNat := by
    rw [hnow, mulEdge_of_waiting (l := u.line cycle) hvalid hready]
    exact ⟨hvalid, rfl⟩
  exact hstays

/-- The multi-cycle multiplier that shows the result `x`. -/
def MCMulRegs.ShowsResult (r : MCMulRegs W) (x : Nat) : Prop := r.Control ∧ r.outValid = true ∧ r.outPayload.toNat = x

theorem MCMul.edge_delivers {u : MCMul} (hawaits : u.port.Awaits (k + 1)) (hshows : u.regs.ShowsResult x) (cycle : Nat) :
    DeliversOrWaits (fun u : MCMul => loggedBits u.port) (fun k u => u.port.Awaits k)
      (fun u x => u.regs.ShowsResult x) k u (u.edge cycle) x := by
  have hnow : u.now cycle = u.regs := MCMul.now_of_noReset (Port.reset_line_of_noResetIn hawaits.1 _ cycle)
  have hport := u.edge_portAfter cycle
  rw [hnow] at hport
  obtain ⟨hcontrol, hvalid, rfl⟩ := hshows
  refine Port.delivers_or_waits hport hawaits hvalid fun hready => ?_
  have hstays : ((u.now cycle).edge (u.line cycle)).ShowsResult u.regs.outPayload.toNat := by
    rw [hnow, MCMulRegs.edge_of_waiting (l := u.line cycle) hcontrol hvalid hready]
    exact ⟨hcontrol, hvalid, rfl⟩
  exact hstays

/-- The converter that shows the result `x`, in `D` digits. -/
def BcdRegs.ShowsResult (D : Nat) (r : BcdRegs W L) (x : Nat) : Prop :=
  r.Control ∧ r.outValid = true ∧ (r.outPayload D).toNat = x

theorem Bcd.edge_delivers {u : Bcd} (hawaits : u.port.Awaits (k + 1)) (hshows : u.regs.ShowsResult u.digits x) (cycle : Nat) :
    DeliversOrWaits (fun u : Bcd => loggedBits u.port) (fun k u => u.port.Awaits k)
      (fun u x => u.regs.ShowsResult u.digits x) k u (u.edge cycle) x := by
  have hnow : u.now cycle = u.regs := Bcd.now_of_noReset (Port.reset_line_of_noResetIn hawaits.1 _ cycle)
  have hport := u.edge_portAfter cycle
  rw [hnow] at hport
  obtain ⟨hcontrol, hvalid, rfl⟩ := hshows
  refine Port.delivers_or_waits hport hawaits hvalid fun hready => ?_
  have hstays : ((u.now cycle).edge (u.line cycle)).ShowsResult u.digits (u.regs.outPayload u.digits).toNat := by
    rw [hnow, BcdRegs.edge_of_waiting (l := u.line cycle) hcontrol hvalid hready]
    exact ⟨hcontrol, hvalid, rfl⟩
  exact hstays

/-- A port whose consumer is ready in one of the coming cycles has a coming cycle, which begins with no `reset()`. -/
theorem Port.noReset_of_awaits {p : Port inBits outBits} (h : p.Awaits k) (c : Component) (cycle : Nat) :
    (p.line c cycle).reset = false := by
  cases k with
  | zero => exact absurd h p.not_awaits_zero
  | succ k => exact Port.reset_line_of_noResetIn h.1 c cycle

/-! Each instance along a run. -/

theorem MDiv.delivers {impl : Impl} {get : State → MDiv impl} (hget : ∀ s : State, get s.edge = (get s).edge s.cycle)
    {k : Nat} {s t : State} (hcontrol : (get s).regs.Control impl) (hrun : RunsTo k s t) :
    Delivers k (get s).port (get t).port ((get s).signals s.cycle).outpValid ((get s).now s.cycle).outPayload := by
  intro hvalid hreset hready
  have hnow : (get s).now s.cycle = (get s).regs := MDiv.now_of_noReset (Port.noReset_of_awaits ⟨hreset, hready⟩ _ _)
  have hvalid : ((get s).now s.cycle).outValid = true := hvalid
  rw [hnow] at hvalid ⊢
  exact delivered_along hget (fun _ => Port.not_awaits_zero _) (fun u cycle => loggedBits_grows (u.edge_portAfter cycle))
    (fun _ _ cycle _ ha hs => MDiv.edge_delivers ha hs cycle) hrun ⟨hreset, hready⟩ ⟨hcontrol, hvalid, rfl⟩

theorem LDiv.delivers {k : Nat} {s t : State} (hcontrol : s.ldiv.regs.Control) (hrun : RunsTo k s t) :
    Delivers k s.ldiv.port t.ldiv.port (s.ldiv.signals s.cycle).outpValid (s.ldiv.now s.cycle).outPayload := by
  intro hvalid hreset hready
  have hnow : s.ldiv.now s.cycle = s.ldiv.regs := LDiv.now_of_noReset (Port.noReset_of_awaits ⟨hreset, hready⟩ _ _)
  have hvalid : (s.ldiv.now s.cycle).outValid = true := hvalid
  rw [hnow] at hvalid ⊢
  exact delivered_along (get := State.ldiv) (fun _ => rfl) (fun _ => Port.not_awaits_zero _)
    (fun u cycle => loggedBits_grows (u.edge_portAfter cycle)) (fun _ _ cycle _ ha hs => LDiv.edge_delivers ha hs cycle) hrun
    ⟨hreset, hready⟩ ⟨hcontrol, hvalid, rfl⟩

theorem PMul.delivers {k : Nat} {s t : State} (hrun : RunsTo k s t) :
    Delivers k s.pmul.port t.pmul.port (s.pmul.signals s.cycle).outpValid (pipelinePayload (s.pmul.now s.cycle)) := by
  intro hvalid hreset hready
  have hnow : s.pmul.now s.cycle = s.pmul.stages := PMul.now_of_noReset (Port.noReset_of_awaits ⟨hreset, hready⟩ _ _)
  have hvalid : (mulTop (s.pmul.now s.cycle)).valid = true := hvalid
  rw [hnow] at hvalid ⊢
  exact delivered_along (get := State.pmul) (fun _ => rfl) (fun _ => Port.not_awaits_zero _)
    (fun u cycle => loggedBits_grows (u.edge_portAfter cycle)) (fun _ _ cycle _ ha hs => PMul.edge_delivers ha hs cycle) hrun
    ⟨hreset, hready⟩ ⟨hvalid, rfl⟩

theorem MCMul.delivers {k : Nat} {s t : State} (hcontrol : s.mcmul.regs.Control) (hrun : RunsTo k s t) :
    Delivers k s.mcmul.port t.mcmul.port (s.mcmul.signals s.cycle).outpValid (s.mcmul.now s.cycle).outPayload := by
  intro hvalid hreset hready
  have hnow : s.mcmul.now s.cycle = s.mcmul.regs := MCMul.now_of_noReset (Port.noReset_of_awaits ⟨hreset, hready⟩ _ _)
  have hvalid : (s.mcmul.now s.cycle).outValid = true := hvalid
  rw [hnow] at hvalid ⊢
  exact delivered_along (get := State.mcmul) (fun _ => rfl) (fun _ => Port.not_awaits_zero _)
    (fun u cycle => loggedBits_grows (u.edge_portAfter cycle)) (fun _ _ cycle _ ha hs => MCMul.edge_delivers ha hs cycle) hrun
    ⟨hreset, hready⟩ ⟨hcontrol, hvalid, rfl⟩

theorem Bcd.delivers {k : Nat} {s t : State} (hcontrol : s.bcd.regs.Control) (hrun : RunsTo k s t) :
    Delivers k s.bcd.port t.bcd.port (s.bcd.signals s.cycle).outpValid ((s.bcd.now s.cycle).outPayload s.bcd.digits) := by
  intro hvalid hreset hready
  have hnow : s.bcd.now s.cycle = s.bcd.regs := Bcd.now_of_noReset (Port.noReset_of_awaits ⟨hreset, hready⟩ _ _)
  have hvalid : (s.bcd.now s.cycle).outValid = true := hvalid
  rw [hnow] at hvalid ⊢
  exact delivered_along (get := State.bcd) (fun _ => rfl) (fun _ => Port.not_awaits_zero _)
    (fun u cycle => loggedBits_grows (u.edge_portAfter cycle)) (fun _ _ cycle _ ha hs => Bcd.edge_delivers ha hs cycle) hrun
    ⟨hreset, hready⟩ ⟨hcontrol, hvalid, rfl⟩

/-- Settles O35: each edge of an instance delivers the result it shows or shows it again. -/
theorem presentedResultIsDelivered : Obligations.PresentedResultIsDelivered := by
  rintro k s t ⟨hnrdiv, hrdiv, hldiv, hmcmul, hbcd⟩ hrun
  exact ⟨MDiv.delivers (get := State.nrdiv) (fun _ => rfl) hnrdiv hrun,
    MDiv.delivers (get := State.rdiv) (fun _ => rfl) hrdiv hrun,
    LDiv.delivers hldiv hrun, PMul.delivers hrun, MCMul.delivers hmcmul hrun, Bcd.delivers hbcd hrun⟩

end Sys2Proof.Machine

/-! PROOFS. Timing (70_reset_and_hazards.md R294): the control view of the block after an edge is a function of its control view
before it, so nothing of the data enters it. -/

namespace Sys2Proof.Machine

open Sys2Proof.Claims

/-! ### Handshakes -/

/-- The handshake of the coming cycle, from those of a script; a cycle not listed offers nothing to a ready consumer. -/
def comingHandshake (handshakes : List (Bool × Bool × Bool)) : Bool × Bool × Bool := handshakes.headD (false, false, true)

theorem Port.handshake_line (p : Port inBits outBits) (c : Component) (cycle : Nat) :
    (p.line c cycle).handshake = comingHandshake (p.script.map Line.handshake) := by
  unfold Port.line comingHandshake
  cases p.script <;> rfl

/-- Counting in a register, as numbers. -/
theorem toNat_add_one_eq (c : BitVec n) : (c + 1).toNat = (c.toNat + 1) % 2 ^ n := by
  rw [BitVec.toNat_add, show (1 : BitVec n).toNat = 1 % 2 ^ n from rfl, Nat.add_mod_mod]

/-! ### MulticycleDiv -/

/-- The control view of a divider. -/
def MDivRegs.controlView (r : MDivRegs W) : Fsm × Nat × Bool := (r.fsm, r.cnt.toNat, r.outValid)

/-- The control view of a divider after an edge. -/
def dividerNext (impl : Impl) (W : Nat) (view : Fsm × Nat × Bool) (valid ready : Bool) : Fsm × Nat × Bool :=
  match view with
  | (.idle, cnt, held) =>
    if valid && singleReady true held ready then (.divideIn, cnt, false) else (.idle, cnt, held && !ready)
  | (.divideIn, _, held) => (.divideLoop, 0, held && !ready)
  | (.divideLoop, cnt, held) =>
    (if cnt = W - 1 then afterLoop impl else .divideLoop, (cnt + 1) % 2 ^ clog2 (W + 1), held && !ready)
  | (.restore, cnt, held) => (.divideOut, cnt, held && !ready)
  | (.divideOut, cnt, _) => (.idle, cnt, true)

theorem MDivRegs.edge_controlView (impl : Impl) (r : MDivRegs W) (l : Line (W + W + 1)) :
    (r.edge impl l).controlView = dividerNext impl W r.controlView l.valid l.ready := by
  cases hfsm : r.fsm with
  | idle =>
    have hopen : r.inpReady l.ready = singleReady true r.outValid l.ready := by rw [MDivRegs.inpReady, hfsm]; rfl
    rw [MDivRegs.controlView, MDivRegs.controlView, hfsm, dividerNext, ← hopen]
    cases htake : l.valid && r.inpReady l.ready with
    | true =>
      obtain ⟨hvalid, hready⟩ := (Bool.and_eq_true _ _).mp htake
      rw [r.edge_accept impl l hvalid hready]
      rfl
    | false =>
      rw [r.edge_idle impl l hfsm htake, hfsm]
      rfl
  | divideIn => rw [r.edge_divideIn impl l hfsm, MDivRegs.controlView, MDivRegs.controlView, hfsm]; rfl
  | divideLoop =>
    have hcnt := toNat_add_one_eq r.cnt
    rw [r.edge_divideLoop impl l hfsm, MDivRegs.controlView, MDivRegs.controlView, hfsm, dividerNext, ← hcnt]
    rw [MDivRegs.iterate, hfsm]
  | restore => rw [r.edge_restore impl l hfsm, MDivRegs.controlView, MDivRegs.controlView, hfsm]; rfl
  | divideOut => rw [r.edge_divideOut impl l hfsm, MDivRegs.controlView, MDivRegs.controlView, hfsm]; rfl

/-- The control view of a divider in a cycle, after the `reset()` that the cycle may begin with. -/
def dividerNow (view : Fsm × Nat × Bool) (reset : Bool) : Fsm × Nat × Bool := if reset then (.idle, 0, false) else view

theorem MDiv.now_controlView (u : MDiv impl) (cycle : Nat) :
    (u.now cycle).controlView = dividerNow u.regs.controlView (u.line cycle).reset := by
  unfold MDiv.now dividerNow
  split <;> rfl

/-! ### LongDivider and MulticycleMul -/

/-- The control view of the long divider. -/
def LDivRegs.controlView (r : LDivRegs W) : Bool × Nat × Bool := (r.busy, if r.busy then r.i.toNat else 0, r.outValid)

/-- The control view of the long divider after an edge. -/
def longNext (W : Nat) (view : Bool × Nat × Bool) (valid ready : Bool) : Bool × Nat × Bool :=
  match view with
  | (true, i, held) => if i = 0 then (false, 0, true) else (true, i - 1, held && !ready)
  | (false, _, held) =>
    if valid && singleReady true held ready then (true, (W - 2) % 2 ^ clog2 W, false) else (false, 0, held && !ready)

theorem LDivRegs.edge_controlView (r : LDivRegs W) (l : Line (W + W + 1)) :
    (r.edge l).controlView = longNext W r.controlView l.valid l.ready := by
  cases hbusy : r.busy with
  | true =>
    have hcontrol := r.edge_busy_control l hbusy
    rw [LDivRegs.controlView, LDivRegs.controlView, hbusy, if_pos rfl, longNext]
    split at hcontrol
    next hlast => rw [if_pos hlast, hcontrol.1, hcontrol.2.1]; rfl
    next hmore => rw [if_neg hmore, hcontrol.1, hcontrol.2.1, hcontrol.2.2]; rfl
  | false =>
    have hopen : r.inpReady l.ready = singleReady true r.outValid l.ready := by rw [LDivRegs.inpReady, hbusy]; rfl
    rw [LDivRegs.controlView, LDivRegs.controlView, hbusy, longNext, ← hopen]
    cases htake : l.valid && r.inpReady l.ready with
    | true =>
      obtain ⟨hvalid, hready⟩ := (Bool.and_eq_true _ _).mp htake
      rw [r.edge_accept l hvalid hready]
      rfl
    | false =>
      rw [r.edge_idle l hbusy htake, hbusy]
      rfl

/-- The control view of the multi-cycle multiplier. -/
def MCMulRegs.controlView (r : MCMulRegs W) : Bool × Nat × Bool := (r.busy, if r.busy then r.cnt.toNat else 0, r.outValid)

/-- The control view after an edge of a unit that counts to `latency`: the multi-cycle multiplier to `W`. -/
def countingNext (latency : Nat) (view : Bool × Nat × Bool) (valid ready : Bool) : Bool × Nat × Bool :=
  match view with
  | (true, cnt, held) =>
    if cnt + 1 = latency then (false, 0, true) else (true, (cnt + 1) % 2 ^ clog2 (latency + 1), held && !ready)
  | (false, _, held) =>
    if valid && singleReady true held ready then (true, 1 % 2 ^ clog2 (latency + 1), false) else (false, 0, held && !ready)

theorem MCMulRegs.edge_controlView (r : MCMulRegs W) (l : Line (W + W + 2)) :
    (r.edge l).controlView = countingNext W r.controlView l.valid l.ready := by
  cases hbusy : r.busy with
  | true =>
    have hcontrol := r.edge_busy_control l hbusy
    have hcnt : (r.edge l).cnt.toNat = (r.cnt.toNat + 1) % 2 ^ clog2 (W + 1) := by
      rw [r.edge_busy l hbusy]
      exact toNat_add_one_eq r.cnt
    rw [MCMulRegs.controlView, MCMulRegs.controlView, hbusy, if_pos rfl, countingNext, hcnt]
    split at hcontrol
    next hlast => rw [if_pos hlast, hcontrol.1, hcontrol.2]; rfl
    next hmore => rw [if_neg hmore, hcontrol.1, hcontrol.2]; rfl
  | false =>
    have hopen : r.inpReady l.ready = singleReady true r.outValid l.ready := by rw [MCMulRegs.inpReady, hbusy]; rfl
    rw [MCMulRegs.controlView, MCMulRegs.controlView, hbusy, countingNext, ← hopen]
    cases htake : l.valid && r.inpReady l.ready with
    | true =>
      obtain ⟨hvalid, hready⟩ := (Bool.and_eq_true _ _).mp htake
      rw [r.edge_accept l hvalid hready]
      rfl
    | false =>
      rw [r.edge_idle l hbusy htake, hbusy]
      rfl

/-- The control view of such a unit in a cycle, after the `reset()` that the cycle may begin with. -/
def unitNow (view : Bool × Nat × Bool) (reset : Bool) : Bool × Nat × Bool := if reset then (false, 0, false) else view

theorem LDiv.now_controlView (u : LDiv) (cycle : Nat) :
    (u.now cycle).controlView = unitNow u.regs.controlView (u.line cycle).reset := by
  unfold LDiv.now unitNow
  split <;> rfl

theorem MCMul.now_controlView (u : MCMul) (cycle : Nat) :
    (u.now cycle).controlView = unitNow u.regs.controlView (u.line cycle).reset := by
  unfold MCMul.now unitNow
  split <;> rfl

/-! ### The pipelines -/

/-- The valid bits of a pipeline. -/
def Stages.bits (valid : α → Bool) (st : Stages α n) : List Bool := st.items.map valid

/-- The valid bits after an edge: one place further where the last stage is free or leaves. -/
def pipelineNext (bits : List Bool) (valid ready : Bool) : List Bool :=
  if pipeReady (bits.getLastD false) ready then (valid :: bits).take bits.length else bits

theorem map_shiftFrom {valid : α → Bool} {f : Nat → α → α} (hvalid : ∀ i p, valid (f i p) = valid p) (i : Nat) (new : α)
    (l : List α) : (shiftFrom f i new l).map valid = (valid new :: l.map valid).take l.length := by
  induction l generalizing i new with
  | nil => rfl
  | cons x rest ih =>
    rw [shiftFrom, List.map_cons, ih, hvalid]
    rfl

theorem Stages.bits_getLastD {valid : α → Bool} {d : α} (hd : valid d = false) (st : Stages α n) :
    (st.bits valid).getLastD false = valid (st.top d) := by
  rw [Stages.bits, Stages.top, List.getLastD_eq_getLast?, List.getLastD_eq_getLast?, List.getLast?_map]
  cases st.items.getLast? with
  | none => exact hd.symm
  | some x => rfl

theorem Stages.bits_clocked {valid : α → Bool} {f : Nat → α → α} (hvalid : ∀ i p, valid (f i p) = valid p) {d : α}
    (hd : valid d = false) (st : Stages α n) (new : α) (ready : Bool) :
    (st.clocked valid d f new ready).bits valid = pipelineNext (st.bits valid) (valid new) ready := by
  rw [Stages.clocked, pipelineNext, Stages.bits_getLastD hd]
  split
  · rw [Stages.bits, Stages.bits, List.length_map]
    exact map_shiftFrom hvalid 0 new st.items
  · rfl

/-- The valid bits in a cycle, after the `reset()` that the cycle may begin with. -/
def pipelineNow (bits : List Bool) (reset : Bool) : List Bool := if reset then List.replicate bits.length false else bits

theorem Stages.bits_generate {valid : α → Bool} {g : Nat → α} (h : ∀ i, valid (g i) = false) (st : Stages α n) :
    (Stages.generate n g).bits valid = List.replicate (st.bits valid).length false := by
  rw [Stages.bits, map_valid_of_countP (Stages.countP_generate n h), Stages.length_eq, Stages.bits, List.length_map,
    Stages.length_eq]

theorem PMul.now_bits (u : PMul) (cycle : Nat) :
    (u.now cycle).bits MulStage.valid = pipelineNow (u.stages.bits MulStage.valid) (u.line cycle).reset := by
  unfold PMul.now pipelineNow
  split
  · exact Stages.bits_generate (fun _ => rfl) u.stages
  · rfl

end Sys2Proof.Machine

/-! PROOFS. Timing, continued (70_reset_and_hazards.md R294): the converter, the instances and the block. -/

namespace Sys2Proof.Machine

open Sys2Proof.Claims

/-! ### The converter -/

/-- The control view after an edge of the sequential converter: it counts to `BCD_LATENCY`, which may be 1. -/
def sequentialNext (L : Nat) (view : Bool × Nat × Bool) (valid ready : Bool) : Bool × Nat × Bool :=
  match view with
  | (true, cnt, held) => if cnt + 1 = L then (false, 0, true) else (true, (cnt + 1) % 2 ^ clog2 (L + 1), held && !ready)
  | (false, _, held) =>
    if valid && singleReady true held ready then (if L = 1 then (false, 0, true) else (true, 1 % 2 ^ clog2 (L + 1), false))
    else (false, 0, held && !ready)

theorem BcdSeqRegs.edge_controlView (q : BcdSeqRegs W L) (l : Line (W + 1)) :
    ((q.edge l).busy, if (q.edge l).busy then (q.edge l).cnt.toNat else 0, (q.edge l).outValid) =
      sequentialNext L (q.busy, if q.busy then q.cnt.toNat else 0, q.outValid) l.valid l.ready := by
  cases hbusy : q.busy with
  | true =>
    have hcontrol := q.edge_busy_control l hbusy
    have hcnt : (q.edge l).cnt.toNat = (q.cnt.toNat + 1) % 2 ^ clog2 (L + 1) := by
      rw [q.edge_busy l hbusy]
      exact toNat_add_one_eq q.cnt
    rw [if_pos rfl, sequentialNext, hcnt]
    split at hcontrol
    next hlast => rw [if_pos hlast, hcontrol.1, hcontrol.2]; rfl
    next hmore => rw [if_neg hmore, hcontrol.1, hcontrol.2]; rfl
  | false =>
    have hopen : singleReady (!q.busy) q.outValid l.ready = singleReady true q.outValid l.ready := by rw [hbusy]; rfl
    rw [sequentialNext, ← hopen]
    cases htake : l.valid && singleReady (!q.busy) q.outValid l.ready with
    | true =>
      obtain ⟨hvalid, hready⟩ := (Bool.and_eq_true _ _).mp htake
      have hedge := q.edge_accept l hvalid hready
      have hbusy' : (q.edge l).busy = if L = 1 then false else true := by
        rw [hedge, BcdSeqRegs.accept_busy, hbusy]
      have hcnt : (q.edge l).cnt.toNat = 1 % 2 ^ clog2 (L + 1) := by rw [hedge]; rfl
      have hshown : (q.edge l).outValid = decide (L = 1) := by rw [hedge]
      rw [hbusy', hcnt, hshown]
      by_cases hL : L = 1
      · rw [if_pos hL, if_pos hL, decide_eq_true hL]
        rfl
      · rw [if_neg hL, if_neg hL, decide_eq_false hL]
        rfl
    | false =>
      rw [q.edge_idle l hbusy htake, hbusy]
      rfl

/-- The control view of the converter after an edge. -/
def converterNext (mode : BcdMode) (L : Nat) (view : List Bool × Nat) (valid ready : Bool) : List Bool × Nat :=
  match mode, view with
  | .pipelined, (bits, _) => (pipelineNext bits valid ready, 0)
  | .sequential, ([busy, held], cnt) =>
    ([(sequentialNext L (busy, cnt, held) valid ready).1, (sequentialNext L (busy, cnt, held) valid ready).2.2],
      (sequentialNext L (busy, cnt, held) valid ready).2.1)
  | .sequential, view => view

theorem BcdRegs.edge_controlView (r : BcdRegs W L) (l : Line (W + 1)) :
    (r.edge l).controlView = converterNext r.mode L r.controlView l.valid l.ready := by
  cases r with
  | pipelined st =>
    exact congrArg (·, 0) (Stages.bits_clocked (valid := BcdStage.valid) (f := fun _ p => p) (fun _ _ => rfl) rfl st
      (BcdStage.capture l) l.ready)
  | sequential q =>
    exact congrArg (fun view : Bool × Nat × Bool => ([view.1, view.2.2], view.2.1)) (q.edge_controlView l)

/-- The control view of the converter in a cycle, after the `reset()` that the cycle may begin with. -/
def converterNow (mode : BcdMode) (view : List Bool × Nat) (reset : Bool) : List Bool × Nat :=
  match mode with
  | .pipelined => (pipelineNow view.1 reset, view.2)
  | .sequential => if reset then ([false, false], 0) else view

theorem Bcd.now_controlView (u : Bcd) (cycle : Nat) :
    (u.now cycle).controlView = converterNow u.regs.mode u.regs.controlView (u.line cycle).reset := by
  cases hreset : (u.line cycle).reset with
  | false =>
    rw [Bcd.now_of_noReset hreset]
    cases u.regs <;> rfl
  | true =>
    rw [Bcd.now_of_reset hreset]
    cases u.regs with
    | sequential q => rfl
    | pipelined st => exact congrArg (·, 0) (Stages.bits_generate (fun _ => rfl) st)

theorem Bcd.now_mode (u : Bcd) (cycle : Nat) : (u.now cycle).mode = u.regs.mode := by
  rw [← BcdRegs.edge_mode (u.now cycle) (u.line cycle)]
  exact u.edge_regs_mode cycle

/-- `inp.ready` of the converter, from its control view. -/
def converterOpen (mode : BcdMode) (view : List Bool × Nat) (ready : Bool) : Bool :=
  match mode, view with
  | .pipelined, (bits, _) => pipeReady (bits.getLastD false) ready
  | .sequential, ([busy, held], _) => singleReady (!busy) held ready
  | .sequential, _ => false

theorem BcdRegs.inpReady_eq (r : BcdRegs W L) (ready : Bool) : r.inpReady ready = converterOpen r.mode r.controlView ready := by
  cases r with
  | sequential q => rfl
  | pipelined st => exact congrArg (pipeReady · ready) (Stages.bits_getLastD (valid := BcdStage.valid) rfl st).symm

/-- In either mode the last bit of the view is `outp.valid`. -/
theorem BcdRegs.outValid_eq_getLastD (r : BcdRegs W L) : r.outValid = r.controlView.1.getLastD false := by
  cases r with
  | sequential q => rfl
  | pipelined st => exact (Stages.bits_getLastD (valid := BcdStage.valid) rfl st).symm

/-! ### The instances -/

theorem MDiv.edge_controlView (u : MDiv impl) (cycle : Nat) :
    (u.edge cycle).regs.controlView =
      dividerNext impl u.W (dividerNow u.regs.controlView (u.line cycle).reset) (u.line cycle).valid (u.line cycle).ready := by
  rw [← MDiv.now_controlView]
  exact MDivRegs.edge_controlView impl _ _

theorem LDiv.edge_controlView (u : LDiv) (cycle : Nat) :
    (u.edge cycle).regs.controlView =
      longNext u.W (unitNow u.regs.controlView (u.line cycle).reset) (u.line cycle).valid (u.line cycle).ready := by
  rw [← LDiv.now_controlView]
  exact LDivRegs.edge_controlView _ _

theorem PMul.edge_bits (u : PMul) (cycle : Nat) :
    (u.edge cycle).stages.bits MulStage.valid =
      pipelineNext (pipelineNow (u.stages.bits MulStage.valid) (u.line cycle).reset) (u.line cycle).valid (u.line cycle).ready := by
  rw [← PMul.now_bits]
  exact Stages.bits_clocked (f := MulStage.advance) (fun _ _ => rfl) rfl _ (MulStage.capture _ _ _ _) _

theorem MCMul.edge_controlView (u : MCMul) (cycle : Nat) :
    (u.edge cycle).regs.controlView =
      countingNext u.W (unitNow u.regs.controlView (u.line cycle).reset) (u.line cycle).valid (u.line cycle).ready := by
  rw [← MCMul.now_controlView]
  exact MCMulRegs.edge_controlView _ _

theorem Bcd.edge_controlView (u : Bcd) (cycle : Nat) :
    (u.edge cycle).regs.controlView =
      converterNext u.regs.mode u.latency (converterNow u.regs.mode u.regs.controlView (u.line cycle).reset)
        (u.line cycle).valid (u.line cycle).ready := by
  rw [← Bcd.now_controlView, ← u.now_mode cycle]
  exact BcdRegs.edge_controlView _ _

/-! `inp.ready` and `outp.valid` of each instance, from its control view in the cycle. -/

def dividerHandshake (view : Fsm × Nat × Bool) (ready : Bool) : Bool × Bool :=
  (singleReady (decide (view.1 = .idle)) view.2.2 ready, view.2.2)

def unitHandshake (view : Bool × Nat × Bool) (ready : Bool) : Bool × Bool := (singleReady (!view.1) view.2.2 ready, view.2.2)

def pipelineHandshake (bits : List Bool) (ready : Bool) : Bool × Bool :=
  (pipeReady (bits.getLastD false) ready, bits.getLastD false)

def converterHandshake (mode : BcdMode) (view : List Bool × Nat) (ready : Bool) : Bool × Bool :=
  (converterOpen mode view ready, view.1.getLastD false)

theorem MDiv.handshake_eq (u : MDiv impl) (cycle : Nat) :
    ((u.signals cycle).inpReady, (u.signals cycle).outpValid) =
      dividerHandshake (dividerNow u.regs.controlView (u.line cycle).reset) (u.line cycle).ready := by
  rw [← MDiv.now_controlView]
  rfl

theorem LDiv.handshake_eq (u : LDiv) (cycle : Nat) :
    ((u.signals cycle).inpReady, (u.signals cycle).outpValid) =
      unitHandshake (unitNow u.regs.controlView (u.line cycle).reset) (u.line cycle).ready := by
  rw [← LDiv.now_controlView]
  rfl

theorem PMul.handshake_eq (u : PMul) (cycle : Nat) :
    ((u.signals cycle).inpReady, (u.signals cycle).outpValid) =
      pipelineHandshake (pipelineNow (u.stages.bits MulStage.valid) (u.line cycle).reset) (u.line cycle).ready := by
  rw [← PMul.now_bits, pipelineHandshake, Stages.bits_getLastD (d := MulStage.reset u.W) rfl]
  rfl

theorem MCMul.handshake_eq (u : MCMul) (cycle : Nat) :
    ((u.signals cycle).inpReady, (u.signals cycle).outpValid) =
      unitHandshake (unitNow u.regs.controlView (u.line cycle).reset) (u.line cycle).ready := by
  rw [← MCMul.now_controlView]
  rfl

theorem Bcd.handshake_eq (u : Bcd) (cycle : Nat) :
    ((u.signals cycle).inpReady, (u.signals cycle).outpValid) =
      converterHandshake u.regs.mode (converterNow u.regs.mode u.regs.controlView (u.line cycle).reset) (u.line cycle).ready := by
  rw [← Bcd.now_controlView, ← u.now_mode cycle, converterHandshake, ← BcdRegs.inpReady_eq, ← BcdRegs.outValid_eq_getLastD]
  rfl

/-! ### The block -/

/-- The handshake of the coming cycle at the `i`th streaming port. -/
def ControlView.handshake (v : ControlView) (i : Nat) : Bool × Bool × Bool := comingHandshake (v.scripts.getD i [])

/-- The control view of the block after an edge. -/
def ControlView.next (v : ControlView) : ControlView where
  cycle := v.cycle + 1
  params := v.params
  nrdiv :=
    dividerNext .nonRestoring v.params.nrdivW (dividerNow v.nrdiv (v.handshake 0).1) (v.handshake 0).2.1 (v.handshake 0).2.2
  rdiv := dividerNext .restoring v.params.rdivW (dividerNow v.rdiv (v.handshake 1).1) (v.handshake 1).2.1 (v.handshake 1).2.2
  ldiv := longNext v.params.ldivW (unitNow v.ldiv (v.handshake 2).1) (v.handshake 2).2.1 (v.handshake 2).2.2
  pmul := pipelineNext (pipelineNow v.pmul (v.handshake 3).1) (v.handshake 3).2.1 (v.handshake 3).2.2
  mcmul := countingNext v.params.mcmulW (unitNow v.mcmul (v.handshake 4).1) (v.handshake 4).2.1 (v.handshake 4).2.2
  bcd := converterNext v.params.bcd.mode v.params.bcd.latency (converterNow v.params.bcd.mode v.bcd (v.handshake 5).1)
    (v.handshake 5).2.1 (v.handshake 5).2.2
  scripts := v.scripts.map List.tail

/-- `inp.ready` and `outp.valid` of every streaming instance, from the control view. -/
def ControlView.handshakes (v : ControlView) : List (Bool × Bool) :=
  [dividerHandshake (dividerNow v.nrdiv (v.handshake 0).1) (v.handshake 0).2.2,
    dividerHandshake (dividerNow v.rdiv (v.handshake 1).1) (v.handshake 1).2.2,
    unitHandshake (unitNow v.ldiv (v.handshake 2).1) (v.handshake 2).2.2,
    pipelineHandshake (pipelineNow v.pmul (v.handshake 3).1) (v.handshake 3).2.2,
    unitHandshake (unitNow v.mcmul (v.handshake 4).1) (v.handshake 4).2.2,
    converterHandshake v.params.bcd.mode (converterNow v.params.bcd.mode v.bcd (v.handshake 5).1) (v.handshake 5).2.2]

/-- The handshakes of the coming cycle, read off the view, are those of the lines. -/
theorem State.controlView_handshake (s : State) :
    s.controlView.handshake 0 = (s.nrdiv.line s.cycle).handshake ∧
      s.controlView.handshake 1 = (s.rdiv.line s.cycle).handshake ∧
      s.controlView.handshake 2 = (s.ldiv.line s.cycle).handshake ∧ s.controlView.handshake 3 = (s.pmul.line s.cycle).handshake ∧
      s.controlView.handshake 4 = (s.mcmul.line s.cycle).handshake ∧ s.controlView.handshake 5 = (s.bcd.line s.cycle).handshake :=
  ⟨(Port.handshake_line ..).symm, (Port.handshake_line ..).symm, (Port.handshake_line ..).symm, (Port.handshake_line ..).symm,
    (Port.handshake_line ..).symm, (Port.handshake_line ..).symm⟩

/-- The edge of the block, seen in its control view. -/
theorem State.edge_controlView (s : State) : s.edge.controlView = s.controlView.next := by
  obtain ⟨hnrdiv, hrdiv, hldiv, hpmul, hmcmul, hbcd⟩ := s.controlView_handshake
  simp only [ControlView.next, hnrdiv, hrdiv, hldiv, hpmul, hmcmul, hbcd]
  rw [State.controlView, ControlView.mk.injEq]
  exact ⟨rfl, s.edge_params, s.nrdiv.edge_controlView s.cycle, s.rdiv.edge_controlView s.cycle, s.ldiv.edge_controlView s.cycle,
    s.pmul.edge_bits s.cycle, s.mcmul.edge_controlView s.cycle, s.bcd.edge_controlView s.cycle, by
      simp only [State.controlView, List.map_cons, List.map_nil, ← List.map_tail]
      rfl⟩

/-- The handshakes of the block, seen in its control view. -/
theorem State.handshakes_eq (s : State) : s.handshakes = s.controlView.handshakes := by
  obtain ⟨hnrdiv, hrdiv, hldiv, hpmul, hmcmul, hbcd⟩ := s.controlView_handshake
  simp only [ControlView.handshakes, hnrdiv, hrdiv, hldiv, hpmul, hmcmul, hbcd]
  rw [State.handshakes, s.nrdiv.handshake_eq, s.rdiv.handshake_eq, s.ldiv.handshake_eq, s.pmul.handshake_eq,
    s.mcmul.handshake_eq, s.bcd.handshake_eq]
  rfl

/-- Settles O39: what an edge makes of the control view, and the handshakes, are functions of the control view. -/
theorem timingIgnoresData : Obligations.TimingIgnoresData := by
  intro s s' t t' hview hstep hstep'
  obtain ⟨-, -, rfl⟩ := step_next_elim hstep
  obtain ⟨-, -, rfl⟩ := step_next_elim hstep'
  exact ⟨by rw [s.handshakes_eq, s'.handshakes_eq, hview], by rw [s.edge_controlView, s'.edge_controlView, hview]⟩

end Sys2Proof.Machine

/-! PROOFS. Progress at the input (40_handshake.md R101, R103, R107): an offer held is accepted, once the work on the transaction
before is done and the consumer is ready. -/

namespace Sys2Proof.Machine

open Sys2Proof.Claims

/-! ### The work before the input opens -/

/-- A closed edge does one part of the work left, if any is. -/
theorem Workload.left_next_of_closed {x : Workload} {ready : Bool} (h : x.isOpen ready = false) (latency : Nat) (valid : Bool) :
    (x.next latency valid ready).left ≤ x.left - 1 := by
  by_cases hleft : x.left = 0
  · rw [Workload.next_of_resting hleft (by rw [h, Bool.and_false])]
    exact Nat.zero_le _
  · rw [Workload.next_of_working hleft]

/-! ### MulticycleDiv -/

theorem MDivRegs.workload_left_le {impl : Impl} {r : MDivRegs W} :
    (r.workload impl).left ≤ W + closingEdges impl + 1 := by
  have := closingEdges_pos impl
  unfold MDivRegs.workload
  cases r.fsm <;> simp only <;> omega

theorem MDiv.left_edge_of_closed {u : MDiv impl} (hW : 1 ≤ u.W) (h : u.regs.Control impl) {cycle : Nat}
    (hclosed : (u.signals cycle).inpReady = false) :
    ((u.edge cycle).regs.workload impl).left ≤ (u.regs.workload impl).left - 1 := by
  have hreset : (u.line cycle).reset = false := Bool.eq_false_iff.mpr fun hreset =>
    Bool.false_ne_true (hclosed.symm.trans (MDiv.discards_of_reset hW hreset).2.1)
  have hnow := MDiv.now_of_noReset hreset
  have hclosed : (u.now cycle).inpReady (u.line cycle).ready = false := hclosed
  have hedge := (MDivRegs.edge_workload impl (u.now cycle) (u.line cycle) hW (MDiv.now_control h cycle)).2
  rw [← MDivRegs.workload_isOpen impl] at hclosed
  rw [← hnow]
  exact (congrArg Workload.left hedge).trans_le (Workload.left_next_of_closed hclosed _ _)

theorem MDiv.open_of_left {u : MDiv impl} {cycle : Nat} (hleft : (u.regs.workload impl).left = 0)
    (hready : (u.line cycle).ready = true) : (u.signals cycle).inpReady = true := by
  refine (MDivRegs.inpReady_iff _ _).mpr ⟨?_, .inr hready⟩
  unfold MDiv.now
  split
  · rfl
  · exact (MDivRegs.workload_left_eq_zero_iff impl _).mp hleft

/-! ### LongDivider -/

theorem LDivRegs.workload_left_le {r : LDivRegs W} (hW : 2 ≤ W) (h : r.Control) : r.workload.left ≤ W - 1 := by
  unfold LDivRegs.workload
  cases hbusy : r.busy with
  | false => exact Nat.zero_le _
  | true =>
    obtain ⟨-, hindex⟩ := h hbusy
    simp only [if_true]
    omega

theorem LDiv.left_edge_of_closed {u : LDiv} (hW : 2 ≤ u.W) (h : u.regs.Control) {cycle : Nat}
    (hclosed : (u.signals cycle).inpReady = false) : (u.edge cycle).regs.workload.left ≤ u.regs.workload.left - 1 := by
  have hreset : (u.line cycle).reset = false := Bool.eq_false_iff.mpr fun hreset =>
    Bool.false_ne_true (hclosed.symm.trans (LDiv.discards_of_reset hW hreset).2.1)
  have hnow := LDiv.now_of_noReset hreset
  have hclosed : (u.now cycle).inpReady (u.line cycle).ready = false := hclosed
  have hedge := (LDivRegs.edge_workload (u.now cycle) (u.line cycle) hW (LDiv.now_control h cycle)).2
  rw [← LDivRegs.workload_isOpen] at hclosed
  rw [← hnow]
  exact (congrArg Workload.left hedge).trans_le (Workload.left_next_of_closed hclosed _ _)

theorem LDiv.open_of_left {u : LDiv} {cycle : Nat} (hleft : u.regs.workload.left = 0) (hready : (u.line cycle).ready = true) :
    (u.signals cycle).inpReady = true := by
  refine (LDivRegs.inpReady_iff _ _).mpr ⟨?_, .inr hready⟩
  unfold LDiv.now
  split
  · rfl
  · exact (LDivRegs.workload_left_eq_zero_iff _).mp hleft

/-! ### MulticycleMul -/

theorem MCMulRegs.workload_left_le {r : MCMulRegs W} (h : r.Control) : r.workload.left ≤ W - 1 := by
  unfold MCMulRegs.workload
  cases hbusy : r.busy with
  | false => exact Nat.zero_le _
  | true =>
    obtain ⟨-, hpos, -⟩ := h hbusy
    simp only [if_true]
    omega

theorem MCMul.left_edge_of_closed {u : MCMul} (hW : 2 ≤ u.W) (h : u.regs.Control) {cycle : Nat}
    (hclosed : (u.signals cycle).inpReady = false) : (u.edge cycle).regs.workload.left ≤ u.regs.workload.left - 1 := by
  have hreset : (u.line cycle).reset = false := Bool.eq_false_iff.mpr fun hreset =>
    Bool.false_ne_true (hclosed.symm.trans (MCMul.discards_of_reset hW hreset).2.1)
  have hnow := MCMul.now_of_noReset hreset
  have hcontrol := MCMul.now_control h cycle
  have hclosed : (u.now cycle).inpReady (u.line cycle).ready = false := hclosed
  have hedge := (MCMulRegs.edge_workload (u.now cycle) (u.line cycle) hW hcontrol).2
  rw [← MCMulRegs.workload_isOpen hcontrol] at hclosed
  rw [← hnow]
  exact (congrArg Workload.left hedge).trans_le (Workload.left_next_of_closed hclosed _ _)

theorem MCMul.open_of_left {u : MCMul} (h : u.regs.Control) {cycle : Nat} (hleft : u.regs.workload.left = 0)
    (hready : (u.line cycle).ready = true) : (u.signals cycle).inpReady = true := by
  refine (MCMulRegs.inpReady_iff _ _).mpr ⟨?_, .inr hready⟩
  unfold MCMul.now
  split
  · rfl
  · exact (MCMulRegs.workload_left_eq_zero_iff h).mp hleft

/-! ### The converter -/

theorem BcdSeqRegs.workload_left_le {q : BcdSeqRegs W L} (h : q.Control) : q.workload.left ≤ L - 1 := by
  unfold BcdSeqRegs.workload
  cases hbusy : q.busy with
  | false => exact Nat.zero_le _
  | true =>
    obtain ⟨-, hpos, -⟩ := h hbusy
    simp only [if_true]
    omega

/-- The edges of work left before the converter's input can open: none in the pipelined mode. -/
def BcdRegs.left (r : BcdRegs W L) : Nat :=
  match r with
  | .pipelined _ => 0
  | .sequential q => q.workload.left

theorem BcdRegs.left_edge_of_closed {r : BcdRegs W L} (hL : 1 ≤ L) (h : r.Control) {l : Line (W + 1)}
    (hclosed : r.inpReady l.ready = false) : (r.edge l).left ≤ r.left - 1 := by
  cases r with
  | pipelined st => exact Nat.zero_le _
  | sequential q =>
    have hclosed : singleReady (!q.busy) q.outValid l.ready = false := hclosed
    rw [← BcdSeqRegs.workload_isOpen h] at hclosed
    exact (congrArg Workload.left (q.edge_workload l hL h).2).trans_le (Workload.left_next_of_closed hclosed _ _)

theorem BcdRegs.open_of_left {r : BcdRegs W L} (h : r.Control) (hleft : r.left = 0) : r.inpReady true = true := by
  cases r with
  | pipelined st => exact (pipeReady_iff _ _).mpr (.inr rfl)
  | sequential q =>
    have hidle := (BcdSeqRegs.workload_left_eq_zero_iff h).mp hleft
    exact (singleReady_iff _ _ _).mpr ⟨by rw [hidle]; rfl, .inr rfl⟩

theorem Bcd.left_edge_of_closed {u : Bcd} (hL : 1 ≤ u.latency) (h : u.regs.Control) {cycle : Nat}
    (hclosed : (u.signals cycle).inpReady = false) : (u.edge cycle).regs.left ≤ u.regs.left - 1 := by
  have hreset : (u.line cycle).reset = false := Bool.eq_false_iff.mpr fun hreset =>
    Bool.false_ne_true (hclosed.symm.trans (Bcd.discards_of_reset hL hreset).2.1)
  have hnow := Bcd.now_of_noReset hreset
  rw [← hnow]
  exact BcdRegs.left_edge_of_closed hL (Bcd.now_control h cycle) hclosed

theorem Bcd.open_of_left {u : Bcd} (h : u.regs.Control) {cycle : Nat} (hleft : u.regs.left = 0)
    (hready : (u.line cycle).ready = true) : (u.signals cycle).inpReady = true := by
  show (u.now cycle).inpReady (u.line cycle).ready = true
  rw [hready]
  cases hreset : (u.line cycle).reset with
  | false =>
    rw [Bcd.now_of_noReset hreset]
    exact BcdRegs.open_of_left h hleft
  | true =>
    rw [Bcd.now_of_reset hreset]
    exact (u.regs.afterReset_empty cycle true).2.2

/-! ### The block -/

/-- The edges of work left before a component's input can open. -/
def State.left (s : State) : Component → Nat
  | .nrdiv => (s.nrdiv.regs.workload .nonRestoring).left
  | .rdiv => (s.rdiv.regs.workload .restoring).left
  | .ldiv => s.ldiv.regs.workload.left
  | .pmul => 0
  | .mcmul => s.mcmul.regs.workload.left
  | .bcd => s.bcd.regs.left
  | .mag => 0

/-- The work left is at most what `busyAtMost` says. -/
theorem State.left_le_busyAtMost {s : State} (hfault : s.fault = none) (h : s.Control) (c : Component) :
    s.left c ≤ busyAtMost s c := by
  obtain ⟨-, -, hW, -⟩ := widths_of_fault_none hfault
  obtain ⟨-, -, hldiv, hmcmul, hbcd⟩ := h
  cases c with
  | nrdiv => exact MDivRegs.workload_left_le
  | rdiv => exact MDivRegs.workload_left_le
  | ldiv => exact LDivRegs.workload_left_le hW hldiv
  | pmul => exact le_rfl
  | mcmul => exact MCMulRegs.workload_left_le hmcmul
  | mag => exact le_rfl
  | bcd =>
    unfold busyAtMost State.left
    cases hregs : s.bcd.regs with
    | pipelined st => exact le_rfl
    | sequential q =>
      rw [hregs] at hbcd
      exact BcdSeqRegs.workload_left_le hbcd

/-- A cycle in which a component's input is closed does one part of its work. -/
theorem State.left_edge_of_closed {s : State} (hfault : s.fault = none) (h : s.Control) {c : Component}
    (hclosed : portReady s c = false) : s.edge.left c ≤ s.left c - 1 := by
  obtain ⟨hWn, hWr, hWl, -, hWm, -, hL, -⟩ := widths_of_fault_none hfault
  obtain ⟨hnrdiv, hrdiv, hldiv, hmcmul, hbcd⟩ := h
  cases c with
  | nrdiv => exact MDiv.left_edge_of_closed (by omega) hnrdiv hclosed
  | rdiv => exact MDiv.left_edge_of_closed (by omega) hrdiv hclosed
  | ldiv => exact LDiv.left_edge_of_closed hWl hldiv hclosed
  | pmul => exact Nat.zero_le _
  | mcmul => exact MCMul.left_edge_of_closed hWm hmcmul hclosed
  | bcd => exact Bcd.left_edge_of_closed hL hbcd hclosed
  | mag => exact Nat.zero_le _

/-- A component with no work left is open to a driver whose consumer is ready. -/
theorem State.open_of_left {s : State} (h : s.Control) {c : Component} (hleft : s.left c = 0)
    (hready : s.consumerReady c = true) : portReady s c = true := by
  obtain ⟨-, -, -, hmcmul, hbcd⟩ := h
  cases c with
  | nrdiv => exact MDiv.open_of_left hleft hready
  | rdiv => exact MDiv.open_of_left hleft hready
  | ldiv => exact LDiv.open_of_left hleft hready
  | pmul => exact (mulReady_iff _ _).mpr (.inr hready)
  | mcmul => exact MCMul.open_of_left hmcmul hleft hready
  | bcd => exact Bcd.open_of_left hbcd hleft hready
  | mag => rfl

/-- The first cycle of a run in which a component takes an input transfer, with the offer that stood in every cycle before. -/
abbrev AcceptedAfter (c : Component) (x j : Nat) (s : State) : Prop :=
  ∃ u, RunsTo j s u ∧ portReady u c = true ∧ u.offered c = some x ∧
    ∀ i v, i < j → RunsTo i s v → portReady v c = false ∧ v.offered c = some x

theorem AcceptedAfter.zero {c : Component} {x : Nat} {s : State} (hopen : portReady s c = true)
    (hoffered : s.offered c = some x) : AcceptedAfter c x 0 s :=
  ⟨s, (runsTo_zero_iff s s).mpr rfl, hopen, hoffered, fun _ _ hi => absurd hi (Nat.not_lt_zero _)⟩

/-- A closed cycle before the run in which the offer is accepted. -/
theorem AcceptedAfter.succ {c : Component} {x j : Nat} {s u : State} (hstep : step s = .next u) (hclosed : portReady s c = false)
    (hoffered : s.offered c = some x) (h : AcceptedAfter c x j u) : AcceptedAfter c x (j + 1) s := by
  obtain ⟨w, hrun, hopen, hw, hbefore⟩ := h
  refine ⟨w, (runsTo_succ_iff j s w).mpr ⟨u, hstep, hrun⟩, hopen, hw, fun i v hi hv => ?_⟩
  cases i with
  | zero =>
    obtain rfl := (runsTo_zero_iff s v).mp hv
    exact ⟨hclosed, hoffered⟩
  | succ i =>
    obtain ⟨u', hstep', hv⟩ := (runsTo_succ_iff i s v).mp hv
    obtain rfl : u = u' := Host.Outcome.next.inj (hstep.symm.trans hstep')
    exact hbefore i v (Nat.lt_of_succ_lt_succ hi) hv

/-- A held offer is accepted by the time the consumer is ready, if the work left is done by then. -/
theorem exists_acceptedAfter {c : Component} {x f : Nat} {s w : State} (hcontrol : s.Control) (hrun : RunsTo f s w)
    (hready : w.consumerReady c = true) (hleft : s.left c ≤ f) (hoffered : s.offered c = some x)
    (hholds : s.DriverHoldsOffer c f) : ∃ j ≤ f, AcceptedAfter c x j s := by
  induction f generalizing s with
  | zero =>
    obtain rfl := (runsTo_zero_iff s w).mp hrun
    exact ⟨0, le_rfl, .zero (State.open_of_left hcontrol (Nat.le_zero.mp hleft) hready) hoffered⟩
  | succ f ih =>
    cases hclosed : portReady s c with
    | true => exact ⟨0, Nat.zero_le _, .zero hclosed hoffered⟩
    | false =>
      obtain ⟨u, hstep, hrun⟩ := (runsTo_succ_iff f s w).mp hrun
      obtain ⟨hkeeps, hholds⟩ := hholds u hstep
      have hcontrol' := stepKeepsControl s u hcontrol hstep
      have hoffered' : u.offered c = some x := (hkeeps hclosed (by rw [hoffered]; nofun)).trans hoffered
      have hleft' : u.left c ≤ f := by
        obtain ⟨hfault, -, rfl⟩ := step_next_elim hstep
        have := State.left_edge_of_closed hfault hcontrol hclosed
        omega
      obtain ⟨j, hj, haccepted⟩ := ih hcontrol' hrun hleft' hoffered' hholds
      exact ⟨j + 1, Nat.succ_le_succ hj, haccepted.succ hstep hclosed hoffered⟩

/-- Settles O60: the consumer is ready at a cycle by which the work on the transaction before is done. -/
theorem offerHeldIsAccepted : Obligations.OfferHeldIsAccepted := by
  rintro c k x s t hcontrol hrun hoffered hholds ⟨f, w, hstart, hfk, hrunw, hready⟩
  have hfault : s.fault = none := by
    obtain ⟨k, rfl⟩ : ∃ k', k = k' + 1 := ⟨k - 1, by omega⟩
    obtain ⟨u, hstep, -⟩ := (runsTo_succ_iff k s t).mp hrun
    exact (step_next_elim hstep).1
  have hleft := (State.left_le_busyAtMost hfault hcontrol c).trans hstart
  obtain ⟨j, hj, u, haccepted⟩ := exists_acceptedAfter hcontrol hrunw hready hleft hoffered (hholds.mono hfk.le)
  exact ⟨j, u, hj.trans_lt hfk, haccepted⟩

end Sys2Proof.Machine
